-- ==== Sys2Proof/Word.lean ====
section
/-! DEFINITION. The widths of the values the core handles (00_scope.md rules R7, R9): bytes, 16-bit control words and
24-bit drive frames. -/

namespace Sys2Proof

/-- An opcode, a flags byte, a bus value or a byte of the load buffer (R7: `OPCODE_WIDTH` = 8). -/
abbrev Byte := BitVec 8

/-- A control word (R70; R7: `CW_WIDTH` = 16). -/
abbrev Word := BitVec 16

/-- A drive frame, and the 24 bits of the output chain (R90, R55). -/
abbrev Frame := BitVec 24

/-- R7: the largest micro-step index looked up, `MAX_STEP` = 6. -/
def maxStep : Nat := 6

/-- R7: the largest load buffer, `MAX_LOAD` = 255. -/
def maxLoad : Nat := 255

end Sys2Proof
end

