-- ==== Sys2Proof/Machine/Agents.lean ====
section
/-! DEFINITION. The agents of 00_scope.md rule R6 and what they can do: the operating modes, the host's calls and replies
(45_host_interface.md), and the moves by which the environment, the host and the core take turns. -/

namespace Sys2Proof.Machine

/-- R6: the four agents. -/
inductive Agent where
  | main
  | producer
  | env
  | host
deriving DecidableEq, Repr, Inhabited

/-- R21, R206: the operating mode, one tagged value. -/
inductive Mode where
  | idle
  | execute
  | loadCode
deriving DecidableEq, Repr, Inhabited

/-- R275: the calls of the host. `startUp` is the source's one-time set-up call of rule R261. -/
inductive HostCall where
  | startUp
  | pollOnce
  | requestReset
  | requestMode (target : Mode)
  | requestLoadCode (bytes : List Byte)
  | statusRead
deriving DecidableEq, Repr, Inhabited

/-- R270: the record the status read returns. -/
structure Status where
  mode : Mode
  instruction : Byte
  flags : Byte
  step : Nat
  controlWord : Word
  codeLoaded : Nat
  codeSize : Nat
deriving DecidableEq, Repr

/-- R275, column "host gets back". -/
inductive Reply where
  /-- The call returned, with no value. -/
  | done
  /-- The call returned a boolean. -/
  | accepted (ok : Bool)
  /-- The status read returned its record. -/
  | status (record : Status)
deriving DecidableEq, Repr

/-- Who moves next and how (log entry 4). Every interleaving of R61, R181, R182 and R262 is some list of these. -/
inductive Move where
  /-- R181: Env sets the attached clock to this level. -/
  | clock (level : Bool)
  /-- R36: Env presents these bytes at the input chain's parallel inputs. -/
  | present (opcode flags : Byte)
  /-- R153: Env sets the level at the input chain's serial input. -/
  | serial (level : Bool)
  /-- R262: the host makes a call, which waits until `Main` is free. -/
  | call (c : HostCall)
  /-- The core takes one atomic step: the `Producer` if it is requested (R182), else `Main`. -/
  | core
  /-- Env and host make no move until the core has nothing left to do. -/
  | await
deriving DecidableEq, Repr, Inhabited

end Sys2Proof.Machine
end

