-- ==== Sys2Proof/Syntax.lean ====
section
/-! DEFINITION. The instruction set the core sequences (30_encoding.md rules R82 to R85, opcode_table.json). The core reads
one opcode byte and never an operand byte (R82), so the 15 named instructions carry no operand here; the operand byte that the
attached CPU fetches (R86) belongs to the assembler line of Decode.lean. -/

namespace Sys2Proof

/-- One constructor per row of opcode_table.json. -/
inductive Instr where
  /-- R120, no operation. -/
  | nop
  /-- R121, halt. -/
  | hlt
  /-- R122, unconditional jump. -/
  | jmp
  /-- R123, jump if C = 1. -/
  | jmc
  /-- R124, jump if Z = 1. -/
  | jmz
  /-- R125, jump if Z = 0. -/
  | jnz
  /-- R126, load A from memory. -/
  | lda
  /-- R127, load B from memory. -/
  | ldb
  /-- R128, store A to memory. -/
  | sta
  /-- R129, store B to memory. -/
  | stb
  /-- R130, store (E). -/
  | ste
  /-- R131, A + B with flags. -/
  | add
  /-- R132, A - B with flags. -/
  | sub
  /-- R133, transfer A to B. -/
  | tab
  /-- R134, transfer B to A. -/
  | tba
  /-- R135, an opcode byte of no mnemonic; the byte itself. -/
  | undef (op : Byte)
  /-- R136, the 16th defined instruction, present only when `EXTRA_OPCODE` is set; its opcode byte. -/
  | extra (op : Byte)
deriving DecidableEq, Repr

end Sys2Proof
end

