-- ==== Sys2Proof/Config.lean ====
section
/-! DEFINITION. The implementation parameters of 00_scope.md rule R7, which "a model takes as an argument": one structure of
plain data, which State carries unchanged (log entry 1), and the model's free values. The reference instance REF stands in
Machine/Parameters.lean. -/

namespace Sys2Proof

/-- R80: a FlagState, the pair (Z, C). -/
structure FlagState where
  z : Bool
  c : Bool
deriving DecidableEq, Repr

/-- R71, R72: the 14 control lines the source names, the three register selectors whose existence is open, and the further
lines of an instance, whose names no source gives ("etc."), numbered from 0. -/
inductive Line where
  | hlt
  | j
  | ce
  | co
  | mi
  | ri
  | ro
  | ii
  | fi
  | su
  | ai
  | eo
  | epo
  | rdy
  | ao
  | bi
  | bo
  | other (k : Nat)
deriving DecidableEq, Repr

/-- R72: `LINE_BIT`, which is the line set too. The 14 named lines have a bit in every instance; AO, BI and BO only where the
instance has them; `others` are the bits of its further lines, in their order. -/
structure LineBits where
  hlt : Fin 16
  j : Fin 16
  ce : Fin 16
  co : Fin 16
  mi : Fin 16
  ri : Fin 16
  ro : Fin 16
  ii : Fin 16
  fi : Fin 16
  su : Fin 16
  ai : Fin 16
  eo : Fin 16
  epo : Fin 16
  rdy : Fin 16
  ao : Option (Fin 16)
  bi : Option (Fin 16)
  bo : Option (Fin 16)
  others : List (Fin 16)
deriving DecidableEq, Repr

/-- R84: `OPCODE`, the value of each mnemonic. -/
structure Opcodes where
  nop : Byte
  hlt : Byte
  jmp : Byte
  jmc : Byte
  jmz : Byte
  jnz : Byte
  lda : Byte
  ldb : Byte
  sta : Byte
  stb : Byte
  ste : Byte
  add : Byte
  sub : Byte
  tab : Byte
  tba : Byte
deriving DecidableEq, Repr

/-- R108: `BODY`, the words of steps 2 onwards; `none` where the instance leaves the body unchosen (R306 X1). NOP's body is
fixed by the source and stands in Machine/Parameters.lean. -/
structure Bodies where
  hlt : Option (List Word)
  jmp : Option (List Word)
  jmc : Option (List Word)
  jmz : Option (List Word)
  jnz : Option (List Word)
  lda : Option (List Word)
  ldb : Option (List Word)
  sta : Option (List Word)
  stb : Option (List Word)
  ste : Option (List Word)
  add : Option (List Word)
  sub : Option (List Word)
  tab : Option (List Word)
  tba : Option (List Word)
  extra : Option (List Word)
deriving DecidableEq, Repr

/-- R107: `BRANCH_STEP` of the three conditional jumps. -/
structure BranchSteps where
  jmc : Nat
  jmz : Nat
  jnz : Nat
deriving DecidableEq, Repr

/-- R81: `FLAGS_DECODE` as data: REF's decode, or a table of one entry per flags byte, `none` for a byte that faults. -/
inductive FlagsDecode where
  | ref
  | table (entries : List (Option FlagState))
deriving DecidableEq, Repr

/-- R200: `RESET_CW_STORE`. -/
inductive ResetStore where
  | zero
  | lookupStep0
deriving DecidableEq, Repr

/-- R152: how many bytes a sample reads. -/
inductive SampleSize where
  | one
  | two
deriving DecidableEq, Repr

/-- The parameters of R7 that the source does not fix. -/
structure Config where
  /-- `LINE_BIT`. -/
  lineBits : LineBits
  /-- `INVERT_MASK` (R79). -/
  invertMask : Word
  /-- `OPCODE`. -/
  opcodes : Opcodes
  /-- `EXTRA_OPCODE` (R136). -/
  extraOpcode : Option Byte
  /-- `FLAGS_DECODE`. -/
  flagsDecode : FlagsDecode
  /-- `BODY`. -/
  bodies : Bodies
  /-- `BRANCH_STEP`. -/
  branchSteps : BranchSteps
  /-- `TAKEN_WORD` (R107). -/
  takenWord : Word
  /-- `RESET_CW_STORE`. -/
  resetStore : ResetStore
  /-- `RESET_SAMPLE_BYTES`. -/
  resetSample : SampleSize
  /-- `RESET_CLEARS_LOADER`. -/
  resetClearsLoader : Bool
  /-- `IN_LATCH_ACTIVE` (R152). -/
  inLatchActive : Bool
  /-- `T_PULSE`, a lower bound nothing computes with (R160). -/
  tPulse : Nat
  /-- `T_LOW`, likewise. -/
  tLow : Nat
  /-- `CLK_SHARES_DATA` (R361). -/
  clkSharesData : Bool
  /-- `SAMPLE_READ_BEFORE_PULSE` (R153). -/
  readBeforePulse : Bool
deriving DecidableEq, Repr

/-- Free value (log entry 4): the move taken where the script of moves has ended, for the n-th such draw. -/
opaque Config.freeMove : Nat → Machine.Move

/-- Free value (log entry 18): what the attached RAM holds at an address nothing has written (I23). -/
opaque Config.freeRam : Nat → Byte

end Sys2Proof
end

