-- ==== Sys2Proof/Machine/Parameters.lean ====
section
/-! DEFINITION. How the parameters of rule R7 are read (control words as sets of lines, opcodes, bodies) and the reference
instance REF with the defaults (92_eei_decisions.md D1 to D22). -/

namespace Sys2Proof

/-- R72: the bit of a line, if the instance has the line. -/
def LineBits.bit? (l : LineBits) : Line → Option (Fin 16)
  | .hlt => some l.hlt
  | .j => some l.j
  | .ce => some l.ce
  | .co => some l.co
  | .mi => some l.mi
  | .ri => some l.ri
  | .ro => some l.ro
  | .ii => some l.ii
  | .fi => some l.fi
  | .su => some l.su
  | .ai => some l.ai
  | .eo => some l.eo
  | .epo => some l.epo
  | .rdy => some l.rdy
  | .ao => l.ao
  | .bi => l.bi
  | .bo => l.bo
  | .other k => l.others[k]?

/-- The word in which one line is asserted (R70). A line the instance lacks has no bit. -/
def LineBits.mask (l : LineBits) (x : Line) : Word :=
  match l.bit? x with
  | some b => 1#16 <<< b.val
  | none => 0#16

/-- R11: the control word of a set of lines. -/
def LineBits.word (l : LineBits) : List Line → Word
  | [] => 0#16
  | x :: xs => l.mask x ||| l.word xs

/-- R70: line `x` is asserted in the logical word `w`. -/
def LineBits.asserts (l : LineBits) (w : Word) (x : Line) : Bool :=
  match l.bit? x with
  | some b => w.getLsbD b.val
  | none => false

/-- R76: CO|MI. -/
def Config.fetch0 (cfg : Config) : Word := cfg.lineBits.word [.co, .mi]

/-- R76: RO|II|CE. -/
def Config.fetch1 (cfg : Config) : Word := cfg.lineBits.word [.ro, .ii, .ce]

/-- R77: MI|EPO|RDY. -/
def Config.loadAddr (cfg : Config) : Word := cfg.lineBits.word [.mi, .epo, .rdy]

/-- R77: RI|EPO|RDY. -/
def Config.loadData (cfg : Config) : Word := cfg.lineBits.word [.ri, .epo, .rdy]

/-- R74: the word of the ready line. -/
def Config.ready (cfg : Config) : Word := cfg.lineBits.word [.rdy]

/-- R107: `NOT_TAKEN_WORD`, fixed by D6. -/
def Config.notTakenWord : Word := 0#16

/-- R78: the wire value of a logical word. -/
def Config.wire (cfg : Config) (cw : Word) : Word := cw ^^^ cfg.invertMask

/-- R90: the 24-bit frame of a drive, bus byte first. -/
def Config.frame (cfg : Config) (cw : Word) (bus : Byte) : Frame := bus ++ cfg.wire cw

/-- The inactive level of the input latch, `1 - IN_LATCH_ACTIVE` (R35). -/
def Config.inLatchRest (cfg : Config) : Bool := !cfg.inLatchActive

/-- R84, R135, R136: the opcode byte of an instruction. -/
def Config.opcodeOf (cfg : Config) : Instr → Byte
  | .nop => cfg.opcodes.nop
  | .hlt => cfg.opcodes.hlt
  | .jmp => cfg.opcodes.jmp
  | .jmc => cfg.opcodes.jmc
  | .jmz => cfg.opcodes.jmz
  | .jnz => cfg.opcodes.jnz
  | .lda => cfg.opcodes.lda
  | .ldb => cfg.opcodes.ldb
  | .sta => cfg.opcodes.sta
  | .stb => cfg.opcodes.stb
  | .ste => cfg.opcodes.ste
  | .add => cfg.opcodes.add
  | .sub => cfg.opcodes.sub
  | .tab => cfg.opcodes.tab
  | .tba => cfg.opcodes.tba
  | .undef op => op
  | .extra op => op

/-- R84: the 15 named instructions. -/
def namedInstrs : List Instr :=
  [.nop, .hlt, .jmp, .jmc, .jmz, .jnz, .lda, .ldb, .sta, .stb, .ste, .add, .sub, .tab, .tba]

/-- R84, R136: the defined instructions of an instance, the extra one last. -/
def Config.definedInstrs (cfg : Config) : List Instr :=
  namedInstrs ++ (cfg.extraOpcode.map Instr.extra).toList

/-- R108: `BODY` of a defined instruction; `none` where the instance leaves it unchosen. The source fixes NOP's to be empty.
An undefined opcode has no row (R104), so no body. -/
def Config.bodyOf (cfg : Config) : Instr → Option (List Word)
  | .nop => some []
  | .hlt => cfg.bodies.hlt
  | .jmp => cfg.bodies.jmp
  | .jmc => cfg.bodies.jmc
  | .jmz => cfg.bodies.jmz
  | .jnz => cfg.bodies.jnz
  | .lda => cfg.bodies.lda
  | .ldb => cfg.bodies.ldb
  | .sta => cfg.bodies.sta
  | .stb => cfg.bodies.stb
  | .ste => cfg.bodies.ste
  | .add => cfg.bodies.add
  | .sub => cfg.bodies.sub
  | .tab => cfg.bodies.tab
  | .tba => cfg.bodies.tba
  | .undef _ => none
  | .extra _ => cfg.bodies.extra

/-- D2: REF's line layout, bits 15..0 = HLT MI RI RO II AI AO EO SU BI FI CE CO J EPO RDY. -/
def refLineBits : LineBits where
  hlt := 15
  mi := 14
  ri := 13
  ro := 12
  ii := 11
  ai := 10
  ao := some 9
  eo := 8
  su := 7
  bi := some 6
  fi := 5
  ce := 4
  co := 3
  j := 2
  epo := 1
  rdy := 0
  bo := none
  others := []

/-- D1: REF's opcode values, in the order the source lists the names. -/
def refOpcodes : Opcodes where
  nop := 0x00#8
  hlt := 0x01#8
  jmp := 0x02#8
  jmc := 0x03#8
  jmz := 0x04#8
  jnz := 0x05#8
  lda := 0x06#8
  ldb := 0x07#8
  sta := 0x08#8
  stb := 0x09#8
  ste := 0x0A#8
  add := 0x0B#8
  sub := 0x0C#8
  tab := 0x0D#8
  tba := 0x0E#8

/-- D6: REF's `TAKEN_WORD`, RO|J. -/
def refTakenWord : Word := refLineBits.word [.ro, .j]

/-- D5: REF's operand fetch word, CO|MI|CE. -/
def refOperandFetch : Word := refLineBits.word [.co, .mi, .ce]

/-- D5: REF's bodies. STB, STE and TBA are unchosen (R111). -/
def refBodies : Bodies where
  hlt := some [refLineBits.word [.hlt]]
  jmp := some [refOperandFetch, refTakenWord]
  jmc := some [refOperandFetch, Config.notTakenWord]
  jmz := some [refOperandFetch, Config.notTakenWord]
  jnz := some [refOperandFetch, refTakenWord]
  lda := some [refOperandFetch, refLineBits.word [.ro, .mi], refLineBits.word [.ro, .ai]]
  ldb := some [refOperandFetch, refLineBits.word [.ro, .mi], refLineBits.word [.ro, .bi]]
  sta := some [refOperandFetch, refLineBits.word [.ro, .mi], refLineBits.word [.ao, .ri]]
  stb := none
  ste := none
  add := some [refLineBits.word [.eo, .ai, .fi]]
  sub := some [refLineBits.word [.eo, .ai, .su, .fi]]
  tab := some [refLineBits.word [.ao, .bi]]
  tba := none
  extra := none

/-- REF (D1 to D6, D17) with every other parameter at its default (D8 to D10, D15, D19, D22). The two pulse widths are open
in the spec; nothing computes with the values here (log entry 19). -/
def Config.ref : Config where
  lineBits := refLineBits
  invertMask := 0x7E44#16
  opcodes := refOpcodes
  extraOpcode := none
  flagsDecode := .ref
  bodies := refBodies
  branchSteps := { jmc := 3, jmz := 3, jnz := 3 }
  takenWord := refTakenWord
  resetStore := .zero
  resetSample := .one
  resetClearsLoader := false
  inLatchActive := false
  tPulse := 1
  tLow := 0
  clkSharesData := false
  readBeforePulse := true

end Sys2Proof
end

