-- ==== Sys2Proof/WellFormed.lean ====
section
/-! DEFINITION. What makes an instance of the parameters (00_scope.md rule R7, 40_microcode.md rules R107 and R108) and an
instruction well formed, as Bool checks. -/

namespace Sys2Proof

/-- The bits the instance's lines use (R72). -/
def LineBits.used (l : LineBits) : List (Fin 16) :=
  [l.hlt, l.j, l.ce, l.co, l.mi, l.ri, l.ro, l.ii, l.fi, l.su, l.ai, l.eo, l.epo, l.rdy]
    ++ l.ao.toList ++ l.bi.toList ++ l.bo.toList ++ l.others

/-- R73: the word is a set of lines: it sets no bit that no line of the instance uses. -/
def LineBits.isLines (l : LineBits) (w : Word) : Bool :=
  (List.finRange 16).all fun b => !w.getLsbD b.val || l.used.contains b

/-- No entry occurs twice. -/
def noRepeats {α : Type} [DecidableEq α] : List α → Bool
  | [] => true
  | x :: xs => !xs.contains x && noRepeats xs

/-- R84: the opcode bytes of the defined instructions. -/
def Config.definedOpcodes (cfg : Config) : List Byte := cfg.definedInstrs.map cfg.opcodeOf

/-- R72: `LINE_BIT` is injective; so an instance has at most 16 lines. -/
def Config.linesWf (cfg : Config) : Bool := noRepeats cfg.lineBits.used

/-- R84: `OPCODE` is injective (`EXTRA_OPCODE` included) and NOP is 0x00. -/
def Config.opcodesWf (cfg : Config) : Bool :=
  noRepeats cfg.definedOpcodes && cfg.opcodes.nop == 0x00#8

/-- R108, R73: a body has at most five words, each a set of lines without RDY; 0x0000 stands in it only at the step in
`branch`. -/
def Config.bodyWf (cfg : Config) (branch : Option Nat) : Option (List Word) → Bool
  | none => true
  | some ws =>
    decide (ws.length ≤ 5)
      && ws.all (fun w => cfg.lineBits.isLines w && !cfg.lineBits.asserts w .rdy)
      && (List.range ws.length).all (fun k => ws.getD k 0#16 != 0#16 || branch == some (k + 2))

/-- R107: the base word at a conditional jump's branch step, which lies in 2..6. -/
def branchWf (base : Word) (step : Nat) (body : Option (List Word)) : Bool :=
  decide (2 ≤ step) && decide (step ≤ maxStep)
    && match body with
       | none => true
       | some ws => ws[step - 2]? == some base

/-- R108: some word of the body asserts all of `on` and none of `off`. -/
def Config.bodyHas (cfg : Config) (on off : List Line) : Option (List Word) → Bool
  | none => true
  | some ws => ws.any fun w =>
      on.all (cfg.lineBits.asserts w) && off.all (fun x => !cfg.lineBits.asserts w x)

/-- R71: the lines that put a byte on the bus of the attached CPU. What an instance's further lines do is not known. -/
def busSources : List Line := [.co, .ro, .ao, .bo, .eo, .epo]

/-- R108: the word puts on the bus what the line `x` gives, and no other named source. -/
def Config.sourceIs (cfg : Config) (w : Word) (x : Line) : Bool :=
  busSources.all fun y => cfg.lineBits.asserts w y == (y == x)

/-- R72: the word asserts a further line of the instance, which may name a source or a register that takes the bus. -/
def Config.assertsOther (cfg : Config) (w : Word) : Bool :=
  (List.range cfg.lineBits.others.length).any fun k => cfg.lineBits.asserts w (.other k)

/-- R108: where the attached CPU has the operand byte between two words of a body. -/
structure Operand where
  /-- The memory-address register addresses it. -/
  addressed : Bool
  /-- The memory-address register holds it, so memory is addressed with it. -/
  pointed : Bool
  /-- A holds it. -/
  inA : Bool
  /-- B holds it. -/
  inB : Bool
  /-- A register that a further line selects may hold it. -/
  inOther : Bool
deriving DecidableEq, Repr

/-- R108: the word puts the operand byte on the bus: the RAM's byte, or a register that holds it. A register that no named line
reads out may be read out by a further one. -/
def Config.busHasOperand (cfg : Config) (o : Operand) (w : Word) : Bool :=
  cfg.sourceIs w .ro && o.addressed
    || cfg.sourceIs w .ao && o.inA
    || cfg.sourceIs w .bo && o.inB
    || busSources.all (fun y => !cfg.lineBits.asserts w y) && cfg.assertsOther w && (o.inA || o.inB || o.inOther)

/-- R108: where the operand byte is after the word. -/
def Config.moveOperand (cfg : Config) (o : Operand) (w : Word) : Operand :=
  let on := cfg.lineBits.asserts w
  let bus := cfg.busHasOperand o w
  { addressed := o.addressed && !on .mi && !on .ri
    pointed := if on .mi then bus else o.pointed
    inA := if on .ai then bus else o.inA
    inB := if on .bi then bus else o.inB
    inOther := o.inOther || cfg.assertsOther w && bus }

/-- R108: the words that follow the fetch, each with where the operand byte is before it. -/
def Config.trace (cfg : Config) (o : Operand) : List Word → List (Operand × Word)
  | [] => []
  | w :: ws => (o, w) :: cfg.trace (cfg.moveOperand o w) ws

/-- R108: a body with an operand first fetches it: its first word addresses memory with the counter, as the universal fetch does
(R76; log entry 31). What follows is traced from there. -/
def Config.afterFetch (cfg : Config) : List Word → List (Operand × Word)
  | [] => []
  | w :: ws =>
    if cfg.sourceIs w .co && cfg.lineBits.asserts w .mi then
      cfg.trace { addressed := true, pointed := false, inA := false, inB := false, inOther := false } ws
    else []

/-- R86: the word reads the byte the counter addressed. -/
def Config.readsOperand (cfg : Config) (p : Operand × Word) : Bool := cfg.sourceIs p.2 .ro && p.1.addressed

/-- R86: the words have the CPU fetch an operand byte: one addresses memory with the counter, and a later one reads the byte. -/
def Config.fetchesOperand (cfg : Config) (ws : List Word) : Bool :=
  ws.tails.any fun t => (cfg.afterFetch t).any cfg.readsOperand

/-- R108: the word addresses memory with the operand byte, or transfers it to a register. -/
def Config.usesOperand (cfg : Config) (p : Operand × Word) : Bool :=
  cfg.busHasOperand p.1 p.2
    && ([Line.mi, .ai, .bi].any (cfg.lineBits.asserts p.2) || cfg.assertsOther p.2)

/-- R108: the word is `TAKEN_WORD`, and loads the operand byte into the counter. -/
def Config.takesBranch (cfg : Config) (p : Operand × Word) : Bool :=
  p.2 == cfg.takenWord && cfg.lineBits.asserts p.2 .j && cfg.busHasOperand p.1 p.2

/-- R126: the word reads the RAM at the operand's address into the accumulator. -/
def Config.loadsAccumulator (cfg : Config) (p : Operand × Word) : Bool :=
  p.1.pointed && cfg.sourceIs p.2 .ro && cfg.lineBits.asserts p.2 .ai

/-- R108: a load or store fetches an operand byte and then addresses memory with it or transfers it. -/
def Config.memoryBodyWf (cfg : Config) : Option (List Word) → Bool
  | none => true
  | some ws => (cfg.afterFetch ws).any cfg.usesOperand

/-- R126: LDA addresses memory with the operand, and then reads the RAM into the accumulator. -/
def Config.ldaBodyWf (cfg : Config) : Option (List Word) → Bool
  | none => true
  | some ws => (cfg.afterFetch ws).any cfg.loadsAccumulator

/-- R108, R122: JMP fetches an operand byte, and some word of its body loads it into the counter. -/
def Config.jumpBodyWf (cfg : Config) : Option (List Word) → Bool
  | none => true
  | some ws => (cfg.afterFetch ws).any cfg.takesBranch

/-- R100 step 3: the body of a conditional jump with the word `w` at its branch step. -/
def branchRow (step : Nat) (w : Word) (ws : List Word) : List Word := ws.set (step - 2) w

/-- R123: where the branch is not taken, the counter has been moved past the operand byte before the branch step, once, and is
left there (R124 and R125 by log entry 31). -/
def Config.stepsOver (cfg : Config) (step : Nat) (ws : List Word) : Bool :=
  let row := branchRow step Config.notTakenWord ws
  (row.take (step - 2)).any (fun w => cfg.lineBits.asserts w .ce)
    && row.countP (fun w => cfg.lineBits.asserts w .ce) == 1
    && row.all (fun w => !cfg.lineBits.asserts w .j)

/-- R108: a conditional jump fetches an operand byte, which the word of its branch step, where taken, loads into the counter;
where it is not taken the counter has stepped over it. -/
def Config.branchBodyWf (cfg : Config) (step : Nat) : Option (List Word) → Bool
  | none => true
  | some ws =>
    decide (3 ≤ step)
      && cfg.stepsOver step ws
      && match (cfg.afterFetch (branchRow step cfg.takenWord ws))[step - 3]? with
         | some p => cfg.takesBranch p
         | none => false

/-- R86: the body of an instruction without an operand has the CPU fetch none. -/
def Config.plainBodyWf (cfg : Config) : Option (List Word) → Bool
  | none => true
  | some ws => !cfg.fetchesOperand ws

/-- R86, R108: the bodies with an operand fetch and use it, and the others fetch none. -/
def Config.operandsWf (cfg : Config) : Bool :=
  [cfg.bodies.lda, cfg.bodies.ldb, cfg.bodies.sta, cfg.bodies.stb, cfg.bodies.ste].all cfg.memoryBodyWf
    && cfg.ldaBodyWf cfg.bodies.lda
    && cfg.jumpBodyWf cfg.bodies.jmp
    && cfg.branchBodyWf cfg.branchSteps.jmc cfg.bodies.jmc
    && cfg.branchBodyWf cfg.branchSteps.jmz cfg.bodies.jmz
    && cfg.branchBodyWf cfg.branchSteps.jnz cfg.bodies.jnz
    && [cfg.bodies.hlt, cfg.bodies.add, cfg.bodies.sub, cfg.bodies.tab, cfg.bodies.tba].all cfg.plainBodyWf

/-- R126: no word of the body asserts FI, so the attached flags register keeps its flags. -/
def Config.keepsFlags (cfg : Config) : Option (List Word) → Bool
  | none => true
  | some ws => ws.all fun w => !cfg.lineBits.asserts w .fi

/-- R121 to R129, R133, R134: the instructions that write no flags assert FI nowhere, a conditional jump's TAKEN_WORD included
(R126 says so in words, of the others log entry 31). -/
def Config.flagsWf (cfg : Config) : Bool :=
  cfg.keepsFlags (some [cfg.takenWord])
    && [cfg.bodies.hlt, cfg.bodies.jmp, cfg.bodies.jmc, cfg.bodies.jmz, cfg.bodies.jnz, cfg.bodies.lda, cfg.bodies.ldb,
        cfg.bodies.sta, cfg.bodies.stb, cfg.bodies.tab, cfg.bodies.tba].all cfg.keepsFlags

/-- R107: the branch step of a conditional jump whose base word is not taken, the only place of a zero word in a body. -/
def Config.branchOf (cfg : Config) : Instr → Option Nat
  | .jmc => some cfg.branchSteps.jmc
  | .jmz => some cfg.branchSteps.jmz
  | .nop | .hlt | .jmp | .jnz | .lda | .ldb | .sta | .stb | .ste | .add | .sub | .tab | .tba => none
  | .undef _ | .extra _ => none

/-- R73, R107, R108: `TAKEN_WORD` is a set of lines without RDY; it loads the counter (the line J) from the RAM or a register,
where an operand byte can be. -/
def Config.takenWf (cfg : Config) : Bool :=
  cfg.lineBits.isLines cfg.takenWord && !cfg.lineBits.asserts cfg.takenWord .rdy
    && cfg.takesBranch ({ addressed := true, pointed := false, inA := true, inB := true, inOther := true }, cfg.takenWord)

/-- R107, R108: the constraints on `BODY`, `BRANCH_STEP` and `TAKEN_WORD`. -/
def Config.bodiesWf (cfg : Config) : Bool :=
  cfg.definedInstrs.all (fun i => cfg.bodyWf (cfg.branchOf i) (cfg.bodyOf i))
    && branchWf Config.notTakenWord cfg.branchSteps.jmc cfg.bodies.jmc
    && branchWf Config.notTakenWord cfg.branchSteps.jmz cfg.bodies.jmz
    && branchWf cfg.takenWord cfg.branchSteps.jnz cfg.bodies.jnz
    && cfg.bodyHas [.eo, .ai, .fi] [.su] cfg.bodies.add
    && cfg.bodyHas [.eo, .ai, .fi, .su] [] cfg.bodies.sub
    && cfg.takenWf
    && cfg.operandsWf
    && cfg.flagsWf

/-- R81: a table decodes every flags byte. -/
def FlagsDecode.wf : FlagsDecode → Bool
  | .ref => true
  | .table t => t.length == 256

/-- A well-formed instance of the parameters. -/
def Config.wf (cfg : Config) : Bool :=
  cfg.linesWf && cfg.opcodesWf && cfg.bodiesWf && cfg.flagsDecode.wf

/-- A well-formed instruction of an instance: an undefined opcode is the byte of no defined instruction (R85, R135), and the
extra instruction is there only with its own opcode (R136). -/
def Instr.wf (cfg : Config) : Instr → Bool
  | .undef op => !cfg.definedOpcodes.contains op
  | .extra op => cfg.extraOpcode == some op
  | .nop | .hlt | .jmp | .jmc | .jmz | .jnz | .lda | .ldb | .sta | .stb | .ste | .add | .sub | .tab | .tba => true

end Sys2Proof
end

