-- ==== Sys2Proof/Decode.lean ====
section
/-! DEFINITION. Decoding and encoding (30_encoding.md rules R82, R84 to R88). The core decodes one opcode byte and every byte
has a meaning (R85). The assembler line, an opcode byte and the operand byte the attached CPU fetches after it (R86, R88), is
decoded and encoded beside it. -/

namespace Sys2Proof

/-- R82, R84, R85: the instruction an opcode byte selects; a byte of no defined instruction is an undefined opcode. -/
def decodeOpcode (cfg : Config) (b : Byte) : Instr :=
  match cfg.definedInstrs.find? (fun i => cfg.opcodeOf i == b) with
  | some i => i
  | none => .undef b

/-- R84: the opcode byte of an instruction. -/
def encode (cfg : Config) (i : Instr) : Byte := cfg.opcodeOf i

/-- R86: whether the attached CPU fetches an operand byte after the opcode. The source says so of the named instructions (D29
for HLT, TAB and TBA); for EXTRA it is what its microcode does (log entry 25). -/
def Instr.hasOperand (cfg : Config) : Instr → Bool
  | .jmp | .jmc | .jmz | .jnz | .lda | .ldb | .sta | .stb | .ste => true
  | .nop | .hlt | .add | .sub | .tab | .tba => false
  | .undef _ => false
  | .extra _ => cfg.bodies.extra.any cfg.fetchesOperand

/-- R86: the length of an instruction in bytes, as the attached CPU sees it. -/
def Instr.length (cfg : Config) (i : Instr) : Nat := if i.hasOperand cfg then 2 else 1

/-- R88: one line of a program: an instruction, with its operand byte where it has one, or a data byte. -/
inductive AsmLine where
  | plain (i : Instr)
  | withOperand (i : Instr) (operand : Byte)
  | data (b : Byte)
deriving DecidableEq, Repr

/-- R86, R88: an operand byte stands exactly where the instruction has one. -/
def AsmLine.wf (cfg : Config) : AsmLine → Bool
  | .plain i => i.wf cfg && !i.hasOperand cfg
  | .withOperand i _ => i.wf cfg && i.hasOperand cfg
  | .data _ => true

/-- R88: the bytes of a line. -/
def encodeLine (cfg : Config) : AsmLine → List Byte
  | .plain i => [encode cfg i]
  | .withOperand i b => [encode cfg i, b]
  | .data b => [b]

/-- R88: the image of a program. -/
def assemble (cfg : Config) (lines : List AsmLine) : List Byte := lines.flatMap (encodeLine cfg)

/-- Why a list of bytes is no line. -/
inductive DecodeError where
  /-- There is no opcode byte. -/
  | noOpcode
  /-- The opcode needs an operand byte and the bytes end. -/
  | noOperand (i : Instr)
deriving DecidableEq, Repr

/-- R86, R88: the first line that stands in a list of bytes, and the rest of the bytes. A data byte cannot be told from an
opcode, so it comes back as the instruction its value selects. -/
def decodeLine (cfg : Config) : List Byte → Except DecodeError (AsmLine × List Byte)
  | [] => .error .noOpcode
  | b :: rest =>
    let i := decodeOpcode cfg b
    if i.hasOperand cfg then
      match rest with
      | [] => .error (.noOperand i)
      | o :: rest => .ok (.withOperand i o, rest)
    else .ok (.plain i, rest)

/-- The instruction of a line, where it has one. -/
def AsmLine.instr? : AsmLine → Option Instr
  | .plain i => some i
  | .withOperand i _ => some i
  | .data _ => none

/-- The bytes of an instruction whose bits are `w`, first byte least significant, zero bytes up to the longest instruction. -/
def tableBytes (nbits w : Nat) : List Byte :=
  let bits : BitVec nbits := BitVec.ofNat nbits w
  (List.range (max 2 ((nbits + 7) / 8))).map fun k => BitVec.ofNat 8 (bits.toNat >>> (8 * k))

/-- The instruction the decoder reads, under REF, from an instruction whose bits are `w` (opcode_table.json's numbering). -/
def decodeTableWord (nbits w : Nat) : Option Instr :=
  match decodeLine Config.ref (tableBytes nbits w) with
  | .ok (line, _) => line.instr?
  | .error _ => none

end Sys2Proof
end

