-- ==== Sys2Proof/Machine/Rom.lean ====
section
/-! DEFINITION. The microcode ROM as data (20_memory.md R50) and its construction from the parameters (40_microcode.md R100). -/

namespace Sys2Proof.Machine

/-- One entry of the microcode ROM: a word, or a word the instance leaves unchosen (R111). -/
inductive RomEntry where
  | word (w : Word)
  | unchosen
deriving DecidableEq, Repr

/-- A row of a sub-table: the entries of one opcode, step 0 first. -/
structure RomRow where
  opcode : Byte
  entries : List RomEntry
deriving DecidableEq, Repr

/-- R34, R50: the microcode ROM, four sub-tables. A row or a step that is not listed is the zero word (R104, R105). -/
structure Rom where
  z0c0 : List RomRow
  z0c1 : List RomRow
  z1c0 : List RomRow
  z1c1 : List RomRow
deriving DecidableEq, Repr

/-- R100: the entries of steps 2 onwards; an unchosen body leaves steps 2..6 unchosen (R111). -/
def bodyEntries : Option (List Word) → List RomEntry
  | some ws => ws.map RomEntry.word
  | none => List.replicate 5 RomEntry.unchosen

/-- R100 step 2: the base row of a defined instruction, the two fetch words and then its body. -/
def baseRow (cfg : Config) (i : Instr) : RomRow :=
  { opcode := cfg.opcodeOf i
    entries := [.word cfg.fetch0, .word cfg.fetch1] ++ bodyEntries (cfg.bodyOf i) }

/-- R100 step 2: the base sub-table, Z0C0. -/
def baseTable (cfg : Config) : List RomRow := cfg.definedInstrs.map (baseRow cfg)

/-- R100 step 3: the overridden entry. A step of a body that the instance leaves unchosen stays so (R306 X1). -/
def RomEntry.override (w : Word) : RomEntry → RomEntry
  | .word _ => .word w
  | .unchosen => .unchosen

/-- R100 step 3: `ROM[f][op][step] <- w` in one sub-table. -/
def patchTable (op : Byte) (step : Nat) (w : Word) (t : List RomRow) : List RomRow :=
  t.map fun r => if r.opcode = op then { r with entries := r.entries.modify step (RomEntry.override w) } else r

/-- R100 step 3, the C = 1 override: JMC's branch step becomes the taken word. -/
def patchCarry (cfg : Config) (t : List RomRow) : List RomRow :=
  patchTable cfg.opcodes.jmc cfg.branchSteps.jmc cfg.takenWord t

/-- R100 step 3, the Z = 1 overrides: JMZ's branch step becomes the taken word, JNZ's the word that is not taken. -/
def patchZero (cfg : Config) (t : List RomRow) : List RomRow :=
  patchTable cfg.opcodes.jnz cfg.branchSteps.jnz Config.notTakenWord
    (patchTable cfg.opcodes.jmz cfg.branchSteps.jmz cfg.takenWord t)

/-- R100: `BuildROM()`. -/
def buildRom (cfg : Config) : Rom :=
  { z0c0 := baseTable cfg
    z0c1 := patchCarry cfg (baseTable cfg)
    z1c0 := patchZero cfg (baseTable cfg)
    z1c1 := patchZero cfg (patchCarry cfg (baseTable cfg)) }

end Sys2Proof.Machine
end

