-- ==== Sys2Proof/Machine/State.lean ====
section
/-! DEFINITION. The state of the core (10_state.md), of the shift-register chains and clock it is wired to (R36), of the
informative attached CPU (92_eei_decisions.md D33), and of the turns the agents take; the faults and refusals of
60_exceptions.md; and the state at power-on (70_reset_and_hazards.md R340). -/

namespace Sys2Proof.Machine

/-- The calls of the bus protocol (R150), which the wrong pin direction stops (R305 M2). -/
inductive BusCall where
  /-- `Sample` (R152). -/
  | sample
  /-- `Drive` (R155). -/
  | drive
deriving DecidableEq, Repr

/-- The fields of the mode state machine (R21 to R25). -/
inductive ModeField where
  | mode
  | instructionStep
  | controlWord
  | instruction
  | flags
deriving DecidableEq, Repr

/-- What the `Producer` may not touch (R180, R301 E4, R305 M3). -/
inductive Touched where
  /-- A call of the bus protocol. -/
  | bus (call : BusCall)
  /-- A read of the microcode ROM (R101). -/
  | romRead
  /-- A field of the mode state machine. -/
  | modeField (f : ModeField)
deriving DecidableEq, Repr

/-- Model faults (R305). Each is safe: the model stops where the hardware would do something the spec does not give. -/
inductive Fault where
  /-- M1, raised by the flags decode in the falling-edge handler in `Execute`, and in `reset()` under `LookupStep0`, when the
  instance gives the flags byte no meaning. Safe. -/
  | flagsOutOfRange (b : Byte)
  /-- M2, raised by `Sample` and `Drive` when they start while DATA is an output. Safe. -/
  | dataPinWrongDirection (call : BusCall)
  /-- M3, raised by `Sample`, `Drive`, the ROM read and the statements on a field of the mode state machine when the `Producer`
  runs them; no rule lets it. Safe. -/
  | producerTouchedBus (operation : Touched)
deriving DecidableEq, Repr

/-- Refusals (R306), and the rejection of an instruction that has no meaning yet. Each is safe. -/
inductive Refusal where
  /-- An instruction without a meaning, rejected in exec's arm; no arm uses it. Safe. -/
  | notModelled (mnemonic : String)
  /-- X1, raised by the ROM lookup at a step whose word the instance leaves unchosen. Safe. -/
  | bodyNotChosen (opcode : Byte) (step : Nat)
  /-- X2, raised by any other host call before the set-up call of R261. Safe. -/
  | notInitialized (call : HostCall)
  /-- X3, raised by a second set-up call. Safe. -/
  | doubleInitialize
deriving DecidableEq, Repr

/-- The direction of the serial data line. -/
inductive Direction where
  | input
  | output
deriving DecidableEq, Repr

/-- R35: the interface lines the core owns. -/
structure Lines where
  dataDir : Direction
  dataOut : Bool
  sclk : Bool
  inLatch : Bool
  outLatch : Bool
deriving DecidableEq, Repr

/-- R95: the lines the core sets by level alone. -/
inductive Pin where
  | sclk
  | inLatch
  | outLatch
deriving DecidableEq, Repr

/-- R36: the attached shift-register chains. `inSerial` is the level at the input chain's serial input (R153); `sampling`
says that the input chain's bits stand on DATA for a `Sample`, which matters only under `CLK_SHARES_DATA` (log entry 11). -/
structure Chains where
  inShift : BitVec 16
  inSerial : Bool
  sampling : Bool
  outShift : Frame
  outVisible : Frame
deriving DecidableEq, Repr

/-- R32, R33, R36, R310: the clock line and the interrupt's state. `clkLevel` is the level of the observed line CLK_IN,
`attachedClk` that of the attached CPU's clock; they differ only under `CLK_SHARES_DATA` (R361). -/
structure Edges where
  fallingPending : Bool
  risingPending : Bool
  irqPending : Bool
  producerEnabled : Bool
  clkLevel : Bool
  attachedClk : Bool
deriving DecidableEq, Repr

/-- R27 to R31: the load buffer. -/
structure Loader where
  code : List Byte
  codeSize : Nat
  codeLoaded : Nat
  addressSetup : Bool
  codeToLoad : Byte
deriving DecidableEq, Repr

/-- R36: the bytes at the input chain's parallel inputs. -/
structure Presented where
  opcode : Byte
  flags : Byte
deriving DecidableEq, Repr

/-- D33: the registers of the informative attached CPU. -/
structure Cpu where
  pc : Byte
  mar : Byte
  ir : Byte
  a : Byte
  b : Byte
  z : Bool
  c : Bool
  /-- The clock has stopped after a HLT word. -/
  halted : Bool
deriving DecidableEq, Repr

/-- The attached RAM: the bytes something has written, addresses strictly rising. An unlisted byte holds a free value. -/
abbrev Memory := List Host.Cell

/-- D33: the informative attached CPU and its RAM, which take part only where `fitted` (log entry 17). -/
structure Board where
  fitted : Bool
  cpu : Cpu
  ram : Memory
deriving DecidableEq, Repr

/-- The statements of `Main`'s pseudocode, one atomic step each (R10, R61; log entry 7). -/
inductive Op where
  /-- `Sample(n)` is called (R152). -/
  | sample (n : SampleSize)
  /-- `Drive(cw, bus)` is called (R155). -/
  | drive (cw : Word) (bus : Byte)
  /-- `dir(DATA) <- d`. -/
  | dir (d : Direction)
  /-- `pin(p) <- l`. -/
  | pin (p : Pin) (l : Bool)
  /-- `pin(DATA) <- l`. -/
  | data (l : Bool)
  /-- `delay(t)`, a no-op that records the lower bound (R10). -/
  | delay (bound : Nat)
  /-- `b <- 0x00`. -/
  | clearAcc
  /-- `b <- ((b << 1) | read(DATA))[7:0]`. -/
  | readBit
  /-- `out[0] <- b`. -/
  | storeOut0
  /-- `out[1] <- b`. -/
  | storeOut1
  /-- `instruction <- out[0]`. -/
  | takeOpcode
  /-- `flags <- out[1]`. -/
  | takeFlags
  /-- R210: the wrap check of the step. -/
  | wrapStep
  /-- R210: decode the flags, look the word up, and go on to drive it: the micro-step of the sampled instruction. -/
  | dispatch
  /-- R210: `instructionStep <- instructionStep + 1`. -/
  | incStep
  /-- R200: `instructionStep <- 0`. -/
  | zeroStep
  /-- R200: what `reset()` stores in `controlWord`. -/
  | storeResetWord
  /-- R200 under `RESET_CLEARS_LOADER`: `codeLoaded <- 0; addressSetup <- false`. -/
  | clearLoader
  /-- R240: `codeToLoad <- code[codeLoaded]`. -/
  | stageByte
  /-- R240: `addressSetup <- true`. -/
  | finishPhaseA
  /-- R241: `addressSetup <- false; codeLoaded <- codeLoaded + 1`. -/
  | finishPhaseB
  /-- R184: read, clear and serve the falling flag. -/
  | pollFalling
  /-- R184: read, clear and serve the rising flag. -/
  | pollRising
  /-- `onFalling()`. -/
  | onFalling
  /-- `onRising()`. -/
  | onRising
  /-- R205: `mode <- t`. -/
  | commitMode (t : Mode)
  /-- The call returns to the host. -/
  | ret (r : Reply)
deriving DecidableEq, Repr

/-- The local variables of `Sample` (R152): `b`, `out[0]` and `out[1]`. -/
structure Locals where
  acc : Byte
  out0 : Byte
  out1 : Byte
deriving DecidableEq, Repr

/-- What Env and Host do next: a script, and how many free moves have been drawn where it has ended (log entry 4). -/
structure Sched where
  script : List Move
  draws : Nat
deriving DecidableEq, Repr

/-- The machine. INVENTORY.md lists each field with its rule and its reset value. -/
structure State where
  /-- The instance of the parameters (R7); no step changes it. -/
  cfg : Config
  mode : Mode
  instructionStep : Nat
  controlWord : Word
  instruction : Byte
  flags : Byte
  loader : Loader
  edges : Edges
  rom : Rom
  lines : Lines
  chains : Chains
  inParallel : Presented
  board : Board
  /-- What `Main` has still to run of its present call. -/
  todo : List Op
  locals : Locals
  /-- What the last host call returned. -/
  reply : Option Reply
  initialized : Bool
  faulted : Option Fault
  refused : Option Refusal
  sched : Sched
deriving DecidableEq, Repr

/-- R35: the lines at rest. -/
def Lines.rest (cfg : Config) : Lines :=
  { dataDir := .input, dataOut := false, sclk := false, inLatch := cfg.inLatchRest, outLatch := true }

/-- R38: an empty load buffer. -/
def Loader.empty : Loader :=
  { code := [], codeSize := 0, codeLoaded := 0, addressSetup := false, codeToLoad := 0#8 }

/-- R340: the machine at power-on, before the set-up call of R261, for an instance of the parameters. The environment's draws
of R340 are zeros (log entry 3). -/
def State.powerOn (cfg : Config) : State where
  cfg := cfg
  mode := .idle
  instructionStep := 0
  controlWord := 0#16
  instruction := 0#8
  flags := 0#8
  loader := Loader.empty
  edges :=
    { fallingPending := false, risingPending := false, irqPending := false, producerEnabled := false,
      clkLevel := false, attachedClk := false }
  rom := buildRom cfg
  lines := Lines.rest cfg
  chains := { inShift := 0#16, inSerial := false, sampling := false, outShift := 0#24, outVisible := 0#24 }
  inParallel := { opcode := 0#8, flags := 0#8 }
  board :=
    { fitted := false
      cpu := { pc := 0#8, mar := 0#8, ir := 0#8, a := 0#8, b := 0#8, z := false, c := false, halted := false }
      ram := [] }
  todo := []
  locals := { acc := 0#8, out0 := 0#8, out1 := 0#8 }
  reply := none
  initialized := false
  faulted := none
  refused := none
  sched := { script := [], draws := 0 }

/-- The machine at power-on under REF. -/
def State.reset : State := State.powerOn Config.ref

end Sys2Proof.Machine
end

