-- ==== Sys2Proof/Machine/Flags.lean ====
section
/-! DEFINITION. Every flag computation: how the sampled flags byte selects a FlagState (30_encoding.md R80, R81), which
sub-table a FlagState selects (R102), and the flags of the informative attached ALU (92_eei_decisions.md D33). The core itself
writes no flag (R26). -/

namespace Sys2Proof.Machine

/-- R50, R80: the index `2·Z + C`. -/
def flagIndex (f : FlagState) : Nat := 2 * f.z.toNat + f.c.toNat

/-- R81 under REF: C is bit 0, Z is bit 1, and the other bits must be 0. -/
def decodeFlagsRef (b : Byte) : Option FlagState :=
  if b.extractLsb' 2 6 = 0#6 then some { z := b.getLsbD 1, c := b.getLsbD 0 } else none

/-- R81: `FLAGS_DECODE` of the instance; `none` is the fault M1. -/
def decodeFlags (cfg : Config) (b : Byte) : Option FlagState :=
  match cfg.flagsDecode with
  | .ref => decodeFlagsRef b
  | .table t => (t[b.toNat]?).join

/-- R102: the sub-table a FlagState selects. -/
def Rom.subTable (rom : Rom) (f : FlagState) : List RomRow :=
  match f.z, f.c with
  | false, false => rom.z0c0
  | false, true => rom.z0c1
  | true, false => rom.z1c0
  | true, true => rom.z1c1

/-- D33: the nine bits of `A + B`, or of `A + ~B + 1` where SU is asserted. -/
def aluSum (a b : Byte) (sub : Bool) : BitVec 9 :=
  if sub then a.setWidth 9 + (~~~b).setWidth 9 + 1#9 else a.setWidth 9 + b.setWidth 9

/-- D33: the ALU's result byte. -/
def aluResult (a b : Byte) (sub : Bool) : Byte := (aluSum a b sub).setWidth 8

/-- D33: `Z <- (alu == 0)`. -/
def aluZero (a b : Byte) (sub : Bool) : Bool := aluResult a b sub == 0#8

/-- D33: `C <- carry`. -/
def aluCarry (a b : Byte) (sub : Bool) : Bool := (aluSum a b sub).msb

end Sys2Proof.Machine
end

