-- ==== Sys2Proof/Machine/Operands.lean ====
section
/-! DEFINITION. What the core and its environment read: the bytes presented to the input chain (20_memory.md R54, 10_state.md
R36), the level on the serial data line and on the observed clock line (30_encoding.md R95, 70_reset_and_hazards.md R361), and
what the output lines show (41_bus_protocol.md R157). -/

namespace Sys2Proof.Machine

/-- D33: the flags byte of the attached CPU, `2·Z + C`. -/
def Cpu.flagsByte (c : Cpu) : Byte := (BitVec.ofBool c.z ++ BitVec.ofBool c.c).setWidth 8

/-- R36: the bytes at the parallel inputs: what Env presents, or under D33 the instruction register and the flags. -/
def presented (s : State) : Presented :=
  if s.board.fitted then { opcode := s.board.cpu.ir, flags := s.board.cpu.flagsByte } else s.inParallel

/-- The level on DATA: what the core drives while it is an output; else the input chain's bit (R153). Where CLK_IN is the same
pin, an input DATA shows the attached clock unless a `Sample` is under way (R361; log entry 11). -/
def dataLine (s : State) : Bool :=
  match s.lines.dataDir with
  | .output => s.lines.dataOut
  | .input => if s.cfg.clkSharesData && !s.chains.sampling then s.edges.attachedClk else s.chains.inShift.msb

/-- The level CLK_IN has now: the attached clock's, or DATA's where the two are one pin (R361). -/
def clkLine (s : State) : Bool := if s.cfg.clkSharesData then dataLine s else s.edges.attachedClk

/-- R157: the bus value on the output lines. -/
def visibleBus (s : State) : Byte := s.chains.outVisible.extractLsb' 16 8

/-- R157: the wire levels of the 16 control lines. -/
def visibleWire (s : State) : Word := s.chains.outVisible.extractLsb' 0 16

/-- R78: the logical word on the control lines. -/
def visibleWord (s : State) : Word := s.cfg.wire (visibleWire s)

end Sys2Proof.Machine
end

