-- ==== Sys2Proof/Machine/Ops.lean ====
section
/-! DEFINITION. The named operations every rule is written over: writing one field of the state, the attached RAM's bytes, the
lines and the two chains (41_bus_protocol.md), `Sample` and `Drive`, and what stops the machine (60_exceptions.md R305, R306).
The core has no exception entry and no return (R300), so none stands here; its one interrupt is in Machine/Environment.lean. -/

namespace Sys2Proof.Machine

/-! ### Writing one field (`x <- v` of R10) -/

/-- `mode <- v`. -/
def State.setMode (s : State) (v : Mode) : State := { s with mode := v }

/-- `instructionStep <- v`. -/
def State.setStep (s : State) (v : Nat) : State := { s with instructionStep := v }

/-- `controlWord <- v`. -/
def State.setWord (s : State) (v : Word) : State := { s with controlWord := v }

/-- `instruction <- v`. -/
def State.setInstruction (s : State) (v : Byte) : State := { s with instruction := v }

/-- `flags <- v`. -/
def State.setFlags (s : State) (v : Byte) : State := { s with flags := v }

/-- `loader <- v`. -/
def State.setLoader (s : State) (v : Loader) : State := { s with loader := v }

/-- `edges <- v`. -/
def State.setEdges (s : State) (v : Edges) : State := { s with edges := v }

/-- `rom <- v`. -/
def State.setRom (s : State) (v : Rom) : State := { s with rom := v }

/-- `lines <- v`. -/
def State.setLines (s : State) (v : Lines) : State := { s with lines := v }

/-- `chains <- v`. -/
def State.setChains (s : State) (v : Chains) : State := { s with chains := v }

/-- `inParallel <- v`. -/
def State.setInParallel (s : State) (v : Presented) : State := { s with inParallel := v }

/-- `board <- v`. -/
def State.setBoard (s : State) (v : Board) : State := { s with board := v }

/-- `todo <- v`. -/
def State.setTodo (s : State) (v : List Op) : State := { s with todo := v }

/-- `locals <- v`. -/
def State.setLocals (s : State) (v : Locals) : State := { s with locals := v }

/-- `reply <- v`. -/
def State.setReply (s : State) (v : Option Reply) : State := { s with reply := v }

/-- `initialized <- v`. -/
def State.setInitialized (s : State) (v : Bool) : State := { s with initialized := v }

/-- `faulted <- v`. -/
def State.setFaulted (s : State) (v : Option Fault) : State := { s with faulted := v }

/-- `refused <- v`. -/
def State.setRefused (s : State) (v : Option Refusal) : State := { s with refused := v }

/-- `sched <- v`. -/
def State.setSched (s : State) (v : Sched) : State := { s with sched := v }

/-- `Main` runs `ops` before the rest of its call. -/
def State.push (s : State) (ops : List Op) : State := s.setTodo (ops ++ s.todo)

/-! ### The attached RAM (D33), a list of written bytes in one canonical form -/

/-- The byte written last at an address, if any was. -/
def Memory.read : Memory → Nat → Option Byte
  | [], _ => none
  | (b, v) :: m, a => if a = b then some v else Memory.read m a

/-- Write a byte, keeping the addresses strictly rising. -/
def Memory.write : Memory → Nat → Byte → Memory
  | [], a, v => [(a, v)]
  | (b, w) :: m, a, v =>
    if a < b then (a, v) :: (b, w) :: m
    else if a = b then (a, v) :: m
    else (b, w) :: Memory.write m a v

/-- Addresses rise strictly from `lo` and stay below 256. -/
def Memory.wfFrom (lo : Nat) : Memory → Bool
  | [] => true
  | (a, _) :: m => decide (lo ≤ a) && decide (a < 256) && Memory.wfFrom (a + 1) m

/-- The canonical form: addresses strictly rising, all of the 256 that D33 gives. An unlisted address reads as no written byte,
so no entry can equal what an unlisted address reads as. -/
def Memory.wf (m : Memory) : Bool := Memory.wfFrom 0 m

/-- R10 `MemRead`: a byte of the attached RAM; one that nothing has written is a free value (log entry 18). -/
def memRead (m : Memory) (a : Byte) : Byte :=
  match Memory.read m a.toNat with
  | some v => v
  | none => Config.freeRam a.toNat

/-- R10 `MemWrite`. -/
def memWrite (m : Memory) (a v : Byte) : Memory := Memory.write m a.toNat v

/-! ### The observed clock line -/

/-- R181: when the level of CLK_IN is no longer the one last seen, that is a transition; it requests the interrupt once the
`Producer` is enabled (R188), and adds nothing to a pending request (R33). -/
def observeClock (s : State) : State :=
  if clkLine s = s.edges.clkLevel then s
  else s.setEdges { s.edges with
    clkLevel := clkLine s
    irqPending := s.edges.irqPending || s.edges.producerEnabled }

/-- R361: a line operation moves CLK_IN only where CLK_IN is the DATA pin. -/
def lineChanged (s : State) : State := if s.cfg.clkSharesData then observeClock s else s

/-! ### Line operations (R10, R151, R152, R155) -/

/-- R151: a rising edge of SCLK shifts both chains by one bit. The output chain takes in the level on DATA, the input chain
moves its next bit up and takes in its serial input. -/
def shiftChains (s : State) : Chains :=
  { s.chains with
    inShift := s.chains.inShift.shiftConcat s.chains.inSerial
    outShift := s.chains.outShift.shiftConcat (dataLine s) }

/-- R153: the input latch captures the parallel inputs; the first bit then stands on DATA. -/
def captureInputs (s : State) : Chains :=
  { s.chains with inShift := (presented s).opcode ++ (presented s).flags, sampling := true }

/-- R156: the output latch copies the serial bits to the parallel outputs. -/
def latchOutputs (s : State) : Chains := { s.chains with outVisible := s.chains.outShift }

/-- `dir(DATA) <- d`. Input is the direction every call restores (R159). -/
def setDir (d : Direction) (s : State) : State :=
  lineChanged ((s.setLines { s.lines with dataDir := d }).setChains
    { s.chains with sampling := s.chains.sampling && decide (d = .output) })

/-- `pin(DATA) <- l`. -/
def setData (l : Bool) (s : State) : State := lineChanged (s.setLines { s.lines with dataOut := l })

/-- `pin(SCLK) <- l`. -/
def setSclk (l : Bool) (s : State) : State :=
  lineChanged ((s.setLines { s.lines with sclk := l }).setChains
    (if l && !s.lines.sclk then shiftChains s else s.chains))

/-- `pin(IN_LATCH) <- l`; the change to the active level is the latch event (log entry 9). -/
def setInLatch (l : Bool) (s : State) : State :=
  lineChanged ((s.setLines { s.lines with inLatch := l }).setChains
    (if l == s.cfg.inLatchActive && l != s.lines.inLatch then captureInputs s else s.chains))

/-- `pin(OUT_LATCH) <- l`; the change from low to high is the latch event (R156). -/
def setOutLatch (l : Bool) (s : State) : State :=
  lineChanged ((s.setLines { s.lines with outLatch := l }).setChains
    (if l && !s.lines.outLatch then latchOutputs s else s.chains))

/-- `pin(p) <- l`. -/
def setPin (p : Pin) (l : Bool) (s : State) : State :=
  match p with
  | .sclk => setSclk l s
  | .inLatch => setInLatch l s
  | .outLatch => setOutLatch l s

/-! ### Sample and Drive as statements -/

/-- R151: `ShiftPulse()`. -/
def pulseOps (cfg : Config) : List Op := [.pin .sclk true, .delay cfg.tPulse, .pin .sclk false, .delay cfg.tLow]

/-- R152: one bit of a sample; D15 says whether it is read before its pulse. -/
def readBitOps (cfg : Config) : List Op :=
  if cfg.readBeforePulse then .readBit :: pulseOps cfg else pulseOps cfg ++ [.readBit]

/-- R152: one byte of a sample, eight bits, the first read becoming bit 7. -/
def readByteOps (cfg : Config) (store : Op) : List Op :=
  .clearAcc :: (List.replicate 8 (readBitOps cfg)).flatten ++ [store]

/-- R152: the statements of `Sample(n)` after its check. -/
def sampleOps (cfg : Config) (n : SampleSize) : List Op :=
  [.pin .inLatch cfg.inLatchActive, .delay cfg.tPulse, .pin .inLatch cfg.inLatchRest]
    ++ readByteOps cfg .storeOut0
    ++ (match n with
        | .one => []
        | .two => readByteOps cfg .storeOut1)
    ++ [.dir .input]

/-- The bits of a frame in the order they are sent, bit 23 first (R90). -/
def frameBits (f : Frame) : List Bool := (List.range 24).map f.getMsbD

/-- R155: the statements that send one bit. -/
def sendBitOps (cfg : Config) (b : Bool) : List Op := .data b :: pulseOps cfg

/-- R155: the statements of `Drive(cw, bus)` after its check. -/
def driveOps (cfg : Config) (cw : Word) (bus : Byte) : List Op :=
  [.dir .output, .pin .outLatch false]
    ++ (frameBits (cfg.frame cw bus)).flatMap (sendBitOps cfg)
    ++ [.pin .outLatch true, .dir .input]

/-- R150, R305 M2 and M3: only `Main` may call the bus protocol, and only while DATA is an input. -/
def startBusCall (a : Agent) (call : BusCall) (ops : List Op) (s : State) : Host.Outcome State Fault Refusal :=
  if a = .producer then .fault (.producerTouchedBus (.bus call))
  else match s.lines.dataDir with
    | .output => .fault (.dataPinWrongDirection call)
    | .input => .next (s.push ops)

/-- R180, R305 M3: a statement on a field of the mode state machine, which the `Producer` may not run. -/
def touchModeMachine (a : Agent) (f : ModeField) (t : State) : Host.Outcome State Fault Refusal :=
  if a = .producer then .fault (.producerTouchedBus (.modeField f)) else .next t

/-- R152: `Sample(n)`. -/
def startSample (a : Agent) (n : SampleSize) (s : State) : Host.Outcome State Fault Refusal :=
  startBusCall a .sample (sampleOps s.cfg n) s

/-- R155: `Drive(cw, bus)`. -/
def startDrive (a : Agent) (cw : Word) (bus : Byte) (s : State) : Host.Outcome State Fault Refusal :=
  startBusCall a .drive (driveOps s.cfg cw bus) s

/-- R152: `b <- ((b << 1) | read(DATA))[7:0]`. -/
def readBit (s : State) : State := s.setLocals { s.locals with acc := s.locals.acc.shiftConcat (dataLine s) }

/-! ### What stops the machine -/

/-- R305, R306: a fault or a refusal of a step leaves the state as it stood at the statement that raised it, marked for good. -/
def recordStop (s : State) : Host.Outcome State Fault Refusal → Host.Outcome State Fault Refusal
  | .next t => .next t
  | .fault f => .next (s.setFaulted (some f))
  | .refused r => .next (s.setRefused (some r))

end Sys2Proof.Machine
end

