-- ==== Sys2Proof/Machine/Microcode.lean ====
section
/-! DEFINITION. The lookup in the microcode ROM (40_microcode.md R101 to R105, R111), and the micro-step that every
instruction's meaning takes (43_mode_fsm.md R210). -/

namespace Sys2Proof.Machine

/-- The entry of a row at a step: zero beyond the instruction's length (R105). -/
def RomRow.entry (r : RomRow) (step : Nat) : RomEntry := r.entries.getD step (.word 0#16)

/-- R101: `ROM[f][op][step]`; zero for an opcode without a row (R104) and for a step beyond 6 (R51). -/
def Rom.lookup (rom : Rom) (f : FlagState) (op : Byte) (step : Nat) : RomEntry :=
  if step ≤ maxStep then
    match (rom.subTable f).find? (fun r => r.opcode == op) with
    | some r => r.entry step
    | none => .word 0#16
  else .word 0#16

/-- R101 as a read by an agent: the `Producer` may not (R305 M3), and an unchosen word is refused (R306 X1). -/
def readRom (a : Agent) (rom : Rom) (f : FlagState) (op : Byte) (step : Nat) : Host.Outcome Word Fault Refusal :=
  if a = .producer then .fault (.producerTouchedBus .romRead)
  else match rom.lookup f op step with
    | .word w => .next w
    | .unchosen => .refused (.bodyNotChosen op step)

/-- R210: decode the sampled flags and look up the word of opcode `op` at the step `step`. The decode faults first (R307). -/
def lookupWord (op : Byte) (step : Nat) (s : State) : Host.Outcome Word Fault Refusal :=
  match decodeFlags s.cfg s.flags with
  | none => .fault (.flagsOutOfRange s.flags)
  | some f => readRom .main s.rom f op step

/-- R210: the micro-step of the instruction whose opcode is `op`, from the decode of the flags on: the word looked up becomes
`controlWord`, is driven with bus value 0, and the step counter then advances. -/
def microStep (op : Byte) (s : State) : Host.Outcome State Fault Refusal :=
  match lookupWord op s.instructionStep s with
  | .next w => touchModeMachine .main .controlWord ((s.setWord w).push [.drive w 0#8, .incStep])
  | .fault f => .fault f
  | .refused r => .refused r

end Sys2Proof.Machine
end

