-- ==== Sys2Proof/Machine/Arithmetic.lean ====
section
/-! DEFINITION. The meanings of the arithmetic and the register transfers (40_microcode.md R131 to R134): one micro-step of
each, by its own row of the ROM. -/

namespace Sys2Proof.Machine

/-- R131: ADD. Row CO|MI, RO|II|CE, `BODY(ADD)` (REF: EO|AI|FI), zeros. The core writes no flag; the word asserts FI. -/
def execAdd (s : State) : Host.Outcome State Fault Refusal := microStep (s.cfg.opcodeOf .add) s

/-- R132: SUB. Row CO|MI, RO|II|CE, `BODY(SUB)` (REF: EO|AI|SU|FI), zeros. The core writes no flag; the word asserts FI. -/
def execSub (s : State) : Host.Outcome State Fault Refusal := microStep (s.cfg.opcodeOf .sub) s

/-- R133: TAB. Row CO|MI, RO|II|CE, `BODY(TAB)` (REF: AO|BI), zeros; no flag is written. -/
def execTab (s : State) : Host.Outcome State Fault Refusal := microStep (s.cfg.opcodeOf .tab) s

/-- R134: TBA. Row CO|MI, RO|II|CE, `BODY(TBA)`, zeros; refused at steps 2..6 where the body is unchosen (REF). -/
def execTba (s : State) : Host.Outcome State Fault Refusal := microStep (s.cfg.opcodeOf .tba) s

end Sys2Proof.Machine
end

