-- ==== Sys2Proof/Machine/ControlFlow.lean ====
section
/-! DEFINITION. The meanings of no operation, halt and the jumps (40_microcode.md R120 to R125): one micro-step of each, by
its own row of the ROM. -/

namespace Sys2Proof.Machine

/-- R120: NOP. Row CO|MI, RO|II|CE, then zeros under every FlagState; no flag is written. -/
def execNop (s : State) : Host.Outcome State Fault Refusal := microStep (s.cfg.opcodeOf .nop) s

/-- R121: HLT. Row CO|MI, RO|II|CE, `BODY(HLT)` (REF: the halt line), zeros; no flag is written. -/
def execHlt (s : State) : Host.Outcome State Fault Refusal := microStep (s.cfg.opcodeOf .hlt) s

/-- R122: JMP. Row CO|MI, RO|II|CE, `BODY(JMP)` (REF: CO|MI|CE, RO|J), zeros; not patched, so flag-independent. -/
def execJmp (s : State) : Host.Outcome State Fault Refusal := microStep (s.cfg.opcodeOf .jmp) s

/-- R123: JMC. At its branch step the taken word where the sampled C is 1, else the word that is not taken; Z has no effect. -/
def execJmc (s : State) : Host.Outcome State Fault Refusal := microStep (s.cfg.opcodeOf .jmc) s

/-- R124: JMZ. At its branch step the taken word where the sampled Z is 1, else the word that is not taken; C has no effect. -/
def execJmz (s : State) : Host.Outcome State Fault Refusal := microStep (s.cfg.opcodeOf .jmz) s

/-- R125: JNZ. At its branch step the taken word where the sampled Z is 0, else the word that is not taken; C has no effect. -/
def execJnz (s : State) : Host.Outcome State Fault Refusal := microStep (s.cfg.opcodeOf .jnz) s

end Sys2Proof.Machine
end

