-- ==== Sys2Proof/Machine/LoadStore.lean ====
section
/-! DEFINITION. The meanings of the loads and stores (40_microcode.md R126 to R130): one micro-step of each, by its own row
of the ROM. -/

namespace Sys2Proof.Machine

/-- R126: LDA. Row CO|MI, RO|II|CE, `BODY(LDA)` (REF: CO|MI|CE, RO|MI, RO|AI), zeros; no flag is written. -/
def execLda (s : State) : Host.Outcome State Fault Refusal := microStep (s.cfg.opcodeOf .lda) s

/-- R127: LDB. Row CO|MI, RO|II|CE, `BODY(LDB)` (REF: CO|MI|CE, RO|MI, RO|BI), zeros; no flag is written. -/
def execLdb (s : State) : Host.Outcome State Fault Refusal := microStep (s.cfg.opcodeOf .ldb) s

/-- R128: STA. Row CO|MI, RO|II|CE, `BODY(STA)` (REF: CO|MI|CE, RO|MI, AO|RI), zeros; no flag is written. -/
def execSta (s : State) : Host.Outcome State Fault Refusal := microStep (s.cfg.opcodeOf .sta) s

/-- R129: STB. Row CO|MI, RO|II|CE, `BODY(STB)`, zeros; where the instance leaves the body unchosen (REF), steps 2..6 are
refused `BodyNotChosen`. -/
def execStb (s : State) : Host.Outcome State Fault Refusal := microStep (s.cfg.opcodeOf .stb) s

/-- R130: STE. Row CO|MI, RO|II|CE, `BODY(STE)`, zeros; refused at steps 2..6 where the body is unchosen (REF). -/
def execSte (s : State) : Host.Outcome State Fault Refusal := microStep (s.cfg.opcodeOf .ste) s

end Sys2Proof.Machine
end

