-- ==== Sys2Proof/Machine/Unnamed.lean ====
section
/-! DEFINITION. The meanings of the opcodes outside the 15 names (40_microcode.md R135, R136): one micro-step of each, by the
row of its opcode byte. -/

namespace Sys2Proof.Machine

/-- R135: an undefined opcode. Its rows are zero at every step and under every FlagState, so the zero word is driven; this is
defined behaviour, not a fault. -/
def execUndef (op : Byte) (s : State) : Host.Outcome State Fault Refusal := microStep (s.cfg.opcodeOf (.undef op)) s

/-- R136: the extra instruction, whose opcode is `EXTRA_OPCODE`. Row CO|MI, RO|II|CE, `BODY(EXTRA)`, zeros; refused at steps
2..6 where the body is unchosen. -/
def execExtra (op : Byte) (s : State) : Host.Outcome State Fault Refusal := microStep (s.cfg.opcodeOf (.extra op)) s

end Sys2Proof.Machine
end

