-- ==== Sys2Proof/Machine/Dispatch.lean ====
section
/-! DEFINITION. The one dispatch: each instruction's arm calls its meaning. -/

namespace Sys2Proof.Machine

def exec (i : Instr) (s : State) : Host.Outcome State Fault Refusal :=
  match i with
  | .nop => Sys2Proof.Machine.execNop s
  | .hlt => Sys2Proof.Machine.execHlt s
  | .jmp => Sys2Proof.Machine.execJmp s
  | .jmc => Sys2Proof.Machine.execJmc s
  | .jmz => Sys2Proof.Machine.execJmz s
  | .jnz => Sys2Proof.Machine.execJnz s
  | .lda => Sys2Proof.Machine.execLda s
  | .ldb => Sys2Proof.Machine.execLdb s
  | .sta => Sys2Proof.Machine.execSta s
  | .stb => Sys2Proof.Machine.execStb s
  | .ste => Sys2Proof.Machine.execSte s
  | .add => Sys2Proof.Machine.execAdd s
  | .sub => Sys2Proof.Machine.execSub s
  | .tab => Sys2Proof.Machine.execTab s
  | .tba => Sys2Proof.Machine.execTba s
  | .undef op => Sys2Proof.Machine.execUndef op s
  | .extra op => Sys2Proof.Machine.execExtra op s

end Sys2Proof.Machine
end

