-- ==== Sys2Proof/Machine/Board.lean ====
section
/-! DEFINITION. The informative attached CPU of 92_eei_decisions.md D33: registers, ALU and RAM that act once per rising edge
of the attached clock on the word the output lines carry. No rule of the core depends on it (log entry 17). -/

namespace Sys2Proof.Machine

/-- A bus source that drives its byte only while its line is asserted. -/
def gate (on : Bool) (v : Byte) : Byte := if on then v else 0#8

/-- D33: the bus, the OR of the sources the word enables; 0x00 with none. -/
def cpuBus (cfg : Config) (w : Word) (external : Byte) (b : Board) : Byte :=
  gate (cfg.lineBits.asserts w .co) b.cpu.pc
    ||| gate (cfg.lineBits.asserts w .ro) (memRead b.ram b.cpu.mar)
    ||| gate (cfg.lineBits.asserts w .ao) b.cpu.a
    ||| gate (cfg.lineBits.asserts w .eo) (aluResult b.cpu.a b.cpu.b (cfg.lineBits.asserts w .su))
    ||| gate (cfg.lineBits.asserts w .epo) external

/-- D33: every register loads what stood before the edge. -/
def cpuTick (cfg : Config) (w : Word) (external : Byte) (b : Board) : Cpu :=
  let on := cfg.lineBits.asserts w
  let bus := cpuBus cfg w external b
  let c := b.cpu
  { pc := if on .j then bus else if on .ce then c.pc + 1#8 else c.pc
    mar := if on .mi then bus else c.mar
    ir := if on .ii then bus else c.ir
    a := if on .ai then bus else c.a
    b := if on .bi then bus else c.b
    z := if on .fi then aluZero c.a c.b (on .su) else c.z
    c := if on .fi then aluCarry c.a c.b (on .su) else c.c
    halted := c.halted || on .hlt }

/-- D33: the RAM takes the bus at the address that stood in MAR before the edge. -/
def ramTick (cfg : Config) (w : Word) (external : Byte) (b : Board) : Memory :=
  if cfg.lineBits.asserts w .ri then memWrite b.ram b.cpu.mar (cpuBus cfg w external b) else b.ram

/-- D33: the board at a rising edge of the attached clock, on the word and the bus value the output lines carry. -/
def boardTick (cfg : Config) (w : Word) (external : Byte) (b : Board) : Board :=
  { b with cpu := cpuTick cfg w external b, ram := ramTick cfg w external b }

end Sys2Proof.Machine
end

