-- ==== Sys2Proof/Machine/Environment.lean ====
section
/-! DEFINITION. The steps of the agents Env and Producer: the attached clock and the parallel inputs (42_edge_detector.md R181,
10_state.md R36), and the interrupt, which is the whole of the core's interrupt entry and return (R180, 60_exceptions.md R310 to
R316). -/

namespace Sys2Proof.Machine

/-- D33: the attached CPU, where it is fitted, acts at a rising edge of its clock. -/
def clockedBoard (level : Bool) (s : State) : Board :=
  if s.board.fitted && level then boardTick s.cfg (visibleWord s) (visibleBus s) s.board else s.board

/-- R181: Env sets the attached clock's level. Setting the level it has is no transition; a halted attached CPU's clock makes
none (D33). -/
def envClock (level : Bool) (s : State) : State :=
  if level = s.edges.attachedClk then s
  else if s.board.fitted && s.board.cpu.halted then s
  else observeClock ((s.setBoard (clockedBoard level s)).setEdges { s.edges with attachedClk := level })

/-- R36: Env presents an opcode and a flags byte. -/
def envPresent (opcode flags : Byte) (s : State) : State := s.setInParallel { opcode := opcode, flags := flags }

/-- R153: Env sets the level at the input chain's serial input. -/
def envSerial (level : Bool) (s : State) : State := s.setChains { s.chains with inSerial := level }

/-- R180: the `Producer`, one atomic step. It reads the level CLK_IN has now, whatever transition requested it (R183). -/
def producerStep (s : State) : State :=
  s.setEdges { s.edges with
    irqPending := false
    fallingPending := s.edges.fallingPending || !s.edges.clkLevel
    risingPending := s.edges.risingPending || s.edges.clkLevel }

end Sys2Proof.Machine
end

