-- ==== Sys2Proof/Machine/Handlers.lean ====
section
/-! DEFINITION. The handlers `Main` runs: `reset()` and the edge handlers (43_mode_fsm.md R200 to R216), the code loader's step
(44_code_loader.md R240 to R245) and the poll's read-and-clears (42_edge_detector.md R184). -/

namespace Sys2Proof.Machine

/-! ### reset() -/

/-- R200: the statements of `reset()`. -/
def resetOps (cfg : Config) : List Op :=
  [.sample cfg.resetSample, .takeOpcode]
    ++ (match cfg.resetSample with
        | .one => []
        | .two => [.takeFlags])
    ++ [.zeroStep, .storeResetWord]
    ++ (if cfg.resetClearsLoader then [.clearLoader] else [])
    ++ [.drive 0#16 0#8]

/-- R200: what `reset()` stores in `controlWord` (C3). Under `LookupStep0` the flags are decoded, which may fault. -/
def storeResetWord (s : State) : Host.Outcome State Fault Refusal :=
  match s.cfg.resetStore with
  | .zero => touchModeMachine .main .controlWord (s.setWord 0#16)
  | .lookupStep0 =>
    match lookupWord s.instruction 0 s with
    | .next w => touchModeMachine .main .controlWord (s.setWord w)
    | .fault f => .fault f
    | .refused r => .refused r

/-- R200 under `RESET_CLEARS_LOADER` (C4). -/
def clearLoader (s : State) : State := s.setLoader { s.loader with codeLoaded := 0, addressSetup := false }

/-! ### The falling edge -/

/-- R210: the statements of the falling-edge handler in `Execute`, up to the micro-step of the sampled instruction. -/
def executeOps : List Op := [.wrapStep, .sample .two, .takeOpcode, .takeFlags, .dispatch]

/-- R240: phase A, the address. -/
def phaseAOps (s : State) : List Op :=
  [.stageByte, .drive s.cfg.loadAddr (BitVec.ofNat 8 s.loader.codeLoaded), .finishPhaseA]

/-- R241: phase B, the byte. -/
def phaseBOps (s : State) : List Op := [.drive s.cfg.loadData s.loader.codeToLoad, .finishPhaseB]

/-- R243: the loader's step; R244 where nothing is left to program. -/
def loaderOps (s : State) : List Op :=
  if s.loader.codeSize ≤ s.loader.codeLoaded then [.drive 0#16 0#8]
  else if s.loader.addressSetup then phaseBOps s
  else phaseAOps s

/-- R210 to R212: `onFalling()`. -/
def onFalling (s : State) : State :=
  match s.mode with
  | .idle => s
  | .execute => s.push executeOps
  | .loadCode => s.push (loaderOps s)

/-- R210: the wrap check. -/
def wrapStep (s : State) : State := if maxStep < s.instructionStep then s.setStep 0 else s

/-- R240: stage the byte of phase 2. -/
def stageByte (s : State) : State :=
  s.setLoader { s.loader with codeToLoad := s.loader.code.getD s.loader.codeLoaded 0#8 }

/-- R240: the end of phase A. -/
def finishPhaseA (s : State) : State := s.setLoader { s.loader with addressSetup := true }

/-- R241: the end of phase B. -/
def finishPhaseB (s : State) : State :=
  s.setLoader { s.loader with addressSetup := false, codeLoaded := s.loader.codeLoaded + 1 }

/-! ### The rising edge -/

/-- R215, R216: `onRising()`. In `Execute` the stored word is driven again with RDY; nothing is stored. -/
def onRising (s : State) : State :=
  match s.mode with
  | .idle => s
  | .execute => s.push [.drive (s.controlWord ||| s.cfg.ready) 0#8]
  | .loadCode => s

/-! ### The poll -/

/-- R184: read and clear the falling flag in one step, and serve it before the rising flag is read. -/
def pollFalling (s : State) : State :=
  let cleared := s.setEdges { s.edges with fallingPending := false }
  if s.edges.fallingPending then cleared.push [.onFalling] else cleared

/-- R184: read and clear the rising flag in one step, and serve it. -/
def pollRising (s : State) : State :=
  let cleared := s.setEdges { s.edges with risingPending := false }
  if s.edges.risingPending then cleared.push [.onRising] else cleared

end Sys2Proof.Machine
end

