-- ==== Sys2Proof/Machine/HostInterface.lean ====
section
/-! DEFINITION. The host's calls (45_host_interface.md R260 to R270, 43_mode_fsm.md R205, 44_code_loader.md R248), each
started on `Main` while no other call runs (R262), and the error codes of 60_exceptions.md R301. -/

namespace Sys2Proof.Machine

/-- R261: the one-time set-up: the ROM, the lines (R35: DATA's output level is 0), the fields, and last the interrupt. It
drives nothing, and while it runs no other agent's step can tell its statements apart, so it is one step (log entry 6). -/
def startUp (s : State) : State :=
  let s := s.setRom (buildRom s.cfg)
  let s := setOutLatch true (setInLatch s.cfg.inLatchRest (setSclk false (setData false (setDir .input s))))
  let s := (((s.setMode .idle).setStep 0).setWord 0#16).setInstruction 0#8
  let s := (s.setFlags 0#8).setLoader Loader.empty
  let s := s.setEdges { s.edges with
    fallingPending := false, risingPending := false, irqPending := false, producerEnabled := true }
  (s.setInitialized true).setReply (some .done)

/-- R263: `pollOnce()`. -/
def pollOnce (s : State) : State := (s.setReply none).push [.pollFalling, .pollRising, .ret .done]

/-- R264: `requestReset()`. -/
def requestReset (s : State) : State := (s.setReply none).push (resetOps s.cfg ++ [.ret .done])

/-- R205: the two guarded transitions. -/
def rejectsMode (mode target : Mode) : Bool :=
  match mode, target with
  | .loadCode, .execute => true
  | .execute, .loadCode => true
  | .idle, _ => false
  | .execute, .idle => false
  | .execute, .execute => false
  | .loadCode, .idle => false
  | .loadCode, .loadCode => false

/-- R205: `requestMode(t)`. A rejection changes nothing but what the host gets back (R208). -/
def requestMode (t : Mode) (s : State) : State :=
  if rejectsMode s.mode t then s.setReply (some (.accepted false))
  else (s.setReply none).push (resetOps s.cfg ++ [.commitMode t, .ret (.accepted true)])

/-- R248: the load buffer an accepted `requestLoadCode` leaves, cut at 255 bytes. -/
def loadBuffer (bytes : List Byte) (l : Loader) : Loader :=
  { l with
    code := bytes.take maxLoad
    codeSize := min bytes.length maxLoad
    codeLoaded := 0
    addressSetup := false }

/-- R248: `requestLoadCode(bytes)`, rejected outside `LoadCode`. -/
def requestLoadCode (bytes : List Byte) (s : State) : State :=
  match s.mode with
  | .loadCode => (s.setLoader (loadBuffer bytes s.loader)).setReply (some (.accepted true))
  | .idle => s.setReply (some (.accepted false))
  | .execute => s.setReply (some (.accepted false))

/-- R270: the record of the status read. -/
def statusOf (s : State) : Status :=
  { mode := s.mode
    instruction := s.instruction
    flags := s.flags
    step := s.instructionStep
    controlWord := s.controlWord
    codeLoaded := s.loader.codeLoaded
    codeSize := s.loader.codeSize }

/-- R270: the status read. -/
def statusRead (s : State) : State := s.setReply (some (.status (statusOf s)))

/-- R260: a call other than the set-up is refused before it. -/
def whenInitialized (c : HostCall) (s : State) (t : State) : Host.Outcome State Fault Refusal :=
  if s.initialized then .next t else .refused (.notInitialized c)

/-- R275: a host call starts; `Main` is free. -/
def hostCall (c : HostCall) (s : State) : Host.Outcome State Fault Refusal :=
  match c with
  | .startUp => if s.initialized then .refused .doubleInitialize else .next (startUp s)
  | .pollOnce => whenInitialized c s (pollOnce s)
  | .requestReset => whenInitialized c s (requestReset s)
  | .requestMode t => whenInitialized c s (requestMode t s)
  | .requestLoadCode bytes => whenInitialized c s (requestLoadCode bytes s)
  | .statusRead => whenInitialized c s (statusRead s)

/-- R301: the error kinds a host call can show. E4 cannot be raised by a call; it is the fault M3. -/
inductive ErrorCode where
  | rejectedTransition
  | rejectedLoad
  | truncation
deriving DecidableEq, Repr

/-- R301: E1, E2 and E3 of a call that starts in `s`, for traces; the host sees only the booleans. DEDUCED (log entry 33): a
call before `initialize()` carries none. R301 does not say whether it does; R260 refuses it, so that R205 or R248, which raise
them, never run and nothing is returned. -/
def errorCode (c : HostCall) (s : State) : Option ErrorCode :=
  match c with
  | .requestMode t => if s.initialized && rejectsMode s.mode t then some .rejectedTransition else none
  | .requestLoadCode bytes =>
    if !s.initialized then none
    else if s.mode ≠ .loadCode then some .rejectedLoad
    else if maxLoad < bytes.length then some .truncation else none
  | .startUp => none
  | .pollOnce => none
  | .requestReset => none
  | .statusRead => none

end Sys2Proof.Machine
end

