-- ==== Sys2Proof/Machine/Main.lean ====
section
/-! DEFINITION. One atomic step of `Main` (00_scope.md R10, 20_memory.md R61), the priority of the `Producer` over it
(42_edge_detector.md R182), and whose turn it is (log entry 4). -/

namespace Sys2Proof.Machine

/-- R82: the instruction the sampled opcode byte selects. -/
def fetchInstr (s : State) : Instr := decodeOpcode s.cfg s.instruction

/-- One statement of `Main`; `s.todo` is already what follows it. -/
def perform (op : Op) (s : State) : Host.Outcome State Fault Refusal :=
  match op with
  | .sample n => startSample .main n s
  | .drive cw bus => startDrive .main cw bus s
  | .dir d => .next (setDir d s)
  | .pin p l => .next (setPin p l s)
  | .data l => .next (setData l s)
  | .delay _ => .next s
  | .clearAcc => .next (s.setLocals { s.locals with acc := 0#8 })
  | .readBit => .next (readBit s)
  | .storeOut0 => .next (s.setLocals { s.locals with out0 := s.locals.acc })
  | .storeOut1 => .next (s.setLocals { s.locals with out1 := s.locals.acc })
  | .takeOpcode => touchModeMachine .main .instruction (s.setInstruction s.locals.out0)
  | .takeFlags => touchModeMachine .main .flags (s.setFlags s.locals.out1)
  | .wrapStep => touchModeMachine .main .instructionStep (wrapStep s)
  | .dispatch => exec (fetchInstr s) s
  | .incStep => touchModeMachine .main .instructionStep (s.setStep (s.instructionStep + 1))
  | .zeroStep => touchModeMachine .main .instructionStep (s.setStep 0)
  | .storeResetWord => storeResetWord s
  | .clearLoader => .next (clearLoader s)
  | .stageByte => .next (stageByte s)
  | .finishPhaseA => .next (finishPhaseA s)
  | .finishPhaseB => .next (finishPhaseB s)
  | .pollFalling => .next (pollFalling s)
  | .pollRising => .next (pollRising s)
  | .onFalling => touchModeMachine .main .mode (onFalling s)
  | .onRising => touchModeMachine .main .mode (onRising s)
  | .commitMode t => touchModeMachine .main .mode (s.setMode t)
  | .ret r => .next (s.setReply (some r))

/-- `Main`'s next atomic step; with no call running it does nothing. -/
def mainStep (s : State) : Host.Outcome State Fault Refusal :=
  match s.todo with
  | [] => .next s
  | op :: rest => recordStop s (perform op (s.setTodo rest))

/-- R182: while the interrupt is requested the `Producer` comes before `Main`. -/
def coreStep (s : State) : Host.Outcome State Fault Refusal :=
  if s.edges.irqPending then .next (producerStep s) else mainStep s

/-- The core has something to do: the `Producer` is requested or a call is running. -/
def busy (s : State) : Bool := s.edges.irqPending || !s.todo.isEmpty

/-- The move whose turn it is: the script's first, and a free one where the script has ended. -/
def nextMove (s : State) : Move :=
  match s.sched.script with
  | m :: _ => m
  | [] => Config.freeMove s.sched.draws

/-- The move has been made. -/
def consumeMove (s : State) : State :=
  match s.sched.script with
  | _ :: rest => s.setSched { s.sched with script := rest }
  | [] => s.setSched { s.sched with draws := s.sched.draws + 1 }

/-- One move. A host call waits, and so does `await`, until the core has nothing to do; meanwhile the core steps (R262). -/
def takeMove (m : Move) (s : State) : Host.Outcome State Fault Refusal :=
  match m with
  | .clock level => .next (envClock level (consumeMove s))
  | .present opcode flags => .next (envPresent opcode flags (consumeMove s))
  | .serial level => .next (envSerial level (consumeMove s))
  | .core => coreStep (consumeMove s)
  | .await => if busy s then coreStep s else .next (consumeMove s)
  | .call c => if busy s then coreStep s else recordStop (consumeMove s) (hostCall c (consumeMove s))

/-- The state in which `Main` has just sampled the opcode byte of an instruction and takes its micro-step next: set up, in
`Execute`, inside a poll, with the byte presented at the input chain too (log entry 21). -/
def placeOpcode (b : Byte) (s : State) : State :=
  let s := (((s.setInitialized true).setRom (buildRom s.cfg)).setMode .execute).setInstruction b
  let s := s.setInParallel { s.inParallel with opcode := b }
  let s := if s.board.fitted then s.setBoard { s.board with cpu := { s.board.cpu with ir := b } } else s
  let s := s.setEdges { s.edges with irqPending := false, producerEnabled := true }
  let s := s.setTodo [.dispatch, .pollRising, .ret .done]
  let s := ((s.setReply none).setFaulted none).setRefused none
  s.setSched { s.sched with script := .core :: s.sched.script }

end Sys2Proof.Machine
end

