-- ==== Sys2Proof/Machine/Step.lean ====
section
/-! DEFINITION. The step: one atomic action of the agent whose turn it is, unless a fault or a refusal has stopped the machine
(60_exceptions.md R305, R306). -/

namespace Sys2Proof.Machine

/-- One step. A stopped machine answers its fault or refusal for good. -/
def step (s : State) : Host.Outcome State Fault Refusal :=
  match s.faulted with
  | some f => .fault f
  | none =>
    match s.refused with
    | some r => .refused r
    | none => takeMove (nextMove s) s

/-- The state whose next step runs the instruction whose bits are `w` (log entry 21). -/
def State.withFetchWord (s : State) (nbits w : Nat) : State := placeOpcode ((tableBytes nbits w).headD 0#8) s

end Sys2Proof.Machine
end

