-- ==== Sys2Proof/Safety.lean ====
section
/-! DEFINITION. What counts as a safe run, in the terms claims use: a machine no fault and no refusal has stopped, the invariant
every step keeps (the lines come back to rest, the ROM stays as built, every word computed is a set of lines, the loader's
cursor stays in its buffer, the step counter and the RAM's form stay in bounds), and a program run with its end, fair polling
and a hang (70_reset_and_hazards.md R344, R345, R380; 45_host_interface.md R276). -/

namespace Sys2Proof

/-- R100, R105: the word an unpatched row with this body holds at a step. -/
def Config.rowWord (cfg : Config) (body : List Word) (step : Nat) : Word :=
  match step with
  | 0 => cfg.fetch0
  | 1 => cfg.fetch1
  | k + 2 => body.getD k 0#16

end Sys2Proof

namespace Sys2Proof.Machine

/-- No fault and no refusal has stopped the machine (R305, R306). -/
def State.live (s : State) : Prop := s.faulted = none ∧ s.refused = none

/-- R35, R159: the lines as they stand between calls; DATA keeps the last level it was given. -/
def Lines.atRest (cfg : Config) (l : Lines) : Prop :=
  l.dataDir = .input ∧ l.sclk = false ∧ l.inLatch = cfg.inLatchRest ∧ l.outLatch = true

/-- What the invariant follows along `Main`'s remaining statements: the levels of the lines, and three facts that hold at some
statements only. -/
structure Shape where
  dir : Direction
  sclk : Bool
  inLatch : Bool
  outLatch : Bool
  /-- `instructionStep ≤ 6`. -/
  stepLow : Bool
  /-- `codeLoaded < codeSize`. -/
  room : Bool
  /-- `codeToLoad = code[codeLoaded]`. -/
  staged : Bool
deriving DecidableEq, Repr

/-- The lines are at rest. -/
def Shape.resting (cfg : Config) (sh : Shape) : Bool :=
  decide (sh.dir = .input) && !sh.sclk && (sh.inLatch == cfg.inLatchRest) && sh.outLatch

/-- What a statement makes of a shape; `none` where `Main` never runs it so. -/
def Op.flow (cfg : Config) (op : Op) (sh : Shape) : Option Shape :=
  match op with
  | .sample _ => if sh.resting cfg then some sh else none
  | .drive _ _ => if sh.resting cfg then some sh else none
  | .dir d => some { sh with dir := d }
  | .pin .sclk l => some { sh with sclk := l }
  | .pin .inLatch l => some { sh with inLatch := l }
  | .pin .outLatch l => some { sh with outLatch := l }
  | .data _ => some sh
  | .delay _ => some sh
  | .clearAcc => some sh
  | .readBit => some sh
  | .storeOut0 => some sh
  | .storeOut1 => some sh
  | .takeOpcode => some sh
  | .takeFlags => some sh
  | .wrapStep => some { sh with stepLow := true }
  | .dispatch => if sh.resting cfg && sh.stepLow then some { sh with stepLow := false } else none
  | .incStep => if sh.stepLow then some { sh with stepLow := false } else none
  | .zeroStep => some { sh with stepLow := true }
  | .storeResetWord => some sh
  | .clearLoader => some { sh with staged := false }
  | .stageByte => some { sh with staged := true }
  | .finishPhaseA => if sh.room && sh.staged then some sh else none
  | .finishPhaseB => if sh.room then some { sh with room := false, staged := false } else none
  | .pollFalling => if sh.resting cfg then some { sh with stepLow := false, room := false, staged := false } else none
  | .pollRising => if sh.resting cfg then some sh else none
  | .onFalling => if sh.resting cfg then some { sh with stepLow := false, room := false, staged := false } else none
  | .onRising => if sh.resting cfg then some sh else none
  | .commitMode _ => some sh
  | .ret _ => some sh

/-- `Main`'s remaining statements are ones it runs from this shape, and they end with the lines at rest. -/
def flowsToRest (cfg : Config) : List Op → Shape → Bool
  | [], sh => sh.resting cfg
  | op :: rest, sh =>
    match op.flow cfg sh with
    | some sh' => flowsToRest cfg rest sh'
    | none => false

/-- The shape a state has. -/
def State.shape (s : State) : Shape :=
  { dir := s.lines.dataDir
    sclk := s.lines.sclk
    inLatch := s.lines.inLatch
    outLatch := s.lines.outLatch
    stepLow := decide (s.instructionStep ≤ maxStep)
    room := decide (s.loader.codeLoaded < s.loader.codeSize)
    staged := decide (s.loader.codeToLoad = s.loader.code.getD s.loader.codeLoaded 0#8) }

/-- R27 to R31, R246: the load buffer and its cursor. -/
structure Loader.Inv (l : Loader) : Prop where
  size : l.code.length = l.codeSize
  bound : l.codeSize ≤ maxLoad
  cursor : l.codeLoaded ≤ l.codeSize
  room : l.addressSetup = true → l.codeLoaded < l.codeSize
  staged : l.addressSetup = true → l.codeToLoad = l.code.getD l.codeLoaded 0#8

/-- R33, R181, R188: the clock line's bookkeeping. -/
structure Edges.Inv (shares : Bool) (e : Edges) : Prop where
  enabled : e.irqPending = true → e.producerEnabled = true
  level : shares = false → e.clkLevel = e.attachedClk

/-- R73: a statement that drives a word drives a set of lines. -/
def Op.drivesLines (cfg : Config) : Op → Bool
  | .drive cw _ => cfg.lineBits.isLines cw
  | .sample _ | .dir _ | .pin _ _ | .data _ | .delay _ | .clearAcc | .readBit | .storeOut0 | .storeOut1 => true
  | .takeOpcode | .takeFlags | .wrapStep | .dispatch | .incStep | .zeroStep | .storeResetWord | .clearLoader => true
  | .stageByte | .finishPhaseA | .finishPhaseB | .pollFalling | .pollRising | .onFalling | .onRising => true
  | .commitMode _ | .ret _ => true

/-- R73: the stored word and every word about to be driven are sets of lines. -/
def State.computesLines (s : State) : Prop :=
  s.cfg.lineBits.isLines s.controlWord = true ∧ s.todo.all (Op.drivesLines s.cfg) = true

/-- The invariant of the machine. -/
structure State.Inv (s : State) : Prop where
  flow : flowsToRest s.cfg s.todo s.shape = true
  step : s.instructionStep ≤ maxStep + 1
  loader : s.loader.Inv
  rom : s.rom = buildRom s.cfg
  words : s.cfg.wf = true → s.computesLines
  enabled : s.edges.producerEnabled = s.initialized
  calls : s.initialized = false → s.todo = []
  edges : s.edges.Inv s.cfg.clkSharesData
  ram : s.board.ram.wf = true

/-- What a micro-step finds: a well-formed instance with its ROM built, and sampled flags that decode to `f`. -/
def State.sampled (s : State) (f : FlagState) : Prop :=
  s.cfg.wf = true ∧ s.rom = buildRom s.cfg ∧ decodeFlags s.cfg s.flags = some f

/-- No fault or refusal has stopped the machine, the interrupt is not requested, and CLK_IN is a line of its own: as long as the
script gives the core its turns, they are `Main`'s. -/
def State.undisturbed (s : State) : Prop :=
  s.live ∧ s.edges.irqPending = false ∧ s.cfg.clkSharesData = false

/-- The next `n` moves are the core's, and `after` follows. -/
def State.coreTurns (s : State) (n : Nat) (after : List Move) : Prop :=
  s.sched.script = List.replicate n Move.core ++ after

/-- R163: eight sent bits put together again as `Sample` puts them together (R91). -/
def byteOfBits (bits : List Bool) : Byte := bits.foldl (fun b x => b.shiftConcat x) 0#8

/-- How many pulses of SCLK a list of statements makes (R370). -/
def pulsesIn (ops : List Op) : Nat := ops.countP (fun op => op == .pin .sclk true)

/-! ### A program run and its end -/

/-- The machine is in `t` after `n` steps. -/
def State.runsTo (s : State) (n : Nat) (t : State) : Prop := Host.Core.run Sys2Proof.core n s = .next t

/-- R340: the machine at power-on, with any draw of the environment's state. -/
structure State.IsPowerOn (s : State) : Prop where
  core : s = { State.powerOn s.cfg with
    edges := { (State.powerOn s.cfg).edges with clkLevel := s.edges.clkLevel, attachedClk := s.edges.attachedClk }
    chains := s.chains
    inParallel := s.inParallel
    board := s.board
    sched := s.sched }
  edges : s.edges.Inv s.cfg.clkSharesData
  ram : s.board.ram.wf = true

/-- R345: the host's calls that load a program and run it, in their order. -/
def bootCalls (bytes : List Byte) : List HostCall :=
  [.startUp, .requestMode .loadCode, .requestLoadCode bytes, .requestMode .idle, .requestMode .execute]

/-- R345: the polls, and the status reads by which the host waits, may come anywhere among the calls of the boot order. -/
def HostCall.inBetween : HostCall → Bool
  | .pollOnce | .statusRead => true
  | .startUp | .requestReset | .requestMode _ | .requestLoadCode _ => false

/-- The call a move makes, if it makes one. -/
def Move.call? : Move → Option HostCall
  | .call c => some c
  | .clock _ | .present _ _ | .serial _ | .core | .await => none

/-- R345: the moves of the script alone bring the machine to `u`, the state in which `Execute` begins. On the way the host
leaves `LoadCode` in a state in which every byte has been programmed (step 4). -/
def State.bootsTo (s u : State) : Prop :=
  ∃ n a m t, s.runsTo n a ∧ busy a = false ∧ nextMove a = .call (.requestMode .idle)
    ∧ a.loader.codeLoaded = a.loader.codeSize
    ∧ a.runsTo m t ∧ t.mode ≠ .execute ∧ step t = .next u ∧ u.mode = .execute ∧ u.sched.draws = s.sched.draws

/-- R344, the launch premise: the attached program counter is 0x00, and the attached instruction register holds NOP. -/
def State.launched (u : State) : Prop :=
  (presented u).opcode = 0#8 ∧ (u.board.fitted = true → u.board.cpu.pc = 0#8)

/-- R380: a run of a program, from power-on: the boot sequence of R345 with the launch premise of R344, which bind the run up to
where `Execute` begins. -/
structure State.ProgramRun (bytes : List Byte) (s : State) : Prop where
  /-- The run starts at power-on. -/
  start : s.IsPowerOn
  /-- R345: the script makes the calls of the boot order. -/
  calls : (s.sched.script.filterMap Move.call?).filter (fun c => !c.inBetween) = bootCalls bytes
  /-- R344, R345: `Execute` begins, on the launch premise. -/
  boot : ∃ u, s.bootsTo u ∧ u.launched

/-- `Main` runs no handler and no call but a poll. -/
def Op.isPoll : Op → Bool
  | .pollFalling | .pollRising | .ret _ => true
  | .sample _ | .drive _ _ | .dir _ | .pin _ _ | .data _ | .delay _ | .clearAcc | .readBit | .storeOut0 => false
  | .storeOut1 | .takeOpcode | .takeFlags | .wrapStep | .dispatch | .incStep | .zeroStep | .storeResetWord => false
  | .clearLoader | .stageByte | .finishPhaseA | .finishPhaseB | .onFalling | .onRising | .commitMode _ => false

/-- R380: the rising edge of the stored word's cycle has been served (R215): the lines carry the word with RDY, and no handler
is under way. -/
def State.risingServed (s : State) : Prop :=
  s.chains.outVisible = s.cfg.frame (s.controlWord ||| s.cfg.ready) 0#8 ∧ s.todo.all Op.isPoll = true

/-- R380: Env makes no further transition of CLK_IN, because the attached clock has halted. -/
def State.clockStopped (s : State) : Prop := ∀ n t, s.runsTo n t → t.edges.clkLevel = s.edges.clkLevel

/-- R380: what holds at the end of a program run. -/
structure State.RunEnded (s : State) : Prop where
  mode : s.mode = .execute
  halt : s.cfg.lineBits.asserts s.controlWord .hlt = true
  served : s.risingServed
  falling : s.edges.fallingPending = false
  rising : s.edges.risingPending = false
  irq : s.edges.irqPending = false
  clock : s.clockStopped

/-- R380: the run from `s`, by the moves of its script alone, ends in `t`, its first state in which all of that holds. -/
structure State.EndsIn (s t : State) : Prop where
  ended : t.RunEnded
  first : ∃ n, s.runsTo n t ∧ ∀ m u, m < n → s.runsTo m u → ¬ u.RunEnded
  scripted : t.sched.draws = s.sched.draws

/-- The run from `s` is at some time after `n` steps in a state with the property, unless a fault or a refusal stops it. -/
def State.eventually (s : State) (n : Nat) (P : State → Prop) : Prop :=
  ∃ m u, n ≤ m ∧ s.runsTo m u ∧ (u.live → P u)

/-- R276: weak fairness, and no more: while a pending flag is set a poll eventually runs. A poll is what clears the flag
(R184), so it is said by the flag's being clear; nothing bounds the transitions of the clock before that (log entry 30). -/
structure State.FairlyPolled (s : State) : Prop where
  falling : ∀ n t, s.runsTo n t → t.edges.fallingPending = true → s.eventually n (fun u => u.edges.fallingPending = false)
  rising : ∀ n t, s.runsTo n t → t.edges.risingPending = true → s.eventually n (fun u => u.edges.risingPending = false)

/-- R380: a run, fairly polled as R276 assumes, that never reaches such a state is a hang. -/
structure State.Hangs (s : State) : Prop where
  polled : s.FairlyPolled
  endless : ∀ n t, s.runsTo n t → ¬ t.RunEnded

end Sys2Proof.Machine
end

