-- ==== Sys2Proof/Certificates/Slice0/Obligations.lean ====
section
/-! DEFINITION. The statements for the provers. Each docstring says which rule of spec/ the statement formalises or rests on.
The instance of the parameters is the field `cfg` of the state, so every statement holds for every instance its hypotheses admit
(log entry 1). -/

open Sys2Proof Sys2Proof.Machine

/-! ### Encoding -/

/-- R82, R84, R85, R136: every well-formed instruction is what its own opcode byte decodes to. -/
def Obligations.OpcodeRoundTrip : Prop :=
  ∀ (cfg : Config) (i : Instr), cfg.wf = true → i.wf cfg = true → decodeOpcode cfg (encode cfg i) = i

/-- R82, R85: every byte is an opcode: it decodes to an instruction with that opcode, well formed in a well-formed instance. -/
def Obligations.EveryByteDecodes : Prop :=
  ∀ (cfg : Config) (b : Byte),
    encode cfg (decodeOpcode cfg b) = b ∧ (cfg.wf = true → (decodeOpcode cfg b).wf cfg = true)

/-- R86, R88: the bytes of a well-formed instruction line decode to that line, and what stands after them is left. -/
def Obligations.AssemblerLineRoundTrip : Prop :=
  ∀ (cfg : Config) (i : Instr) (operand : Byte) (rest : List Byte), cfg.wf = true →
    ((AsmLine.plain i).wf cfg = true →
      decodeLine cfg (encodeLine cfg (.plain i) ++ rest) = .ok (.plain i, rest))
    ∧ ((AsmLine.withOperand i operand).wf cfg = true →
      decodeLine cfg (encodeLine cfg (.withOperand i operand) ++ rest) = .ok (.withOperand i operand, rest))

/-- R84, D1 (REF's values are the spec's own choice): a few opcode words of REF, written out. -/
def Obligations.ReferenceOpcodesDecode : Prop :=
  decodeTableWord 8 0x00 = some .nop ∧ decodeTableWord 8 0x01 = some .hlt ∧ decodeTableWord 8 0x05 = some .jnz
    ∧ decodeTableWord 8 0x06 = some .lda ∧ decodeTableWord 8 0x0A = some .ste ∧ decodeTableWord 8 0x0C = some .sub
    ∧ decodeTableWord 8 0x0E = some .tba ∧ decodeTableWord 8 0x0F = some (.undef 0x0F#8)

/-- R81 under REF (D4): the flags byte 2·Z + C decodes to (Z, C), and every other byte is M1's. -/
def Obligations.ReferenceFlagsDecode : Prop :=
  ∀ b : Byte, decodeFlags Config.ref b =
    if b.toNat < 4 then some { z := decide (2 ≤ b.toNat), c := decide (b.toNat % 2 = 1) } else none

/-- R163, R90, R91: the 24 bits of a drive, read back as three bytes in the order they are sent, are the bus value and the wire
word, and the wire word gives the logical word after a second inversion. -/
def Obligations.FrameReadsBack : Prop :=
  ∀ (cfg : Config) (w : Word) (b : Byte),
    byteOfBits ((frameBits (cfg.frame w b)).take 8) = b
    ∧ (byteOfBits (((frameBits (cfg.frame w b)).drop 8).take 8)
        ++ byteOfBits ((frameBits (cfg.frame w b)).drop 16)) ^^^ cfg.invertMask = w

/-! ### The microcode ROM -/

/-- R103: the universal fetch. -/
def Obligations.UniversalFetchRows : Prop :=
  ∀ (cfg : Config) (i : Instr) (f : FlagState), cfg.wf = true → i ∈ cfg.definedInstrs →
    (buildRom cfg).lookup f (encode cfg i) 0 = .word (cfg.lineBits.word [.co, .mi])
    ∧ (buildRom cfg).lookup f (encode cfg i) 1 = .word (cfg.lineBits.word [.ro, .ii, .ce])

/-- R104: the rows of an opcode outside the opcode map are zero at every step, under every FlagState. -/
def Obligations.UndefinedRowsAreZero : Prop :=
  ∀ (cfg : Config) (op : Byte) (f : FlagState) (step : Nat), cfg.wf = true → op ∉ cfg.definedOpcodes →
    (buildRom cfg).lookup f op step = .word 0#16

/-- R105: a defined instruction's row is zero from its length on. -/
def Obligations.RowsArePaddedWithZero : Prop :=
  ∀ (cfg : Config) (i : Instr) (body : List Word) (f : FlagState) (step : Nat), cfg.wf = true →
    i ∈ cfg.definedInstrs → cfg.bodyOf i = some body → 2 + body.length ≤ step →
    (buildRom cfg).lookup f (encode cfg i) step = .word 0#16

/-- R106: the four sub-tables agree on every defined instruction but the conditional jumps, and on those at every step but the
branch step. -/
def Obligations.RowsAreFlagIndependent : Prop :=
  ∀ (cfg : Config) (i : Instr) (f g : FlagState) (step : Nat), cfg.wf = true → i ∈ cfg.definedInstrs →
    (i = .jmc → step ≠ cfg.branchSteps.jmc) → (i = .jmz → step ≠ cfg.branchSteps.jmz) →
    (i = .jnz → step ≠ cfg.branchSteps.jnz) →
    (buildRom cfg).lookup f (encode cfg i) step = (buildRom cfg).lookup g (encode cfg i) step

/-- R107: the branch truth table, in every instance that chooses the three bodies. The word that is not taken is 0x0000 (D6). -/
def Obligations.BranchTruthTable : Prop :=
  ∀ (cfg : Config) (f : FlagState), cfg.wf = true →
    (cfg.bodies.jmc.isSome = true → (buildRom cfg).lookup f cfg.opcodes.jmc cfg.branchSteps.jmc
        = .word (if f.c then cfg.takenWord else 0#16))
    ∧ (cfg.bodies.jmz.isSome = true → (buildRom cfg).lookup f cfg.opcodes.jmz cfg.branchSteps.jmz
        = .word (if f.z then cfg.takenWord else 0#16))
    ∧ (cfg.bodies.jnz.isSome = true → (buildRom cfg).lookup f cfg.opcodes.jnz cfg.branchSteps.jnz
        = .word (if f.z then 0#16 else cfg.takenWord))

/-- R111 (REF, the spec's own choice): nineteen chosen entries of the REF ROM's table at Z0C0, three of them
refused ones. -/
def Obligations.ReferenceRomTable : Prop :=
  ∀ e ∈ ([(0x01, 2, .word 0x8000#16), (0x02, 2, .word 0x4018#16), (0x02, 3, .word 0x1004#16), (0x03, 2, .word 0x4018#16),
      (0x03, 3, .word 0#16), (0x04, 3, .word 0#16), (0x05, 3, .word 0x1004#16), (0x06, 3, .word 0x5000#16),
      (0x06, 4, .word 0x1400#16), (0x07, 4, .word 0x1040#16), (0x08, 4, .word 0x2200#16), (0x09, 2, .unchosen),
      (0x0A, 6, .unchosen), (0x0B, 2, .word 0x0520#16), (0x0C, 2, .word 0x05A0#16), (0x0D, 2, .word 0x0240#16),
      (0x0E, 3, .unchosen), (0x00, 0, .word 0x4008#16), (0x00, 1, .word 0x1810#16)] : List (Nat × Nat × RomEntry)),
    (buildRom Config.ref).lookup { z := false, c := false } (BitVec.ofNat 8 e.1) e.2.1 = e.2.2

/-! ### The instructions: where each one's micro-step completes -/

/-- R120, R210: NOP's micro-step drives CO|MI, then RO|II|CE, then zeros; the step counter then advances. -/
def Obligations.NopDrivesFetchThenZero : Prop :=
  ∀ (s : State) (f : FlagState), s.sampled f →
    exec .nop s = .next { s with
      controlWord := s.cfg.rowWord [] s.instructionStep
      todo := .drive (s.cfg.rowWord [] s.instructionStep) 0#8 :: .incStep :: s.todo }

/-- R121, R122, R210: HLT and JMP drive their own rows, whatever the flags. -/
def Obligations.HltAndJmpDriveTheirRows : Prop :=
  ∀ (s : State) (f : FlagState) (i : Instr) (body : List Word), s.sampled f → i ∈ [Instr.hlt, .jmp] →
    s.cfg.bodyOf i = some body →
    exec i s = .next { s with
      controlWord := s.cfg.rowWord body s.instructionStep
      todo := .drive (s.cfg.rowWord body s.instructionStep) 0#8 :: .incStep :: s.todo }

/-- R126 to R130, R210: the loads and stores drive their own rows, whatever the flags. -/
def Obligations.LoadsAndStoresDriveTheirRows : Prop :=
  ∀ (s : State) (f : FlagState) (i : Instr) (body : List Word), s.sampled f →
    i ∈ [Instr.lda, .ldb, .sta, .stb, .ste] → s.cfg.bodyOf i = some body →
    exec i s = .next { s with
      controlWord := s.cfg.rowWord body s.instructionStep
      todo := .drive (s.cfg.rowWord body s.instructionStep) 0#8 :: .incStep :: s.todo }

/-- R131 to R134, R210: ADD, SUB, TAB and TBA drive their own rows, whatever the flags. -/
def Obligations.ArithmeticAndTransfersDriveTheirRows : Prop :=
  ∀ (s : State) (f : FlagState) (i : Instr) (body : List Word), s.sampled f →
    i ∈ [Instr.add, .sub, .tab, .tba] → s.cfg.bodyOf i = some body →
    exec i s = .next { s with
      controlWord := s.cfg.rowWord body s.instructionStep
      todo := .drive (s.cfg.rowWord body s.instructionStep) 0#8 :: .incStep :: s.todo }

/-- R123, R107, R210: JMC drives the taken word at its branch step exactly where C is 1, else the word that is not taken. -/
def Obligations.JmcBranchesOnCarry : Prop :=
  ∀ (s : State) (f : FlagState) (body : List Word) (w : Word), s.sampled f → s.cfg.bodyOf .jmc = some body →
    w = (if s.instructionStep = s.cfg.branchSteps.jmc then (if f.c then s.cfg.takenWord else 0#16)
         else s.cfg.rowWord body s.instructionStep) →
    exec .jmc s = .next { s with controlWord := w, todo := .drive w 0#8 :: .incStep :: s.todo }

/-- R124, R107, R210: JMZ drives the taken word at its branch step exactly where Z is 1, else the word that is not taken. -/
def Obligations.JmzBranchesOnZero : Prop :=
  ∀ (s : State) (f : FlagState) (body : List Word) (w : Word), s.sampled f → s.cfg.bodyOf .jmz = some body →
    w = (if s.instructionStep = s.cfg.branchSteps.jmz then (if f.z then s.cfg.takenWord else 0#16)
         else s.cfg.rowWord body s.instructionStep) →
    exec .jmz s = .next { s with controlWord := w, todo := .drive w 0#8 :: .incStep :: s.todo }

/-- R125, R107, R210: JNZ drives the taken word at its branch step exactly where Z is 0, else the word that is not taken. -/
def Obligations.JnzBranchesOnNotZero : Prop :=
  ∀ (s : State) (f : FlagState) (body : List Word) (w : Word), s.sampled f → s.cfg.bodyOf .jnz = some body →
    w = (if s.instructionStep = s.cfg.branchSteps.jnz then (if f.z then 0#16 else s.cfg.takenWord)
         else s.cfg.rowWord body s.instructionStep) →
    exec .jnz s = .next { s with controlWord := w, todo := .drive w 0#8 :: .incStep :: s.todo }

/-- R135, R210: an undefined opcode drives the zero word at every step; nothing faults. -/
def Obligations.UndefinedOpcodeDrivesZero : Prop :=
  ∀ (s : State) (f : FlagState) (op : Byte), s.sampled f → (Instr.undef op).wf s.cfg = true →
    exec (.undef op) s = .next { s with controlWord := 0#16, todo := .drive 0#16 0#8 :: .incStep :: s.todo }

/-- R136, R210: the extra instruction, where the instance has it and chooses its body, drives its own row. -/
def Obligations.ExtraInstructionDrivesItsRow : Prop :=
  ∀ (s : State) (f : FlagState) (op : Byte) (body : List Word), s.sampled f → (Instr.extra op).wf s.cfg = true →
    s.cfg.bodyOf (.extra op) = some body →
    exec (.extra op) s = .next { s with
      controlWord := s.cfg.rowWord body s.instructionStep
      todo := .drive (s.cfg.rowWord body s.instructionStep) 0#8 :: .incStep :: s.todo }

/-- R129, R130, R134, R136, R306 X1: where the instance leaves the body of a defined instruction unchosen (REF: STB, STE, TBA),
steps 0 and 1 drive the fetch words and steps 2 to 6 are refused. -/
def Obligations.UnchosenBodyIsRefusedAfterFetch : Prop :=
  ∀ (s : State) (f : FlagState) (i : Instr), s.sampled f → i ∈ s.cfg.definedInstrs → s.cfg.bodyOf i = none →
    (s.instructionStep ≤ 1 → exec i s = .next { s with
      controlWord := s.cfg.rowWord [] s.instructionStep
      todo := .drive (s.cfg.rowWord [] s.instructionStep) 0#8 :: .incStep :: s.todo })
    ∧ (2 ≤ s.instructionStep → s.instructionStep ≤ 6 →
      exec i s = .refused (.bodyNotChosen (encode s.cfg i) s.instructionStep))

/-- R305 M1, R307: where the sampled flags byte has no meaning, every instruction's micro-step stops there, before the
lookup. -/
def Obligations.UnknownFlagsFaultBeforeLookup : Prop :=
  ∀ (s : State) (i : Instr), decodeFlags s.cfg s.flags = none → exec i s = .fault (.flagsOutOfRange s.flags)

/-- R210, R26: the frame of every instruction. A micro-step writes `controlWord` and `Main`'s remaining statements and nothing
else: no flag, no line, no loader field, no pending flag, no register and no byte of the attached RAM. -/
def Obligations.InstructionFrame : Prop :=
  ∀ (s t : State) (i : Instr), exec i s = .next t →
    t = { s with controlWord := t.controlWord, todo := .drive t.controlWord 0#8 :: .incStep :: s.todo }
    ∧ t.instructionStep = s.instructionStep ∧ t.instruction = s.instruction ∧ t.flags = s.flags ∧ t.mode = s.mode
    ∧ t.loader = s.loader ∧ t.edges = s.edges ∧ t.rom = s.rom ∧ t.lines = s.lines ∧ t.chains = s.chains
    ∧ t.board.cpu = s.board.cpu ∧ ∀ a : Byte, memRead t.board.ram a = memRead s.board.ram a

/-- R82, R210, log entry 21: when it is the core's turn and `Main` stands at the dispatch of a sampled opcode, the step is
`exec` of the instruction that opcode decodes to, a stop being recorded in the state as R305 and R306 say. -/
def Obligations.StepRunsSampledInstruction : Prop :=
  ∀ (s : State) (ops : List Op) (moves : List Move), s.live → s.edges.irqPending = false →
    s.sched.script = .core :: moves → s.todo = .dispatch :: ops →
    step s = recordStop { s with sched := { s.sched with script := moves } }
      (exec (decodeOpcode s.cfg s.instruction)
        { s with todo := ops, sched := { s.sched with script := moves } })

/-! ### The bus protocol -/

/-- R155, R156, R157, R159, R78, R370: a drive takes its 24 pulses, latches the bus value and the inverted word, brings the
lines back to rest, and changes nothing else. -/
def Obligations.DriveLatchesItsFrame : Prop :=
  ∀ (s : State) (cw : Word) (bus : Byte) (ops : List Op) (moves : List Move), s.undisturbed → s.lines.atRest s.cfg →
    s.todo = .drive cw bus :: ops → s.coreTurns 125 moves →
    ∃ t, Host.Core.run Sys2Proof.core 125 s = .next t
      ∧ t.chains.outVisible = bus ++ (cw ^^^ s.cfg.invertMask) ∧ t.chains.outShift = bus ++ (cw ^^^ s.cfg.invertMask)
      ∧ t.lines.atRest s.cfg
      ∧ t = { s with lines := t.lines, chains := t.chains, todo := ops, sched := { s.sched with script := moves } }

/-- R152, R153, R154: under the default reading order, a two-byte sample returns the presented opcode and flags, leaves the
output lines as they were, brings the lines back to rest, and writes no field of the core. -/
def Obligations.SampleReturnsPresentedBytes : Prop :=
  ∀ (s : State) (ops : List Op) (moves : List Move), s.undisturbed → s.lines.atRest s.cfg →
    s.cfg.readBeforePulse = true → s.todo = .sample .two :: ops → s.coreTurns 89 moves →
    ∃ t, Host.Core.run Sys2Proof.core 89 s = .next t
      ∧ t.locals.out0 = (presented s).opcode ∧ t.locals.out1 = (presented s).flags
      ∧ t.chains.outVisible = s.chains.outVisible ∧ t.lines.atRest s.cfg
      ∧ t = { s with lines := t.lines, chains := t.chains, locals := t.locals, todo := ops,
                     sched := { s.sched with script := moves } }

/-- R305 M2, R152, R155: a sample or a drive that starts while DATA is an output faults. -/
def Obligations.WrongDirectionFaults : Prop :=
  ∀ (s : State) (n : SampleSize) (cw : Word) (bus : Byte), s.lines.dataDir = .output →
    perform (.sample n) s = .fault (.dataPinWrongDirection .sample)
    ∧ perform (.drive cw bus) s = .fault (.dataPinWrongDirection .drive)

/-- R370: the pulses of SCLK in a sample of one byte, of two bytes, and in a drive. -/
def Obligations.PulseCounts : Prop :=
  ∀ (cfg : Config) (cw : Word) (bus : Byte),
    pulsesIn (sampleOps cfg .one) = 8 ∧ pulsesIn (sampleOps cfg .two) = 16 ∧ pulsesIn (driveOps cfg cw bus) = 24

/-- R58, R156: the output lines change only at a rising output latch, to what has been shifted in (or in the set-up call). -/
def Obligations.OutputsChangeOnlyAtLatch : Prop :=
  ∀ s t : State, step s = .next t →
    t.chains.outVisible = s.chains.outVisible
    ∨ (∃ ops, s.todo = .pin .outLatch true :: ops) ∧ s.lines.outLatch = false
        ∧ t.chains.outVisible = s.chains.outShift
    ∨ s.initialized = false

/-- R162, R180: where CLK_IN is a line of its own, no statement of `Main` but the two read-and-clears reads or writes the clock
line's state, so no step of `Producer` or of the clock can change what a sample returns or a drive latches. -/
def Obligations.StatementsIgnoreTheInterrupt : Prop :=
  ∀ (s : State) (e : Edges) (op : Op), s.cfg.clkSharesData = false → op ≠ .pollFalling → op ≠ .pollRising →
    match perform op s with
    | .next t => t.edges = s.edges ∧ perform op { s with edges := e } = .next { t with edges := e }
    | .fault f => perform op { s with edges := e } = .fault f
    | .refused r => perform op { s with edges := e } = .refused r

/-! ### The clock-edge detector -/

/-- R180: when the interrupt is requested and it is the core's turn, the `Producer` clears the request and records the level the
line has now as a pending flag; it writes nothing else. -/
def Obligations.ProducerRecordsCurrentLevel : Prop :=
  ∀ (s : State) (moves : List Move), s.live → s.edges.irqPending = true → s.sched.script = .core :: moves →
    step s = .next { s with
      sched := { s.sched with script := moves }
      edges := { s.edges with
        irqPending := false
        fallingPending := if s.edges.clkLevel then s.edges.fallingPending else true
        risingPending := if s.edges.clkLevel then true else s.edges.risingPending } }

/-- R182: while the interrupt is requested no step of `Main` is taken and no host call starts: a step writes the clock line's
state, the environment's inputs and board, and the schedule, and nothing else. -/
def Obligations.ProducerHasPriority : Prop :=
  ∀ s t : State, step s = .next t → s.edges.irqPending = true →
    t = { s with edges := t.edges, inParallel := t.inParallel, chains := { s.chains with inSerial := t.chains.inSerial },
                 board := t.board, sched := t.sched }

/-- R181, R188, R33: a change of the attached clock's level is a transition of CLK_IN, which requests the interrupt once the
`Producer` is enabled and leaves every pending flag. -/
def Obligations.TransitionRequestsInterrupt : Prop :=
  ∀ (s : State) (level : Bool), s.edges.Inv s.cfg.clkSharesData → s.cfg.clkSharesData = false →
    s.edges.attachedClk ≠ level → (s.board.fitted && s.board.cpu.halted) = false →
    (envClock level s).edges = { s.edges with
      attachedClk := level
      clkLevel := level
      irqPending := s.edges.irqPending || s.edges.producerEnabled }

/-- R184, R186, R187: a poll reads and clears the falling flag and serves at most one falling edge, before it reads the rising
flag; the read-and-clear of the rising flag serves at most one rising edge. -/
def Obligations.PollServesEachFlagOnce : Prop :=
  ∀ s : State, s.initialized = true →
    hostCall .pollOnce s = .next { s with reply := none, todo := .pollFalling :: .pollRising :: .ret .done :: s.todo }
    ∧ perform .pollFalling s = .next { s with
        edges := { s.edges with fallingPending := false }
        todo := if s.edges.fallingPending then .onFalling :: s.todo else s.todo }
    ∧ perform .pollRising s = .next { s with
        edges := { s.edges with risingPending := false }
        todo := if s.edges.risingPending then .onRising :: s.todo else s.todo }

/-! ### The mode machine -/

/-- R210, R213, R157: a falling edge served in `Execute`, from the handler's start to its end: the step wraps, the opcode and
the flags are sampled, the word of that opcode, FlagState and step is stored and stands on the lines, and the step counter
advances. -/
def Obligations.FallingEdgeInExecute : Prop :=
  ∀ (s : State) (f : FlagState) (w : Word) (k : Nat) (ops : List Op) (moves : List Move), s.undisturbed →
    s.lines.atRest s.cfg → s.cfg.readBeforePulse = true → s.mode = .execute → s.todo = .onFalling :: ops →
    s.coreTurns 220 moves → k = (if 6 < s.instructionStep then 0 else s.instructionStep) →
    decodeFlags s.cfg (presented s).flags = some f → s.rom.lookup f (presented s).opcode k = .word w →
    ∃ t, Host.Core.run Sys2Proof.core 220 s = .next t
      ∧ t.chains.outVisible = 0#8 ++ (w ^^^ s.cfg.invertMask) ∧ t.lines.atRest s.cfg
      ∧ t = { s with
          instruction := (presented s).opcode, flags := (presented s).flags, controlWord := w, instructionStep := k + 1
          lines := t.lines, chains := t.chains, locals := t.locals, todo := ops
          sched := { s.sched with script := moves } }

/-- R215, D23: a rising edge served in `Execute` puts the stored word with RDY on the lines and stores nothing. -/
def Obligations.RisingEdgeInExecute : Prop :=
  ∀ (s : State) (ops : List Op) (moves : List Move), s.undisturbed → s.lines.atRest s.cfg → s.mode = .execute →
    s.todo = .onRising :: ops → s.coreTurns 126 moves →
    ∃ t, Host.Core.run Sys2Proof.core 126 s = .next t
      ∧ t.chains.outVisible = 0#8 ++ ((s.controlWord ||| s.cfg.lineBits.word [.rdy]) ^^^ s.cfg.invertMask)
      ∧ t.lines.atRest s.cfg
      ∧ t = { s with lines := t.lines, chains := t.chains, todo := ops, sched := { s.sched with script := moves } }

/-- R212, R216: a falling edge served in `Idle` does nothing, and its flag has been read and cleared, so it is lost; a rising
edge served in `Idle` or `LoadCode` does nothing. -/
def Obligations.EdgesOutsideTheirModeAreLost : Prop :=
  ∀ s : State,
    (s.mode = .idle → perform .onFalling s = .next s)
    ∧ (s.edges.fallingPending = true → perform .pollFalling s = .next { s with
        edges := { s.edges with fallingPending := false }, todo := .onFalling :: s.todo })
    ∧ (s.mode = .idle ∨ s.mode = .loadCode → perform .onRising s = .next s)

/-- R208, R205: a rejected mode request returns `false`, writes no field and makes no line change. -/
def Obligations.RejectedModeRequestChangesNothing : Prop :=
  ∀ (s : State) (target : Mode) (moves : List Move), s.live → s.initialized = true → busy s = false →
    s.sched.script = .call (.requestMode target) :: moves →
    (s.mode = .execute ∧ target = .loadCode ∨ s.mode = .loadCode ∧ target = .execute) →
    step s = .next { s with reply := some (.accepted false), sched := { s.sched with script := moves } }

/-- R200, R205, R207, R264, R342 under the default reset parameters (D8, D9, D10): an accepted mode request and a reset request,
from the call to its return: one opcode byte is sampled, the step counter and the stored word are cleared, the all-off frame
stands on the lines, the flags, the loader and the pending edges are kept, and the mode is the target, or for a reset request
the old one. -/
def Obligations.AcceptedRequestsReset : Prop :=
  ∀ (s : State) (c : HostCall) (n : Nat) (mode : Mode) (reply : Reply) (moves : List Move), s.undisturbed →
    s.lines.atRest s.cfg → s.initialized = true → s.todo = [] →
    s.sched.script = .call c :: (List.replicate n Move.core ++ moves) →
    s.cfg.readBeforePulse = true → s.cfg.resetSample = .one → s.cfg.resetStore = .zero →
    s.cfg.resetClearsLoader = false →
    (c = .requestMode mode ∧ ¬ (s.mode = .execute ∧ mode = .loadCode) ∧ ¬ (s.mode = .loadCode ∧ mode = .execute)
        ∧ n = 177 ∧ reply = .accepted true
      ∨ c = .requestReset ∧ mode = s.mode ∧ n = 176 ∧ reply = .done) →
    ∃ t, Host.Core.run Sys2Proof.core (n + 1) s = .next t
      ∧ t.chains.outVisible = 0#8 ++ s.cfg.invertMask ∧ t.lines.atRest s.cfg
      ∧ t = { s with
          mode := mode, instruction := (presented s).opcode, instructionStep := 0, controlWord := 0#16
          reply := some reply, lines := t.lines, chains := t.chains, locals := t.locals
          sched := { s.sched with script := moves } }

/-- R21, R205, R206: only the commit of a mode request changes the mode (and the set-up call, which leaves `Idle`). -/
def Obligations.ModeChangesOnlyByRequest : Prop :=
  ∀ s t : State, step s = .next t →
    t.mode = s.mode ∨ (∃ ops, s.todo = .commitMode t.mode :: ops) ∨ s.initialized = false ∧ t.mode = .idle

/-- R24, R25, R26: only a sample's byte reaches `instruction` and `flags`; no instruction writes a flag. -/
def Obligations.OpcodeAndFlagsComeFromSamples : Prop :=
  ∀ s t : State, step s = .next t → s.initialized = true →
    (t.instruction = s.instruction ∨ (∃ ops, s.todo = .takeOpcode :: ops) ∧ t.instruction = s.locals.out0)
    ∧ (t.flags = s.flags ∨ (∃ ops, s.todo = .takeFlags :: ops) ∧ t.flags = s.locals.out1)

/-! ### The code loader -/

/-- R240, R243, R157: phase A, from the handler's start to its end: the address stands on the lines with LOAD_ADDR, the byte is
staged, and the next phase is B. -/
def Obligations.LoaderPhaseA : Prop :=
  ∀ (s : State) (ops : List Op) (moves : List Move), s.undisturbed → s.lines.atRest s.cfg → s.mode = .loadCode →
    s.todo = .onFalling :: ops → s.coreTurns 128 moves →
    s.loader.codeLoaded < s.loader.codeSize → s.loader.addressSetup = false →
    ∃ t, Host.Core.run Sys2Proof.core 128 s = .next t
      ∧ t.chains.outVisible = BitVec.ofNat 8 s.loader.codeLoaded
          ++ (s.cfg.lineBits.word [.mi, .epo, .rdy] ^^^ s.cfg.invertMask)
      ∧ t.lines.atRest s.cfg
      ∧ t = { s with
          loader := { s.loader with
            codeToLoad := s.loader.code.getD s.loader.codeLoaded 0#8, addressSetup := true }
          lines := t.lines, chains := t.chains, todo := ops, sched := { s.sched with script := moves } }

/-- R241, R243, R157: phase B: the staged byte stands on the lines with LOAD_DATA, and the cursor advances. -/
def Obligations.LoaderPhaseB : Prop :=
  ∀ (s : State) (ops : List Op) (moves : List Move), s.undisturbed → s.lines.atRest s.cfg → s.mode = .loadCode →
    s.todo = .onFalling :: ops → s.coreTurns 127 moves →
    s.loader.codeLoaded < s.loader.codeSize → s.loader.addressSetup = true →
    ∃ t, Host.Core.run Sys2Proof.core 127 s = .next t
      ∧ t.chains.outVisible = s.loader.codeToLoad ++ (s.cfg.lineBits.word [.ri, .epo, .rdy] ^^^ s.cfg.invertMask)
      ∧ t.lines.atRest s.cfg
      ∧ t = { s with
          loader := { s.loader with addressSetup := false, codeLoaded := s.loader.codeLoaded + 1 }
          lines := t.lines, chains := t.chains, todo := ops, sched := { s.sched with script := moves } }

/-- R244, D13: with nothing left to program, the all-off frame stands on the lines and no field is written. -/
def Obligations.LoaderWithNothingLeftDrivesAllOff : Prop :=
  ∀ (s : State) (ops : List Op) (moves : List Move), s.undisturbed → s.lines.atRest s.cfg → s.mode = .loadCode →
    s.todo = .onFalling :: ops → s.coreTurns 126 moves → s.loader.codeSize ≤ s.loader.codeLoaded →
    ∃ t, Host.Core.run Sys2Proof.core 126 s = .next t
      ∧ t.chains.outVisible = 0#8 ++ s.cfg.invertMask ∧ t.lines.atRest s.cfg
      ∧ t = { s with lines := t.lines, chains := t.chains, todo := ops, sched := { s.sched with script := moves } }

/-- R248, R250, R251: in `LoadCode` a load request replaces the buffer by at most 255 of its bytes and clears the cursor; in the
other modes it returns `false` and changes nothing. -/
def Obligations.LoadRequestReplacesBuffer : Prop :=
  ∀ (s : State) (bytes : List Byte), s.initialized = true →
    hostCall (.requestLoadCode bytes) s =
      if s.mode = .loadCode then .next { s with
        loader := { s.loader with
          code := bytes.take 255, codeSize := min bytes.length 255, codeLoaded := 0, addressSetup := false }
        reply := some (.accepted true) }
      else .next { s with reply := some (.accepted false) }

/-! ### The host interface and what stops the machine -/

/-- R270: the status read returns the seven fields and changes nothing. -/
def Obligations.StatusReadHasNoSideEffect : Prop :=
  ∀ s : State, s.initialized = true → hostCall .statusRead s = .next { s with
    reply := some (.status {
      mode := s.mode, instruction := s.instruction, flags := s.flags, step := s.instructionStep
      controlWord := s.controlWord, codeLoaded := s.loader.codeLoaded, codeSize := s.loader.codeSize }) }

/-- R261, R35, R341, D14: the set-up call builds the ROM, leaves the fields and the lines at their first values, enables the
interrupt and changes no output line that the output latch's rest level had. -/
def Obligations.StartUpLeavesFirstValues : Prop :=
  ∀ s : State, s.initialized = false → s.lines.outLatch = true →
    ∃ t, hostCall .startUp s = .next t ∧ t.rom = buildRom s.cfg ∧ t.mode = .idle ∧ t.instructionStep = 0
      ∧ t.controlWord = 0#16 ∧ t.instruction = 0#8 ∧ t.flags = 0#8 ∧ t.loader = Loader.empty
      ∧ t.edges.fallingPending = false ∧ t.edges.risingPending = false ∧ t.edges.irqPending = false
      ∧ t.edges.producerEnabled = true ∧ t.initialized = true ∧ t.lines = Lines.rest s.cfg
      ∧ t.chains.outVisible = s.chains.outVisible ∧ t.board = s.board

/-- R260, R306 X2 and X3: before the set-up call every other call is refused, and a second set-up call is refused. -/
def Obligations.CallsOutOfOrderAreRefused : Prop :=
  ∀ (s : State) (c : HostCall),
    (s.initialized = false → c ≠ .startUp → hostCall c s = .refused (.notInitialized c))
    ∧ (s.initialized = true → hostCall .startUp s = .refused .doubleInitialize)

/-- R262, R66: a host call waits while a call runs or the interrupt is requested: the step is the core's, and the call stays. -/
def Obligations.HostCallWaitsForMain : Prop :=
  ∀ (s t : State) (c : HostCall) (moves : List Move), s.live → s.sched.script = .call c :: moves → busy s = true →
    step s = coreStep s ∧ (step s = .next t → t.sched = s.sched)

/-- R305, R306: a fault or a refusal of a statement marks the state it stood in and changes nothing else; from then on every
step of every agent answers that fault or refusal. -/
def Obligations.StopsAreRecordedAndFinal : Prop :=
  ∀ (s : State) (op : Op) (ops : List Op) (moves : List Move) (f : Fault) (r : Refusal),
    (s.live → s.edges.irqPending = false → s.sched.script = .core :: moves → s.todo = op :: ops →
      (perform op { s with todo := ops, sched := { s.sched with script := moves } } = .fault f →
        step s = .next { s with faulted := some f, sched := { s.sched with script := moves } })
      ∧ (perform op { s with todo := ops, sched := { s.sched with script := moves } } = .refused r →
        step s = .next { s with refused := some r, sched := { s.sched with script := moves } }))
    ∧ (s.faulted = some f → step s = .fault f)
    ∧ (s.faulted = none → s.refused = some r → step s = .refused r)

/-! ### Invariants -/

/-- R340, R341: the machine at power-on meets the invariant, in every instance. -/
def Obligations.PowerOnMeetsInvariant : Prop :=
  (∀ cfg : Config, (State.powerOn cfg).Inv) ∧ State.reset.Inv

/-- R22, R28, R73, R109, R159, R213, R246: every step of every agent keeps the invariant: the lines come back to rest when
`Main`'s call ends, the step counter stays at most 7, the loader's cursor stays in its buffer, the ROM stays as built, in a
well-formed instance every word stored or about to be driven is a set of lines, and the attached RAM keeps its canonical form.
-/
def Obligations.StepKeepsInvariant : Prop :=
  ∀ s t : State, s.Inv → step s = .next t → t.Inv

/-- R159, R35: between calls the lines are at rest, and DATA is an input. -/
def Obligations.LinesRestBetweenCalls : Prop :=
  ∀ s t : State, s.Inv → step s = .next t → t.todo = [] → t.lines.atRest t.cfg

/-- R305 M2, R159, R300: in a machine that meets the invariant no step raises M2 or M3. -/
def Obligations.BusFaultsAreUnreachable : Prop :=
  ∀ (s t : State) (c : BusCall) (o : Touched), s.Inv → s.live → step s = .next t →
    t.faulted ≠ some (.dataPinWrongDirection c) ∧ t.faulted ≠ some (.producerTouchedBus o)

/-- R109, R7: once the set-up call has run, no step changes the ROM. That no step changes the parameters either, and that the
machine stays set up, is the model's (log entry 1). -/
def Obligations.RomAndParametersNeverChange : Prop :=
  ∀ s t : State, step s = .next t → t.cfg = s.cfg ∧ (s.initialized = true → t.rom = s.rom ∧ t.initialized = true)

/-- R53, R4, D33: only a move of the attached clock touches the attached CPU and its RAM; no step of the core does. -/
def Obligations.OnlyTheAttachedClockMovesTheBoard : Prop :=
  ∀ s t : State, step s = .next t → (∀ level, nextMove s ≠ .clock level) →
    t.board = s.board ∧ ∀ a : Byte, memRead t.board.ram a = memRead s.board.ram a

/-! ### The informative attached CPU (D33, log entry 17) -/

/-- D33, R249: the RAM takes the bus at MAR exactly where the word asserts RI, and every other byte is kept. -/
def Obligations.RamTakesTheBusOnlyUnderRi : Prop :=
  ∀ (cfg : Config) (w : Word) (x a : Byte) (b : Board),
    memRead (ramTick cfg w x b) a =
      if cfg.lineBits.asserts w .ri = true ∧ a = b.cpu.mar then cpuBus cfg w x b else memRead b.ram a

/-- D33, R131, R132: under REF the word of ADD leaves A + B in A, Z and the carry; the word of SUB leaves A - B, Z, and C = 1
exactly where A ≥ B; B, PC, MAR and IR are kept. -/
def Obligations.AttachedAluAddsAndSubtracts : Prop :=
  ∀ (x : Byte) (b : Board),
    cpuTick Config.ref 0x0520#16 x b = { b.cpu with
      a := b.cpu.a + b.cpu.b, z := b.cpu.a + b.cpu.b == 0#8, c := decide (256 ≤ b.cpu.a.toNat + b.cpu.b.toNat) }
    ∧ cpuTick Config.ref 0x05A0#16 x b = { b.cpu with
      a := b.cpu.a - b.cpu.b, z := b.cpu.a - b.cpu.b == 0#8, c := decide (b.cpu.b.toNat ≤ b.cpu.a.toNat) }

/-- D33, R249, R367: under REF the loader's two words put the bus value into MAR, and the byte into the RAM at MAR, and leave
the attached program counter, instruction register, A, B and flags alone. -/
def Obligations.LoaderWordsProgramTheRam : Prop :=
  ∀ (x : Byte) (b : Board),
    boardTick Config.ref Config.ref.loadAddr x b = { b with cpu := { b.cpu with mar := x } }
    ∧ boardTick Config.ref Config.ref.loadData x b = { b with ram := memWrite b.ram b.cpu.mar x }
end

