-- ==== Sys2Proof/Laws/State.lean ====
section
/-! SUPPORT. One lemma per field per update of the state, each true by rfl, so that no later proof unfolds a record update. -/

namespace Sys2Proof.Machine

@[simp] theorem State.setMode_cfg (s : State) (v : Mode) : (s.setMode v).cfg = s.cfg := rfl
@[simp] theorem State.setMode_mode (s : State) (v : Mode) : (s.setMode v).mode = v := rfl
@[simp] theorem State.setMode_instructionStep (s : State) (v : Mode) : (s.setMode v).instructionStep = s.instructionStep := rfl
@[simp] theorem State.setMode_controlWord (s : State) (v : Mode) : (s.setMode v).controlWord = s.controlWord := rfl
@[simp] theorem State.setMode_instruction (s : State) (v : Mode) : (s.setMode v).instruction = s.instruction := rfl
@[simp] theorem State.setMode_flags (s : State) (v : Mode) : (s.setMode v).flags = s.flags := rfl
@[simp] theorem State.setMode_loader (s : State) (v : Mode) : (s.setMode v).loader = s.loader := rfl
@[simp] theorem State.setMode_edges (s : State) (v : Mode) : (s.setMode v).edges = s.edges := rfl
@[simp] theorem State.setMode_rom (s : State) (v : Mode) : (s.setMode v).rom = s.rom := rfl
@[simp] theorem State.setMode_lines (s : State) (v : Mode) : (s.setMode v).lines = s.lines := rfl
@[simp] theorem State.setMode_chains (s : State) (v : Mode) : (s.setMode v).chains = s.chains := rfl
@[simp] theorem State.setMode_inParallel (s : State) (v : Mode) : (s.setMode v).inParallel = s.inParallel := rfl
@[simp] theorem State.setMode_board (s : State) (v : Mode) : (s.setMode v).board = s.board := rfl
@[simp] theorem State.setMode_todo (s : State) (v : Mode) : (s.setMode v).todo = s.todo := rfl
@[simp] theorem State.setMode_locals (s : State) (v : Mode) : (s.setMode v).locals = s.locals := rfl
@[simp] theorem State.setMode_reply (s : State) (v : Mode) : (s.setMode v).reply = s.reply := rfl
@[simp] theorem State.setMode_initialized (s : State) (v : Mode) : (s.setMode v).initialized = s.initialized := rfl
@[simp] theorem State.setMode_faulted (s : State) (v : Mode) : (s.setMode v).faulted = s.faulted := rfl
@[simp] theorem State.setMode_refused (s : State) (v : Mode) : (s.setMode v).refused = s.refused := rfl
@[simp] theorem State.setMode_sched (s : State) (v : Mode) : (s.setMode v).sched = s.sched := rfl
@[simp] theorem State.setStep_cfg (s : State) (v : Nat) : (s.setStep v).cfg = s.cfg := rfl
@[simp] theorem State.setStep_mode (s : State) (v : Nat) : (s.setStep v).mode = s.mode := rfl
@[simp] theorem State.setStep_instructionStep (s : State) (v : Nat) : (s.setStep v).instructionStep = v := rfl
@[simp] theorem State.setStep_controlWord (s : State) (v : Nat) : (s.setStep v).controlWord = s.controlWord := rfl
@[simp] theorem State.setStep_instruction (s : State) (v : Nat) : (s.setStep v).instruction = s.instruction := rfl
@[simp] theorem State.setStep_flags (s : State) (v : Nat) : (s.setStep v).flags = s.flags := rfl
@[simp] theorem State.setStep_loader (s : State) (v : Nat) : (s.setStep v).loader = s.loader := rfl
@[simp] theorem State.setStep_edges (s : State) (v : Nat) : (s.setStep v).edges = s.edges := rfl
@[simp] theorem State.setStep_rom (s : State) (v : Nat) : (s.setStep v).rom = s.rom := rfl
@[simp] theorem State.setStep_lines (s : State) (v : Nat) : (s.setStep v).lines = s.lines := rfl
@[simp] theorem State.setStep_chains (s : State) (v : Nat) : (s.setStep v).chains = s.chains := rfl
@[simp] theorem State.setStep_inParallel (s : State) (v : Nat) : (s.setStep v).inParallel = s.inParallel := rfl
@[simp] theorem State.setStep_board (s : State) (v : Nat) : (s.setStep v).board = s.board := rfl
@[simp] theorem State.setStep_todo (s : State) (v : Nat) : (s.setStep v).todo = s.todo := rfl
@[simp] theorem State.setStep_locals (s : State) (v : Nat) : (s.setStep v).locals = s.locals := rfl
@[simp] theorem State.setStep_reply (s : State) (v : Nat) : (s.setStep v).reply = s.reply := rfl
@[simp] theorem State.setStep_initialized (s : State) (v : Nat) : (s.setStep v).initialized = s.initialized := rfl
@[simp] theorem State.setStep_faulted (s : State) (v : Nat) : (s.setStep v).faulted = s.faulted := rfl
@[simp] theorem State.setStep_refused (s : State) (v : Nat) : (s.setStep v).refused = s.refused := rfl
@[simp] theorem State.setStep_sched (s : State) (v : Nat) : (s.setStep v).sched = s.sched := rfl
@[simp] theorem State.setWord_cfg (s : State) (v : Word) : (s.setWord v).cfg = s.cfg := rfl
@[simp] theorem State.setWord_mode (s : State) (v : Word) : (s.setWord v).mode = s.mode := rfl
@[simp] theorem State.setWord_instructionStep (s : State) (v : Word) : (s.setWord v).instructionStep = s.instructionStep := rfl
@[simp] theorem State.setWord_controlWord (s : State) (v : Word) : (s.setWord v).controlWord = v := rfl
@[simp] theorem State.setWord_instruction (s : State) (v : Word) : (s.setWord v).instruction = s.instruction := rfl
@[simp] theorem State.setWord_flags (s : State) (v : Word) : (s.setWord v).flags = s.flags := rfl
@[simp] theorem State.setWord_loader (s : State) (v : Word) : (s.setWord v).loader = s.loader := rfl
@[simp] theorem State.setWord_edges (s : State) (v : Word) : (s.setWord v).edges = s.edges := rfl
@[simp] theorem State.setWord_rom (s : State) (v : Word) : (s.setWord v).rom = s.rom := rfl
@[simp] theorem State.setWord_lines (s : State) (v : Word) : (s.setWord v).lines = s.lines := rfl
@[simp] theorem State.setWord_chains (s : State) (v : Word) : (s.setWord v).chains = s.chains := rfl
@[simp] theorem State.setWord_inParallel (s : State) (v : Word) : (s.setWord v).inParallel = s.inParallel := rfl
@[simp] theorem State.setWord_board (s : State) (v : Word) : (s.setWord v).board = s.board := rfl
@[simp] theorem State.setWord_todo (s : State) (v : Word) : (s.setWord v).todo = s.todo := rfl
@[simp] theorem State.setWord_locals (s : State) (v : Word) : (s.setWord v).locals = s.locals := rfl
@[simp] theorem State.setWord_reply (s : State) (v : Word) : (s.setWord v).reply = s.reply := rfl
@[simp] theorem State.setWord_initialized (s : State) (v : Word) : (s.setWord v).initialized = s.initialized := rfl
@[simp] theorem State.setWord_faulted (s : State) (v : Word) : (s.setWord v).faulted = s.faulted := rfl
@[simp] theorem State.setWord_refused (s : State) (v : Word) : (s.setWord v).refused = s.refused := rfl
@[simp] theorem State.setWord_sched (s : State) (v : Word) : (s.setWord v).sched = s.sched := rfl
@[simp] theorem State.setInstruction_cfg (s : State) (v : Byte) : (s.setInstruction v).cfg = s.cfg := rfl
@[simp] theorem State.setInstruction_mode (s : State) (v : Byte) : (s.setInstruction v).mode = s.mode := rfl
@[simp] theorem State.setInstruction_instructionStep (s : State) (v : Byte) : (s.setInstruction v).instructionStep = s.instructionStep := rfl
@[simp] theorem State.setInstruction_controlWord (s : State) (v : Byte) : (s.setInstruction v).controlWord = s.controlWord := rfl
@[simp] theorem State.setInstruction_instruction (s : State) (v : Byte) : (s.setInstruction v).instruction = v := rfl
@[simp] theorem State.setInstruction_flags (s : State) (v : Byte) : (s.setInstruction v).flags = s.flags := rfl
@[simp] theorem State.setInstruction_loader (s : State) (v : Byte) : (s.setInstruction v).loader = s.loader := rfl
@[simp] theorem State.setInstruction_edges (s : State) (v : Byte) : (s.setInstruction v).edges = s.edges := rfl
@[simp] theorem State.setInstruction_rom (s : State) (v : Byte) : (s.setInstruction v).rom = s.rom := rfl
@[simp] theorem State.setInstruction_lines (s : State) (v : Byte) : (s.setInstruction v).lines = s.lines := rfl
@[simp] theorem State.setInstruction_chains (s : State) (v : Byte) : (s.setInstruction v).chains = s.chains := rfl
@[simp] theorem State.setInstruction_inParallel (s : State) (v : Byte) : (s.setInstruction v).inParallel = s.inParallel := rfl
@[simp] theorem State.setInstruction_board (s : State) (v : Byte) : (s.setInstruction v).board = s.board := rfl
@[simp] theorem State.setInstruction_todo (s : State) (v : Byte) : (s.setInstruction v).todo = s.todo := rfl
@[simp] theorem State.setInstruction_locals (s : State) (v : Byte) : (s.setInstruction v).locals = s.locals := rfl
@[simp] theorem State.setInstruction_reply (s : State) (v : Byte) : (s.setInstruction v).reply = s.reply := rfl
@[simp] theorem State.setInstruction_initialized (s : State) (v : Byte) : (s.setInstruction v).initialized = s.initialized := rfl
@[simp] theorem State.setInstruction_faulted (s : State) (v : Byte) : (s.setInstruction v).faulted = s.faulted := rfl
@[simp] theorem State.setInstruction_refused (s : State) (v : Byte) : (s.setInstruction v).refused = s.refused := rfl
@[simp] theorem State.setInstruction_sched (s : State) (v : Byte) : (s.setInstruction v).sched = s.sched := rfl
@[simp] theorem State.setFlags_cfg (s : State) (v : Byte) : (s.setFlags v).cfg = s.cfg := rfl
@[simp] theorem State.setFlags_mode (s : State) (v : Byte) : (s.setFlags v).mode = s.mode := rfl
@[simp] theorem State.setFlags_instructionStep (s : State) (v : Byte) : (s.setFlags v).instructionStep = s.instructionStep := rfl
@[simp] theorem State.setFlags_controlWord (s : State) (v : Byte) : (s.setFlags v).controlWord = s.controlWord := rfl
@[simp] theorem State.setFlags_instruction (s : State) (v : Byte) : (s.setFlags v).instruction = s.instruction := rfl
@[simp] theorem State.setFlags_flags (s : State) (v : Byte) : (s.setFlags v).flags = v := rfl
@[simp] theorem State.setFlags_loader (s : State) (v : Byte) : (s.setFlags v).loader = s.loader := rfl
@[simp] theorem State.setFlags_edges (s : State) (v : Byte) : (s.setFlags v).edges = s.edges := rfl
@[simp] theorem State.setFlags_rom (s : State) (v : Byte) : (s.setFlags v).rom = s.rom := rfl
@[simp] theorem State.setFlags_lines (s : State) (v : Byte) : (s.setFlags v).lines = s.lines := rfl
@[simp] theorem State.setFlags_chains (s : State) (v : Byte) : (s.setFlags v).chains = s.chains := rfl
@[simp] theorem State.setFlags_inParallel (s : State) (v : Byte) : (s.setFlags v).inParallel = s.inParallel := rfl
@[simp] theorem State.setFlags_board (s : State) (v : Byte) : (s.setFlags v).board = s.board := rfl
@[simp] theorem State.setFlags_todo (s : State) (v : Byte) : (s.setFlags v).todo = s.todo := rfl
@[simp] theorem State.setFlags_locals (s : State) (v : Byte) : (s.setFlags v).locals = s.locals := rfl
@[simp] theorem State.setFlags_reply (s : State) (v : Byte) : (s.setFlags v).reply = s.reply := rfl
@[simp] theorem State.setFlags_initialized (s : State) (v : Byte) : (s.setFlags v).initialized = s.initialized := rfl
@[simp] theorem State.setFlags_faulted (s : State) (v : Byte) : (s.setFlags v).faulted = s.faulted := rfl
@[simp] theorem State.setFlags_refused (s : State) (v : Byte) : (s.setFlags v).refused = s.refused := rfl
@[simp] theorem State.setFlags_sched (s : State) (v : Byte) : (s.setFlags v).sched = s.sched := rfl
@[simp] theorem State.setLoader_cfg (s : State) (v : Loader) : (s.setLoader v).cfg = s.cfg := rfl
@[simp] theorem State.setLoader_mode (s : State) (v : Loader) : (s.setLoader v).mode = s.mode := rfl
@[simp] theorem State.setLoader_instructionStep (s : State) (v : Loader) : (s.setLoader v).instructionStep = s.instructionStep := rfl
@[simp] theorem State.setLoader_controlWord (s : State) (v : Loader) : (s.setLoader v).controlWord = s.controlWord := rfl
@[simp] theorem State.setLoader_instruction (s : State) (v : Loader) : (s.setLoader v).instruction = s.instruction := rfl
@[simp] theorem State.setLoader_flags (s : State) (v : Loader) : (s.setLoader v).flags = s.flags := rfl
@[simp] theorem State.setLoader_loader (s : State) (v : Loader) : (s.setLoader v).loader = v := rfl
@[simp] theorem State.setLoader_edges (s : State) (v : Loader) : (s.setLoader v).edges = s.edges := rfl
@[simp] theorem State.setLoader_rom (s : State) (v : Loader) : (s.setLoader v).rom = s.rom := rfl
@[simp] theorem State.setLoader_lines (s : State) (v : Loader) : (s.setLoader v).lines = s.lines := rfl
@[simp] theorem State.setLoader_chains (s : State) (v : Loader) : (s.setLoader v).chains = s.chains := rfl
@[simp] theorem State.setLoader_inParallel (s : State) (v : Loader) : (s.setLoader v).inParallel = s.inParallel := rfl
@[simp] theorem State.setLoader_board (s : State) (v : Loader) : (s.setLoader v).board = s.board := rfl
@[simp] theorem State.setLoader_todo (s : State) (v : Loader) : (s.setLoader v).todo = s.todo := rfl
@[simp] theorem State.setLoader_locals (s : State) (v : Loader) : (s.setLoader v).locals = s.locals := rfl
@[simp] theorem State.setLoader_reply (s : State) (v : Loader) : (s.setLoader v).reply = s.reply := rfl
@[simp] theorem State.setLoader_initialized (s : State) (v : Loader) : (s.setLoader v).initialized = s.initialized := rfl
@[simp] theorem State.setLoader_faulted (s : State) (v : Loader) : (s.setLoader v).faulted = s.faulted := rfl
@[simp] theorem State.setLoader_refused (s : State) (v : Loader) : (s.setLoader v).refused = s.refused := rfl
@[simp] theorem State.setLoader_sched (s : State) (v : Loader) : (s.setLoader v).sched = s.sched := rfl
@[simp] theorem State.setEdges_cfg (s : State) (v : Edges) : (s.setEdges v).cfg = s.cfg := rfl
@[simp] theorem State.setEdges_mode (s : State) (v : Edges) : (s.setEdges v).mode = s.mode := rfl
@[simp] theorem State.setEdges_instructionStep (s : State) (v : Edges) : (s.setEdges v).instructionStep = s.instructionStep := rfl
@[simp] theorem State.setEdges_controlWord (s : State) (v : Edges) : (s.setEdges v).controlWord = s.controlWord := rfl
@[simp] theorem State.setEdges_instruction (s : State) (v : Edges) : (s.setEdges v).instruction = s.instruction := rfl
@[simp] theorem State.setEdges_flags (s : State) (v : Edges) : (s.setEdges v).flags = s.flags := rfl
@[simp] theorem State.setEdges_loader (s : State) (v : Edges) : (s.setEdges v).loader = s.loader := rfl
@[simp] theorem State.setEdges_edges (s : State) (v : Edges) : (s.setEdges v).edges = v := rfl
@[simp] theorem State.setEdges_rom (s : State) (v : Edges) : (s.setEdges v).rom = s.rom := rfl
@[simp] theorem State.setEdges_lines (s : State) (v : Edges) : (s.setEdges v).lines = s.lines := rfl
@[simp] theorem State.setEdges_chains (s : State) (v : Edges) : (s.setEdges v).chains = s.chains := rfl
@[simp] theorem State.setEdges_inParallel (s : State) (v : Edges) : (s.setEdges v).inParallel = s.inParallel := rfl
@[simp] theorem State.setEdges_board (s : State) (v : Edges) : (s.setEdges v).board = s.board := rfl
@[simp] theorem State.setEdges_todo (s : State) (v : Edges) : (s.setEdges v).todo = s.todo := rfl
@[simp] theorem State.setEdges_locals (s : State) (v : Edges) : (s.setEdges v).locals = s.locals := rfl
@[simp] theorem State.setEdges_reply (s : State) (v : Edges) : (s.setEdges v).reply = s.reply := rfl
@[simp] theorem State.setEdges_initialized (s : State) (v : Edges) : (s.setEdges v).initialized = s.initialized := rfl
@[simp] theorem State.setEdges_faulted (s : State) (v : Edges) : (s.setEdges v).faulted = s.faulted := rfl
@[simp] theorem State.setEdges_refused (s : State) (v : Edges) : (s.setEdges v).refused = s.refused := rfl
@[simp] theorem State.setEdges_sched (s : State) (v : Edges) : (s.setEdges v).sched = s.sched := rfl
@[simp] theorem State.setRom_cfg (s : State) (v : Rom) : (s.setRom v).cfg = s.cfg := rfl
@[simp] theorem State.setRom_mode (s : State) (v : Rom) : (s.setRom v).mode = s.mode := rfl
@[simp] theorem State.setRom_instructionStep (s : State) (v : Rom) : (s.setRom v).instructionStep = s.instructionStep := rfl
@[simp] theorem State.setRom_controlWord (s : State) (v : Rom) : (s.setRom v).controlWord = s.controlWord := rfl
@[simp] theorem State.setRom_instruction (s : State) (v : Rom) : (s.setRom v).instruction = s.instruction := rfl
@[simp] theorem State.setRom_flags (s : State) (v : Rom) : (s.setRom v).flags = s.flags := rfl
@[simp] theorem State.setRom_loader (s : State) (v : Rom) : (s.setRom v).loader = s.loader := rfl
@[simp] theorem State.setRom_edges (s : State) (v : Rom) : (s.setRom v).edges = s.edges := rfl
@[simp] theorem State.setRom_rom (s : State) (v : Rom) : (s.setRom v).rom = v := rfl
@[simp] theorem State.setRom_lines (s : State) (v : Rom) : (s.setRom v).lines = s.lines := rfl
@[simp] theorem State.setRom_chains (s : State) (v : Rom) : (s.setRom v).chains = s.chains := rfl
@[simp] theorem State.setRom_inParallel (s : State) (v : Rom) : (s.setRom v).inParallel = s.inParallel := rfl
@[simp] theorem State.setRom_board (s : State) (v : Rom) : (s.setRom v).board = s.board := rfl
@[simp] theorem State.setRom_todo (s : State) (v : Rom) : (s.setRom v).todo = s.todo := rfl
@[simp] theorem State.setRom_locals (s : State) (v : Rom) : (s.setRom v).locals = s.locals := rfl
@[simp] theorem State.setRom_reply (s : State) (v : Rom) : (s.setRom v).reply = s.reply := rfl
@[simp] theorem State.setRom_initialized (s : State) (v : Rom) : (s.setRom v).initialized = s.initialized := rfl
@[simp] theorem State.setRom_faulted (s : State) (v : Rom) : (s.setRom v).faulted = s.faulted := rfl
@[simp] theorem State.setRom_refused (s : State) (v : Rom) : (s.setRom v).refused = s.refused := rfl
@[simp] theorem State.setRom_sched (s : State) (v : Rom) : (s.setRom v).sched = s.sched := rfl
@[simp] theorem State.setLines_cfg (s : State) (v : Lines) : (s.setLines v).cfg = s.cfg := rfl
@[simp] theorem State.setLines_mode (s : State) (v : Lines) : (s.setLines v).mode = s.mode := rfl
@[simp] theorem State.setLines_instructionStep (s : State) (v : Lines) : (s.setLines v).instructionStep = s.instructionStep := rfl
@[simp] theorem State.setLines_controlWord (s : State) (v : Lines) : (s.setLines v).controlWord = s.controlWord := rfl
@[simp] theorem State.setLines_instruction (s : State) (v : Lines) : (s.setLines v).instruction = s.instruction := rfl
@[simp] theorem State.setLines_flags (s : State) (v : Lines) : (s.setLines v).flags = s.flags := rfl
@[simp] theorem State.setLines_loader (s : State) (v : Lines) : (s.setLines v).loader = s.loader := rfl
@[simp] theorem State.setLines_edges (s : State) (v : Lines) : (s.setLines v).edges = s.edges := rfl
@[simp] theorem State.setLines_rom (s : State) (v : Lines) : (s.setLines v).rom = s.rom := rfl
@[simp] theorem State.setLines_lines (s : State) (v : Lines) : (s.setLines v).lines = v := rfl
@[simp] theorem State.setLines_chains (s : State) (v : Lines) : (s.setLines v).chains = s.chains := rfl
@[simp] theorem State.setLines_inParallel (s : State) (v : Lines) : (s.setLines v).inParallel = s.inParallel := rfl
@[simp] theorem State.setLines_board (s : State) (v : Lines) : (s.setLines v).board = s.board := rfl
@[simp] theorem State.setLines_todo (s : State) (v : Lines) : (s.setLines v).todo = s.todo := rfl
@[simp] theorem State.setLines_locals (s : State) (v : Lines) : (s.setLines v).locals = s.locals := rfl
@[simp] theorem State.setLines_reply (s : State) (v : Lines) : (s.setLines v).reply = s.reply := rfl
@[simp] theorem State.setLines_initialized (s : State) (v : Lines) : (s.setLines v).initialized = s.initialized := rfl
@[simp] theorem State.setLines_faulted (s : State) (v : Lines) : (s.setLines v).faulted = s.faulted := rfl
@[simp] theorem State.setLines_refused (s : State) (v : Lines) : (s.setLines v).refused = s.refused := rfl
@[simp] theorem State.setLines_sched (s : State) (v : Lines) : (s.setLines v).sched = s.sched := rfl
@[simp] theorem State.setChains_cfg (s : State) (v : Chains) : (s.setChains v).cfg = s.cfg := rfl
@[simp] theorem State.setChains_mode (s : State) (v : Chains) : (s.setChains v).mode = s.mode := rfl
@[simp] theorem State.setChains_instructionStep (s : State) (v : Chains) : (s.setChains v).instructionStep = s.instructionStep := rfl
@[simp] theorem State.setChains_controlWord (s : State) (v : Chains) : (s.setChains v).controlWord = s.controlWord := rfl
@[simp] theorem State.setChains_instruction (s : State) (v : Chains) : (s.setChains v).instruction = s.instruction := rfl
@[simp] theorem State.setChains_flags (s : State) (v : Chains) : (s.setChains v).flags = s.flags := rfl
@[simp] theorem State.setChains_loader (s : State) (v : Chains) : (s.setChains v).loader = s.loader := rfl
@[simp] theorem State.setChains_edges (s : State) (v : Chains) : (s.setChains v).edges = s.edges := rfl
@[simp] theorem State.setChains_rom (s : State) (v : Chains) : (s.setChains v).rom = s.rom := rfl
@[simp] theorem State.setChains_lines (s : State) (v : Chains) : (s.setChains v).lines = s.lines := rfl
@[simp] theorem State.setChains_chains (s : State) (v : Chains) : (s.setChains v).chains = v := rfl
@[simp] theorem State.setChains_inParallel (s : State) (v : Chains) : (s.setChains v).inParallel = s.inParallel := rfl
@[simp] theorem State.setChains_board (s : State) (v : Chains) : (s.setChains v).board = s.board := rfl
@[simp] theorem State.setChains_todo (s : State) (v : Chains) : (s.setChains v).todo = s.todo := rfl
@[simp] theorem State.setChains_locals (s : State) (v : Chains) : (s.setChains v).locals = s.locals := rfl
@[simp] theorem State.setChains_reply (s : State) (v : Chains) : (s.setChains v).reply = s.reply := rfl
@[simp] theorem State.setChains_initialized (s : State) (v : Chains) : (s.setChains v).initialized = s.initialized := rfl
@[simp] theorem State.setChains_faulted (s : State) (v : Chains) : (s.setChains v).faulted = s.faulted := rfl
@[simp] theorem State.setChains_refused (s : State) (v : Chains) : (s.setChains v).refused = s.refused := rfl
@[simp] theorem State.setChains_sched (s : State) (v : Chains) : (s.setChains v).sched = s.sched := rfl
@[simp] theorem State.setInParallel_cfg (s : State) (v : Presented) : (s.setInParallel v).cfg = s.cfg := rfl
@[simp] theorem State.setInParallel_mode (s : State) (v : Presented) : (s.setInParallel v).mode = s.mode := rfl
@[simp] theorem State.setInParallel_instructionStep (s : State) (v : Presented) : (s.setInParallel v).instructionStep = s.instructionStep := rfl
@[simp] theorem State.setInParallel_controlWord (s : State) (v : Presented) : (s.setInParallel v).controlWord = s.controlWord := rfl
@[simp] theorem State.setInParallel_instruction (s : State) (v : Presented) : (s.setInParallel v).instruction = s.instruction := rfl
@[simp] theorem State.setInParallel_flags (s : State) (v : Presented) : (s.setInParallel v).flags = s.flags := rfl
@[simp] theorem State.setInParallel_loader (s : State) (v : Presented) : (s.setInParallel v).loader = s.loader := rfl
@[simp] theorem State.setInParallel_edges (s : State) (v : Presented) : (s.setInParallel v).edges = s.edges := rfl
@[simp] theorem State.setInParallel_rom (s : State) (v : Presented) : (s.setInParallel v).rom = s.rom := rfl
@[simp] theorem State.setInParallel_lines (s : State) (v : Presented) : (s.setInParallel v).lines = s.lines := rfl
@[simp] theorem State.setInParallel_chains (s : State) (v : Presented) : (s.setInParallel v).chains = s.chains := rfl
@[simp] theorem State.setInParallel_inParallel (s : State) (v : Presented) : (s.setInParallel v).inParallel = v := rfl
@[simp] theorem State.setInParallel_board (s : State) (v : Presented) : (s.setInParallel v).board = s.board := rfl
@[simp] theorem State.setInParallel_todo (s : State) (v : Presented) : (s.setInParallel v).todo = s.todo := rfl
@[simp] theorem State.setInParallel_locals (s : State) (v : Presented) : (s.setInParallel v).locals = s.locals := rfl
@[simp] theorem State.setInParallel_reply (s : State) (v : Presented) : (s.setInParallel v).reply = s.reply := rfl
@[simp] theorem State.setInParallel_initialized (s : State) (v : Presented) : (s.setInParallel v).initialized = s.initialized := rfl
@[simp] theorem State.setInParallel_faulted (s : State) (v : Presented) : (s.setInParallel v).faulted = s.faulted := rfl
@[simp] theorem State.setInParallel_refused (s : State) (v : Presented) : (s.setInParallel v).refused = s.refused := rfl
@[simp] theorem State.setInParallel_sched (s : State) (v : Presented) : (s.setInParallel v).sched = s.sched := rfl
@[simp] theorem State.setBoard_cfg (s : State) (v : Board) : (s.setBoard v).cfg = s.cfg := rfl
@[simp] theorem State.setBoard_mode (s : State) (v : Board) : (s.setBoard v).mode = s.mode := rfl
@[simp] theorem State.setBoard_instructionStep (s : State) (v : Board) : (s.setBoard v).instructionStep = s.instructionStep := rfl
@[simp] theorem State.setBoard_controlWord (s : State) (v : Board) : (s.setBoard v).controlWord = s.controlWord := rfl
@[simp] theorem State.setBoard_instruction (s : State) (v : Board) : (s.setBoard v).instruction = s.instruction := rfl
@[simp] theorem State.setBoard_flags (s : State) (v : Board) : (s.setBoard v).flags = s.flags := rfl
@[simp] theorem State.setBoard_loader (s : State) (v : Board) : (s.setBoard v).loader = s.loader := rfl
@[simp] theorem State.setBoard_edges (s : State) (v : Board) : (s.setBoard v).edges = s.edges := rfl
@[simp] theorem State.setBoard_rom (s : State) (v : Board) : (s.setBoard v).rom = s.rom := rfl
@[simp] theorem State.setBoard_lines (s : State) (v : Board) : (s.setBoard v).lines = s.lines := rfl
@[simp] theorem State.setBoard_chains (s : State) (v : Board) : (s.setBoard v).chains = s.chains := rfl
@[simp] theorem State.setBoard_inParallel (s : State) (v : Board) : (s.setBoard v).inParallel = s.inParallel := rfl
@[simp] theorem State.setBoard_board (s : State) (v : Board) : (s.setBoard v).board = v := rfl
@[simp] theorem State.setBoard_todo (s : State) (v : Board) : (s.setBoard v).todo = s.todo := rfl
@[simp] theorem State.setBoard_locals (s : State) (v : Board) : (s.setBoard v).locals = s.locals := rfl
@[simp] theorem State.setBoard_reply (s : State) (v : Board) : (s.setBoard v).reply = s.reply := rfl
@[simp] theorem State.setBoard_initialized (s : State) (v : Board) : (s.setBoard v).initialized = s.initialized := rfl
@[simp] theorem State.setBoard_faulted (s : State) (v : Board) : (s.setBoard v).faulted = s.faulted := rfl
@[simp] theorem State.setBoard_refused (s : State) (v : Board) : (s.setBoard v).refused = s.refused := rfl
@[simp] theorem State.setBoard_sched (s : State) (v : Board) : (s.setBoard v).sched = s.sched := rfl
@[simp] theorem State.setTodo_cfg (s : State) (v : List Op) : (s.setTodo v).cfg = s.cfg := rfl
@[simp] theorem State.setTodo_mode (s : State) (v : List Op) : (s.setTodo v).mode = s.mode := rfl
@[simp] theorem State.setTodo_instructionStep (s : State) (v : List Op) : (s.setTodo v).instructionStep = s.instructionStep := rfl
@[simp] theorem State.setTodo_controlWord (s : State) (v : List Op) : (s.setTodo v).controlWord = s.controlWord := rfl
@[simp] theorem State.setTodo_instruction (s : State) (v : List Op) : (s.setTodo v).instruction = s.instruction := rfl
@[simp] theorem State.setTodo_flags (s : State) (v : List Op) : (s.setTodo v).flags = s.flags := rfl
@[simp] theorem State.setTodo_loader (s : State) (v : List Op) : (s.setTodo v).loader = s.loader := rfl
@[simp] theorem State.setTodo_edges (s : State) (v : List Op) : (s.setTodo v).edges = s.edges := rfl
@[simp] theorem State.setTodo_rom (s : State) (v : List Op) : (s.setTodo v).rom = s.rom := rfl
@[simp] theorem State.setTodo_lines (s : State) (v : List Op) : (s.setTodo v).lines = s.lines := rfl
@[simp] theorem State.setTodo_chains (s : State) (v : List Op) : (s.setTodo v).chains = s.chains := rfl
@[simp] theorem State.setTodo_inParallel (s : State) (v : List Op) : (s.setTodo v).inParallel = s.inParallel := rfl
@[simp] theorem State.setTodo_board (s : State) (v : List Op) : (s.setTodo v).board = s.board := rfl
@[simp] theorem State.setTodo_todo (s : State) (v : List Op) : (s.setTodo v).todo = v := rfl
@[simp] theorem State.setTodo_locals (s : State) (v : List Op) : (s.setTodo v).locals = s.locals := rfl
@[simp] theorem State.setTodo_reply (s : State) (v : List Op) : (s.setTodo v).reply = s.reply := rfl
@[simp] theorem State.setTodo_initialized (s : State) (v : List Op) : (s.setTodo v).initialized = s.initialized := rfl
@[simp] theorem State.setTodo_faulted (s : State) (v : List Op) : (s.setTodo v).faulted = s.faulted := rfl
@[simp] theorem State.setTodo_refused (s : State) (v : List Op) : (s.setTodo v).refused = s.refused := rfl
@[simp] theorem State.setTodo_sched (s : State) (v : List Op) : (s.setTodo v).sched = s.sched := rfl
@[simp] theorem State.setLocals_cfg (s : State) (v : Locals) : (s.setLocals v).cfg = s.cfg := rfl
@[simp] theorem State.setLocals_mode (s : State) (v : Locals) : (s.setLocals v).mode = s.mode := rfl
@[simp] theorem State.setLocals_instructionStep (s : State) (v : Locals) : (s.setLocals v).instructionStep = s.instructionStep := rfl
@[simp] theorem State.setLocals_controlWord (s : State) (v : Locals) : (s.setLocals v).controlWord = s.controlWord := rfl
@[simp] theorem State.setLocals_instruction (s : State) (v : Locals) : (s.setLocals v).instruction = s.instruction := rfl
@[simp] theorem State.setLocals_flags (s : State) (v : Locals) : (s.setLocals v).flags = s.flags := rfl
@[simp] theorem State.setLocals_loader (s : State) (v : Locals) : (s.setLocals v).loader = s.loader := rfl
@[simp] theorem State.setLocals_edges (s : State) (v : Locals) : (s.setLocals v).edges = s.edges := rfl
@[simp] theorem State.setLocals_rom (s : State) (v : Locals) : (s.setLocals v).rom = s.rom := rfl
@[simp] theorem State.setLocals_lines (s : State) (v : Locals) : (s.setLocals v).lines = s.lines := rfl
@[simp] theorem State.setLocals_chains (s : State) (v : Locals) : (s.setLocals v).chains = s.chains := rfl
@[simp] theorem State.setLocals_inParallel (s : State) (v : Locals) : (s.setLocals v).inParallel = s.inParallel := rfl
@[simp] theorem State.setLocals_board (s : State) (v : Locals) : (s.setLocals v).board = s.board := rfl
@[simp] theorem State.setLocals_todo (s : State) (v : Locals) : (s.setLocals v).todo = s.todo := rfl
@[simp] theorem State.setLocals_locals (s : State) (v : Locals) : (s.setLocals v).locals = v := rfl
@[simp] theorem State.setLocals_reply (s : State) (v : Locals) : (s.setLocals v).reply = s.reply := rfl
@[simp] theorem State.setLocals_initialized (s : State) (v : Locals) : (s.setLocals v).initialized = s.initialized := rfl
@[simp] theorem State.setLocals_faulted (s : State) (v : Locals) : (s.setLocals v).faulted = s.faulted := rfl
@[simp] theorem State.setLocals_refused (s : State) (v : Locals) : (s.setLocals v).refused = s.refused := rfl
@[simp] theorem State.setLocals_sched (s : State) (v : Locals) : (s.setLocals v).sched = s.sched := rfl
@[simp] theorem State.setReply_cfg (s : State) (v : Option Reply) : (s.setReply v).cfg = s.cfg := rfl
@[simp] theorem State.setReply_mode (s : State) (v : Option Reply) : (s.setReply v).mode = s.mode := rfl
@[simp] theorem State.setReply_instructionStep (s : State) (v : Option Reply) : (s.setReply v).instructionStep = s.instructionStep := rfl
@[simp] theorem State.setReply_controlWord (s : State) (v : Option Reply) : (s.setReply v).controlWord = s.controlWord := rfl
@[simp] theorem State.setReply_instruction (s : State) (v : Option Reply) : (s.setReply v).instruction = s.instruction := rfl
@[simp] theorem State.setReply_flags (s : State) (v : Option Reply) : (s.setReply v).flags = s.flags := rfl
@[simp] theorem State.setReply_loader (s : State) (v : Option Reply) : (s.setReply v).loader = s.loader := rfl
@[simp] theorem State.setReply_edges (s : State) (v : Option Reply) : (s.setReply v).edges = s.edges := rfl
@[simp] theorem State.setReply_rom (s : State) (v : Option Reply) : (s.setReply v).rom = s.rom := rfl
@[simp] theorem State.setReply_lines (s : State) (v : Option Reply) : (s.setReply v).lines = s.lines := rfl
@[simp] theorem State.setReply_chains (s : State) (v : Option Reply) : (s.setReply v).chains = s.chains := rfl
@[simp] theorem State.setReply_inParallel (s : State) (v : Option Reply) : (s.setReply v).inParallel = s.inParallel := rfl
@[simp] theorem State.setReply_board (s : State) (v : Option Reply) : (s.setReply v).board = s.board := rfl
@[simp] theorem State.setReply_todo (s : State) (v : Option Reply) : (s.setReply v).todo = s.todo := rfl
@[simp] theorem State.setReply_locals (s : State) (v : Option Reply) : (s.setReply v).locals = s.locals := rfl
@[simp] theorem State.setReply_reply (s : State) (v : Option Reply) : (s.setReply v).reply = v := rfl
@[simp] theorem State.setReply_initialized (s : State) (v : Option Reply) : (s.setReply v).initialized = s.initialized := rfl
@[simp] theorem State.setReply_faulted (s : State) (v : Option Reply) : (s.setReply v).faulted = s.faulted := rfl
@[simp] theorem State.setReply_refused (s : State) (v : Option Reply) : (s.setReply v).refused = s.refused := rfl
@[simp] theorem State.setReply_sched (s : State) (v : Option Reply) : (s.setReply v).sched = s.sched := rfl
@[simp] theorem State.setInitialized_cfg (s : State) (v : Bool) : (s.setInitialized v).cfg = s.cfg := rfl
@[simp] theorem State.setInitialized_mode (s : State) (v : Bool) : (s.setInitialized v).mode = s.mode := rfl
@[simp] theorem State.setInitialized_instructionStep (s : State) (v : Bool) : (s.setInitialized v).instructionStep = s.instructionStep := rfl
@[simp] theorem State.setInitialized_controlWord (s : State) (v : Bool) : (s.setInitialized v).controlWord = s.controlWord := rfl
@[simp] theorem State.setInitialized_instruction (s : State) (v : Bool) : (s.setInitialized v).instruction = s.instruction := rfl
@[simp] theorem State.setInitialized_flags (s : State) (v : Bool) : (s.setInitialized v).flags = s.flags := rfl
@[simp] theorem State.setInitialized_loader (s : State) (v : Bool) : (s.setInitialized v).loader = s.loader := rfl
@[simp] theorem State.setInitialized_edges (s : State) (v : Bool) : (s.setInitialized v).edges = s.edges := rfl
@[simp] theorem State.setInitialized_rom (s : State) (v : Bool) : (s.setInitialized v).rom = s.rom := rfl
@[simp] theorem State.setInitialized_lines (s : State) (v : Bool) : (s.setInitialized v).lines = s.lines := rfl
@[simp] theorem State.setInitialized_chains (s : State) (v : Bool) : (s.setInitialized v).chains = s.chains := rfl
@[simp] theorem State.setInitialized_inParallel (s : State) (v : Bool) : (s.setInitialized v).inParallel = s.inParallel := rfl
@[simp] theorem State.setInitialized_board (s : State) (v : Bool) : (s.setInitialized v).board = s.board := rfl
@[simp] theorem State.setInitialized_todo (s : State) (v : Bool) : (s.setInitialized v).todo = s.todo := rfl
@[simp] theorem State.setInitialized_locals (s : State) (v : Bool) : (s.setInitialized v).locals = s.locals := rfl
@[simp] theorem State.setInitialized_reply (s : State) (v : Bool) : (s.setInitialized v).reply = s.reply := rfl
@[simp] theorem State.setInitialized_initialized (s : State) (v : Bool) : (s.setInitialized v).initialized = v := rfl
@[simp] theorem State.setInitialized_faulted (s : State) (v : Bool) : (s.setInitialized v).faulted = s.faulted := rfl
@[simp] theorem State.setInitialized_refused (s : State) (v : Bool) : (s.setInitialized v).refused = s.refused := rfl
@[simp] theorem State.setInitialized_sched (s : State) (v : Bool) : (s.setInitialized v).sched = s.sched := rfl
@[simp] theorem State.setFaulted_cfg (s : State) (v : Option Fault) : (s.setFaulted v).cfg = s.cfg := rfl
@[simp] theorem State.setFaulted_mode (s : State) (v : Option Fault) : (s.setFaulted v).mode = s.mode := rfl
@[simp] theorem State.setFaulted_instructionStep (s : State) (v : Option Fault) : (s.setFaulted v).instructionStep = s.instructionStep := rfl
@[simp] theorem State.setFaulted_controlWord (s : State) (v : Option Fault) : (s.setFaulted v).controlWord = s.controlWord := rfl
@[simp] theorem State.setFaulted_instruction (s : State) (v : Option Fault) : (s.setFaulted v).instruction = s.instruction := rfl
@[simp] theorem State.setFaulted_flags (s : State) (v : Option Fault) : (s.setFaulted v).flags = s.flags := rfl
@[simp] theorem State.setFaulted_loader (s : State) (v : Option Fault) : (s.setFaulted v).loader = s.loader := rfl
@[simp] theorem State.setFaulted_edges (s : State) (v : Option Fault) : (s.setFaulted v).edges = s.edges := rfl
@[simp] theorem State.setFaulted_rom (s : State) (v : Option Fault) : (s.setFaulted v).rom = s.rom := rfl
@[simp] theorem State.setFaulted_lines (s : State) (v : Option Fault) : (s.setFaulted v).lines = s.lines := rfl
@[simp] theorem State.setFaulted_chains (s : State) (v : Option Fault) : (s.setFaulted v).chains = s.chains := rfl
@[simp] theorem State.setFaulted_inParallel (s : State) (v : Option Fault) : (s.setFaulted v).inParallel = s.inParallel := rfl
@[simp] theorem State.setFaulted_board (s : State) (v : Option Fault) : (s.setFaulted v).board = s.board := rfl
@[simp] theorem State.setFaulted_todo (s : State) (v : Option Fault) : (s.setFaulted v).todo = s.todo := rfl
@[simp] theorem State.setFaulted_locals (s : State) (v : Option Fault) : (s.setFaulted v).locals = s.locals := rfl
@[simp] theorem State.setFaulted_reply (s : State) (v : Option Fault) : (s.setFaulted v).reply = s.reply := rfl
@[simp] theorem State.setFaulted_initialized (s : State) (v : Option Fault) : (s.setFaulted v).initialized = s.initialized := rfl
@[simp] theorem State.setFaulted_faulted (s : State) (v : Option Fault) : (s.setFaulted v).faulted = v := rfl
@[simp] theorem State.setFaulted_refused (s : State) (v : Option Fault) : (s.setFaulted v).refused = s.refused := rfl
@[simp] theorem State.setFaulted_sched (s : State) (v : Option Fault) : (s.setFaulted v).sched = s.sched := rfl
@[simp] theorem State.setRefused_cfg (s : State) (v : Option Refusal) : (s.setRefused v).cfg = s.cfg := rfl
@[simp] theorem State.setRefused_mode (s : State) (v : Option Refusal) : (s.setRefused v).mode = s.mode := rfl
@[simp] theorem State.setRefused_instructionStep (s : State) (v : Option Refusal) : (s.setRefused v).instructionStep = s.instructionStep := rfl
@[simp] theorem State.setRefused_controlWord (s : State) (v : Option Refusal) : (s.setRefused v).controlWord = s.controlWord := rfl
@[simp] theorem State.setRefused_instruction (s : State) (v : Option Refusal) : (s.setRefused v).instruction = s.instruction := rfl
@[simp] theorem State.setRefused_flags (s : State) (v : Option Refusal) : (s.setRefused v).flags = s.flags := rfl
@[simp] theorem State.setRefused_loader (s : State) (v : Option Refusal) : (s.setRefused v).loader = s.loader := rfl
@[simp] theorem State.setRefused_edges (s : State) (v : Option Refusal) : (s.setRefused v).edges = s.edges := rfl
@[simp] theorem State.setRefused_rom (s : State) (v : Option Refusal) : (s.setRefused v).rom = s.rom := rfl
@[simp] theorem State.setRefused_lines (s : State) (v : Option Refusal) : (s.setRefused v).lines = s.lines := rfl
@[simp] theorem State.setRefused_chains (s : State) (v : Option Refusal) : (s.setRefused v).chains = s.chains := rfl
@[simp] theorem State.setRefused_inParallel (s : State) (v : Option Refusal) : (s.setRefused v).inParallel = s.inParallel := rfl
@[simp] theorem State.setRefused_board (s : State) (v : Option Refusal) : (s.setRefused v).board = s.board := rfl
@[simp] theorem State.setRefused_todo (s : State) (v : Option Refusal) : (s.setRefused v).todo = s.todo := rfl
@[simp] theorem State.setRefused_locals (s : State) (v : Option Refusal) : (s.setRefused v).locals = s.locals := rfl
@[simp] theorem State.setRefused_reply (s : State) (v : Option Refusal) : (s.setRefused v).reply = s.reply := rfl
@[simp] theorem State.setRefused_initialized (s : State) (v : Option Refusal) : (s.setRefused v).initialized = s.initialized := rfl
@[simp] theorem State.setRefused_faulted (s : State) (v : Option Refusal) : (s.setRefused v).faulted = s.faulted := rfl
@[simp] theorem State.setRefused_refused (s : State) (v : Option Refusal) : (s.setRefused v).refused = v := rfl
@[simp] theorem State.setRefused_sched (s : State) (v : Option Refusal) : (s.setRefused v).sched = s.sched := rfl
@[simp] theorem State.setSched_cfg (s : State) (v : Sched) : (s.setSched v).cfg = s.cfg := rfl
@[simp] theorem State.setSched_mode (s : State) (v : Sched) : (s.setSched v).mode = s.mode := rfl
@[simp] theorem State.setSched_instructionStep (s : State) (v : Sched) : (s.setSched v).instructionStep = s.instructionStep := rfl
@[simp] theorem State.setSched_controlWord (s : State) (v : Sched) : (s.setSched v).controlWord = s.controlWord := rfl
@[simp] theorem State.setSched_instruction (s : State) (v : Sched) : (s.setSched v).instruction = s.instruction := rfl
@[simp] theorem State.setSched_flags (s : State) (v : Sched) : (s.setSched v).flags = s.flags := rfl
@[simp] theorem State.setSched_loader (s : State) (v : Sched) : (s.setSched v).loader = s.loader := rfl
@[simp] theorem State.setSched_edges (s : State) (v : Sched) : (s.setSched v).edges = s.edges := rfl
@[simp] theorem State.setSched_rom (s : State) (v : Sched) : (s.setSched v).rom = s.rom := rfl
@[simp] theorem State.setSched_lines (s : State) (v : Sched) : (s.setSched v).lines = s.lines := rfl
@[simp] theorem State.setSched_chains (s : State) (v : Sched) : (s.setSched v).chains = s.chains := rfl
@[simp] theorem State.setSched_inParallel (s : State) (v : Sched) : (s.setSched v).inParallel = s.inParallel := rfl
@[simp] theorem State.setSched_board (s : State) (v : Sched) : (s.setSched v).board = s.board := rfl
@[simp] theorem State.setSched_todo (s : State) (v : Sched) : (s.setSched v).todo = s.todo := rfl
@[simp] theorem State.setSched_locals (s : State) (v : Sched) : (s.setSched v).locals = s.locals := rfl
@[simp] theorem State.setSched_reply (s : State) (v : Sched) : (s.setSched v).reply = s.reply := rfl
@[simp] theorem State.setSched_initialized (s : State) (v : Sched) : (s.setSched v).initialized = s.initialized := rfl
@[simp] theorem State.setSched_faulted (s : State) (v : Sched) : (s.setSched v).faulted = s.faulted := rfl
@[simp] theorem State.setSched_refused (s : State) (v : Sched) : (s.setSched v).refused = s.refused := rfl
@[simp] theorem State.setSched_sched (s : State) (v : Sched) : (s.setSched v).sched = v := rfl
@[simp] theorem State.push_cfg (s : State) (ops : List Op) : (s.push ops).cfg = s.cfg := rfl
@[simp] theorem State.push_mode (s : State) (ops : List Op) : (s.push ops).mode = s.mode := rfl
@[simp] theorem State.push_instructionStep (s : State) (ops : List Op) : (s.push ops).instructionStep = s.instructionStep := rfl
@[simp] theorem State.push_controlWord (s : State) (ops : List Op) : (s.push ops).controlWord = s.controlWord := rfl
@[simp] theorem State.push_instruction (s : State) (ops : List Op) : (s.push ops).instruction = s.instruction := rfl
@[simp] theorem State.push_flags (s : State) (ops : List Op) : (s.push ops).flags = s.flags := rfl
@[simp] theorem State.push_loader (s : State) (ops : List Op) : (s.push ops).loader = s.loader := rfl
@[simp] theorem State.push_edges (s : State) (ops : List Op) : (s.push ops).edges = s.edges := rfl
@[simp] theorem State.push_rom (s : State) (ops : List Op) : (s.push ops).rom = s.rom := rfl
@[simp] theorem State.push_lines (s : State) (ops : List Op) : (s.push ops).lines = s.lines := rfl
@[simp] theorem State.push_chains (s : State) (ops : List Op) : (s.push ops).chains = s.chains := rfl
@[simp] theorem State.push_inParallel (s : State) (ops : List Op) : (s.push ops).inParallel = s.inParallel := rfl
@[simp] theorem State.push_board (s : State) (ops : List Op) : (s.push ops).board = s.board := rfl
@[simp] theorem State.push_todo (s : State) (ops : List Op) : (s.push ops).todo = ops ++ s.todo := rfl
@[simp] theorem State.push_locals (s : State) (ops : List Op) : (s.push ops).locals = s.locals := rfl
@[simp] theorem State.push_reply (s : State) (ops : List Op) : (s.push ops).reply = s.reply := rfl
@[simp] theorem State.push_initialized (s : State) (ops : List Op) : (s.push ops).initialized = s.initialized := rfl
@[simp] theorem State.push_faulted (s : State) (ops : List Op) : (s.push ops).faulted = s.faulted := rfl
@[simp] theorem State.push_refused (s : State) (ops : List Op) : (s.push ops).refused = s.refused := rfl
@[simp] theorem State.push_sched (s : State) (ops : List Op) : (s.push ops).sched = s.sched := rfl

end Sys2Proof.Machine
end

