-- ==== Sys2Proof/Laws/Ops.lean ====
section
/-! SUPPORT. What each line operation leaves unchanged, one lemma per field, and what it does where CLK_IN is a line of its own:
nothing to the clock line's state (42_edge_detector.md R162). -/

namespace Sys2Proof.Machine

/-- Observing the clock line writes nothing but the clock line's own state. -/
theorem observeClock_eq (s : State) : observeClock s = s.setEdges (observeClock s).edges := by
  unfold observeClock
  split <;> rfl

theorem lineChanged_eq (s : State) : lineChanged s = s.setEdges (lineChanged s).edges := by
  unfold lineChanged
  split
  · exact observeClock_eq s
  · rfl

/-- Where CLK_IN is a line of its own, no line operation moves it. -/
@[simp] theorem lineChanged_of_separate (s : State) (h : s.cfg.clkSharesData = false) : lineChanged s = s := by
  simp [lineChanged, h]

@[simp] theorem observeClock_cfg (s : State) : (observeClock s).cfg = s.cfg := by rw [observeClock_eq]; rfl
@[simp] theorem lineChanged_cfg (s : State) : (lineChanged s).cfg = s.cfg := by rw [lineChanged_eq]; rfl
@[simp] theorem observeClock_mode (s : State) : (observeClock s).mode = s.mode := by rw [observeClock_eq]; rfl
@[simp] theorem lineChanged_mode (s : State) : (lineChanged s).mode = s.mode := by rw [lineChanged_eq]; rfl
@[simp] theorem observeClock_instructionStep (s : State) : (observeClock s).instructionStep = s.instructionStep := by rw [observeClock_eq]; rfl
@[simp] theorem lineChanged_instructionStep (s : State) : (lineChanged s).instructionStep = s.instructionStep := by rw [lineChanged_eq]; rfl
@[simp] theorem observeClock_controlWord (s : State) : (observeClock s).controlWord = s.controlWord := by rw [observeClock_eq]; rfl
@[simp] theorem lineChanged_controlWord (s : State) : (lineChanged s).controlWord = s.controlWord := by rw [lineChanged_eq]; rfl
@[simp] theorem observeClock_instruction (s : State) : (observeClock s).instruction = s.instruction := by rw [observeClock_eq]; rfl
@[simp] theorem lineChanged_instruction (s : State) : (lineChanged s).instruction = s.instruction := by rw [lineChanged_eq]; rfl
@[simp] theorem observeClock_flags (s : State) : (observeClock s).flags = s.flags := by rw [observeClock_eq]; rfl
@[simp] theorem lineChanged_flags (s : State) : (lineChanged s).flags = s.flags := by rw [lineChanged_eq]; rfl
@[simp] theorem observeClock_loader (s : State) : (observeClock s).loader = s.loader := by rw [observeClock_eq]; rfl
@[simp] theorem lineChanged_loader (s : State) : (lineChanged s).loader = s.loader := by rw [lineChanged_eq]; rfl
@[simp] theorem observeClock_rom (s : State) : (observeClock s).rom = s.rom := by rw [observeClock_eq]; rfl
@[simp] theorem lineChanged_rom (s : State) : (lineChanged s).rom = s.rom := by rw [lineChanged_eq]; rfl
@[simp] theorem observeClock_lines (s : State) : (observeClock s).lines = s.lines := by rw [observeClock_eq]; rfl
@[simp] theorem lineChanged_lines (s : State) : (lineChanged s).lines = s.lines := by rw [lineChanged_eq]; rfl
@[simp] theorem observeClock_chains (s : State) : (observeClock s).chains = s.chains := by rw [observeClock_eq]; rfl
@[simp] theorem lineChanged_chains (s : State) : (lineChanged s).chains = s.chains := by rw [lineChanged_eq]; rfl
@[simp] theorem observeClock_inParallel (s : State) : (observeClock s).inParallel = s.inParallel := by rw [observeClock_eq]; rfl
@[simp] theorem lineChanged_inParallel (s : State) : (lineChanged s).inParallel = s.inParallel := by rw [lineChanged_eq]; rfl
@[simp] theorem observeClock_board (s : State) : (observeClock s).board = s.board := by rw [observeClock_eq]; rfl
@[simp] theorem lineChanged_board (s : State) : (lineChanged s).board = s.board := by rw [lineChanged_eq]; rfl
@[simp] theorem observeClock_todo (s : State) : (observeClock s).todo = s.todo := by rw [observeClock_eq]; rfl
@[simp] theorem lineChanged_todo (s : State) : (lineChanged s).todo = s.todo := by rw [lineChanged_eq]; rfl
@[simp] theorem observeClock_locals (s : State) : (observeClock s).locals = s.locals := by rw [observeClock_eq]; rfl
@[simp] theorem lineChanged_locals (s : State) : (lineChanged s).locals = s.locals := by rw [lineChanged_eq]; rfl
@[simp] theorem observeClock_reply (s : State) : (observeClock s).reply = s.reply := by rw [observeClock_eq]; rfl
@[simp] theorem lineChanged_reply (s : State) : (lineChanged s).reply = s.reply := by rw [lineChanged_eq]; rfl
@[simp] theorem observeClock_initialized (s : State) : (observeClock s).initialized = s.initialized := by rw [observeClock_eq]; rfl
@[simp] theorem lineChanged_initialized (s : State) : (lineChanged s).initialized = s.initialized := by rw [lineChanged_eq]; rfl
@[simp] theorem observeClock_faulted (s : State) : (observeClock s).faulted = s.faulted := by rw [observeClock_eq]; rfl
@[simp] theorem lineChanged_faulted (s : State) : (lineChanged s).faulted = s.faulted := by rw [lineChanged_eq]; rfl
@[simp] theorem observeClock_refused (s : State) : (observeClock s).refused = s.refused := by rw [observeClock_eq]; rfl
@[simp] theorem lineChanged_refused (s : State) : (lineChanged s).refused = s.refused := by rw [lineChanged_eq]; rfl
@[simp] theorem observeClock_sched (s : State) : (observeClock s).sched = s.sched := by rw [observeClock_eq]; rfl
@[simp] theorem lineChanged_sched (s : State) : (lineChanged s).sched = s.sched := by rw [lineChanged_eq]; rfl

@[simp] theorem setDir_cfg (d : Direction) (s : State) : (setDir d s).cfg = s.cfg := by simp [setDir]
@[simp] theorem setDir_mode (d : Direction) (s : State) : (setDir d s).mode = s.mode := by simp [setDir]
@[simp] theorem setDir_instructionStep (d : Direction) (s : State) : (setDir d s).instructionStep = s.instructionStep := by simp [setDir]
@[simp] theorem setDir_controlWord (d : Direction) (s : State) : (setDir d s).controlWord = s.controlWord := by simp [setDir]
@[simp] theorem setDir_instruction (d : Direction) (s : State) : (setDir d s).instruction = s.instruction := by simp [setDir]
@[simp] theorem setDir_flags (d : Direction) (s : State) : (setDir d s).flags = s.flags := by simp [setDir]
@[simp] theorem setDir_loader (d : Direction) (s : State) : (setDir d s).loader = s.loader := by simp [setDir]
@[simp] theorem setDir_rom (d : Direction) (s : State) : (setDir d s).rom = s.rom := by simp [setDir]
@[simp] theorem setDir_lines (d : Direction) (s : State) : (setDir d s).lines = { s.lines with dataDir := d } := by simp [setDir]
@[simp] theorem setDir_chains (d : Direction) (s : State) : (setDir d s).chains = { s.chains with sampling := s.chains.sampling && decide (d = .output) } := by simp [setDir]
@[simp] theorem setDir_inParallel (d : Direction) (s : State) : (setDir d s).inParallel = s.inParallel := by simp [setDir]
@[simp] theorem setDir_board (d : Direction) (s : State) : (setDir d s).board = s.board := by simp [setDir]
@[simp] theorem setDir_todo (d : Direction) (s : State) : (setDir d s).todo = s.todo := by simp [setDir]
@[simp] theorem setDir_locals (d : Direction) (s : State) : (setDir d s).locals = s.locals := by simp [setDir]
@[simp] theorem setDir_reply (d : Direction) (s : State) : (setDir d s).reply = s.reply := by simp [setDir]
@[simp] theorem setDir_initialized (d : Direction) (s : State) : (setDir d s).initialized = s.initialized := by simp [setDir]
@[simp] theorem setDir_faulted (d : Direction) (s : State) : (setDir d s).faulted = s.faulted := by simp [setDir]
@[simp] theorem setDir_refused (d : Direction) (s : State) : (setDir d s).refused = s.refused := by simp [setDir]
@[simp] theorem setDir_sched (d : Direction) (s : State) : (setDir d s).sched = s.sched := by simp [setDir]

@[simp] theorem setData_cfg (l : Bool) (s : State) : (setData l s).cfg = s.cfg := by simp [setData]
@[simp] theorem setData_mode (l : Bool) (s : State) : (setData l s).mode = s.mode := by simp [setData]
@[simp] theorem setData_instructionStep (l : Bool) (s : State) : (setData l s).instructionStep = s.instructionStep := by simp [setData]
@[simp] theorem setData_controlWord (l : Bool) (s : State) : (setData l s).controlWord = s.controlWord := by simp [setData]
@[simp] theorem setData_instruction (l : Bool) (s : State) : (setData l s).instruction = s.instruction := by simp [setData]
@[simp] theorem setData_flags (l : Bool) (s : State) : (setData l s).flags = s.flags := by simp [setData]
@[simp] theorem setData_loader (l : Bool) (s : State) : (setData l s).loader = s.loader := by simp [setData]
@[simp] theorem setData_rom (l : Bool) (s : State) : (setData l s).rom = s.rom := by simp [setData]
@[simp] theorem setData_lines (l : Bool) (s : State) : (setData l s).lines = { s.lines with dataOut := l } := by simp [setData]
@[simp] theorem setData_chains (l : Bool) (s : State) : (setData l s).chains = s.chains := by simp [setData]
@[simp] theorem setData_inParallel (l : Bool) (s : State) : (setData l s).inParallel = s.inParallel := by simp [setData]
@[simp] theorem setData_board (l : Bool) (s : State) : (setData l s).board = s.board := by simp [setData]
@[simp] theorem setData_todo (l : Bool) (s : State) : (setData l s).todo = s.todo := by simp [setData]
@[simp] theorem setData_locals (l : Bool) (s : State) : (setData l s).locals = s.locals := by simp [setData]
@[simp] theorem setData_reply (l : Bool) (s : State) : (setData l s).reply = s.reply := by simp [setData]
@[simp] theorem setData_initialized (l : Bool) (s : State) : (setData l s).initialized = s.initialized := by simp [setData]
@[simp] theorem setData_faulted (l : Bool) (s : State) : (setData l s).faulted = s.faulted := by simp [setData]
@[simp] theorem setData_refused (l : Bool) (s : State) : (setData l s).refused = s.refused := by simp [setData]
@[simp] theorem setData_sched (l : Bool) (s : State) : (setData l s).sched = s.sched := by simp [setData]

@[simp] theorem setSclk_cfg (l : Bool) (s : State) : (setSclk l s).cfg = s.cfg := by simp [setSclk]
@[simp] theorem setSclk_mode (l : Bool) (s : State) : (setSclk l s).mode = s.mode := by simp [setSclk]
@[simp] theorem setSclk_instructionStep (l : Bool) (s : State) : (setSclk l s).instructionStep = s.instructionStep := by simp [setSclk]
@[simp] theorem setSclk_controlWord (l : Bool) (s : State) : (setSclk l s).controlWord = s.controlWord := by simp [setSclk]
@[simp] theorem setSclk_instruction (l : Bool) (s : State) : (setSclk l s).instruction = s.instruction := by simp [setSclk]
@[simp] theorem setSclk_flags (l : Bool) (s : State) : (setSclk l s).flags = s.flags := by simp [setSclk]
@[simp] theorem setSclk_loader (l : Bool) (s : State) : (setSclk l s).loader = s.loader := by simp [setSclk]
@[simp] theorem setSclk_rom (l : Bool) (s : State) : (setSclk l s).rom = s.rom := by simp [setSclk]
@[simp] theorem setSclk_lines (l : Bool) (s : State) : (setSclk l s).lines = { s.lines with sclk := l } := by simp [setSclk]
@[simp] theorem setSclk_chains (l : Bool) (s : State) : (setSclk l s).chains = if l && !s.lines.sclk then shiftChains s else s.chains := by simp [setSclk]
@[simp] theorem setSclk_inParallel (l : Bool) (s : State) : (setSclk l s).inParallel = s.inParallel := by simp [setSclk]
@[simp] theorem setSclk_board (l : Bool) (s : State) : (setSclk l s).board = s.board := by simp [setSclk]
@[simp] theorem setSclk_todo (l : Bool) (s : State) : (setSclk l s).todo = s.todo := by simp [setSclk]
@[simp] theorem setSclk_locals (l : Bool) (s : State) : (setSclk l s).locals = s.locals := by simp [setSclk]
@[simp] theorem setSclk_reply (l : Bool) (s : State) : (setSclk l s).reply = s.reply := by simp [setSclk]
@[simp] theorem setSclk_initialized (l : Bool) (s : State) : (setSclk l s).initialized = s.initialized := by simp [setSclk]
@[simp] theorem setSclk_faulted (l : Bool) (s : State) : (setSclk l s).faulted = s.faulted := by simp [setSclk]
@[simp] theorem setSclk_refused (l : Bool) (s : State) : (setSclk l s).refused = s.refused := by simp [setSclk]
@[simp] theorem setSclk_sched (l : Bool) (s : State) : (setSclk l s).sched = s.sched := by simp [setSclk]

@[simp] theorem setInLatch_cfg (l : Bool) (s : State) : (setInLatch l s).cfg = s.cfg := by simp [setInLatch]
@[simp] theorem setInLatch_mode (l : Bool) (s : State) : (setInLatch l s).mode = s.mode := by simp [setInLatch]
@[simp] theorem setInLatch_instructionStep (l : Bool) (s : State) : (setInLatch l s).instructionStep = s.instructionStep := by simp [setInLatch]
@[simp] theorem setInLatch_controlWord (l : Bool) (s : State) : (setInLatch l s).controlWord = s.controlWord := by simp [setInLatch]
@[simp] theorem setInLatch_instruction (l : Bool) (s : State) : (setInLatch l s).instruction = s.instruction := by simp [setInLatch]
@[simp] theorem setInLatch_flags (l : Bool) (s : State) : (setInLatch l s).flags = s.flags := by simp [setInLatch]
@[simp] theorem setInLatch_loader (l : Bool) (s : State) : (setInLatch l s).loader = s.loader := by simp [setInLatch]
@[simp] theorem setInLatch_rom (l : Bool) (s : State) : (setInLatch l s).rom = s.rom := by simp [setInLatch]
@[simp] theorem setInLatch_lines (l : Bool) (s : State) : (setInLatch l s).lines = { s.lines with inLatch := l } := by simp [setInLatch]
@[simp] theorem setInLatch_chains (l : Bool) (s : State) : (setInLatch l s).chains = if l == s.cfg.inLatchActive && l != s.lines.inLatch then captureInputs s else s.chains := by simp [setInLatch]
@[simp] theorem setInLatch_inParallel (l : Bool) (s : State) : (setInLatch l s).inParallel = s.inParallel := by simp [setInLatch]
@[simp] theorem setInLatch_board (l : Bool) (s : State) : (setInLatch l s).board = s.board := by simp [setInLatch]
@[simp] theorem setInLatch_todo (l : Bool) (s : State) : (setInLatch l s).todo = s.todo := by simp [setInLatch]
@[simp] theorem setInLatch_locals (l : Bool) (s : State) : (setInLatch l s).locals = s.locals := by simp [setInLatch]
@[simp] theorem setInLatch_reply (l : Bool) (s : State) : (setInLatch l s).reply = s.reply := by simp [setInLatch]
@[simp] theorem setInLatch_initialized (l : Bool) (s : State) : (setInLatch l s).initialized = s.initialized := by simp [setInLatch]
@[simp] theorem setInLatch_faulted (l : Bool) (s : State) : (setInLatch l s).faulted = s.faulted := by simp [setInLatch]
@[simp] theorem setInLatch_refused (l : Bool) (s : State) : (setInLatch l s).refused = s.refused := by simp [setInLatch]
@[simp] theorem setInLatch_sched (l : Bool) (s : State) : (setInLatch l s).sched = s.sched := by simp [setInLatch]

@[simp] theorem setOutLatch_cfg (l : Bool) (s : State) : (setOutLatch l s).cfg = s.cfg := by simp [setOutLatch]
@[simp] theorem setOutLatch_mode (l : Bool) (s : State) : (setOutLatch l s).mode = s.mode := by simp [setOutLatch]
@[simp] theorem setOutLatch_instructionStep (l : Bool) (s : State) : (setOutLatch l s).instructionStep = s.instructionStep := by simp [setOutLatch]
@[simp] theorem setOutLatch_controlWord (l : Bool) (s : State) : (setOutLatch l s).controlWord = s.controlWord := by simp [setOutLatch]
@[simp] theorem setOutLatch_instruction (l : Bool) (s : State) : (setOutLatch l s).instruction = s.instruction := by simp [setOutLatch]
@[simp] theorem setOutLatch_flags (l : Bool) (s : State) : (setOutLatch l s).flags = s.flags := by simp [setOutLatch]
@[simp] theorem setOutLatch_loader (l : Bool) (s : State) : (setOutLatch l s).loader = s.loader := by simp [setOutLatch]
@[simp] theorem setOutLatch_rom (l : Bool) (s : State) : (setOutLatch l s).rom = s.rom := by simp [setOutLatch]
@[simp] theorem setOutLatch_lines (l : Bool) (s : State) : (setOutLatch l s).lines = { s.lines with outLatch := l } := by simp [setOutLatch]
@[simp] theorem setOutLatch_chains (l : Bool) (s : State) : (setOutLatch l s).chains = if l && !s.lines.outLatch then latchOutputs s else s.chains := by simp [setOutLatch]
@[simp] theorem setOutLatch_inParallel (l : Bool) (s : State) : (setOutLatch l s).inParallel = s.inParallel := by simp [setOutLatch]
@[simp] theorem setOutLatch_board (l : Bool) (s : State) : (setOutLatch l s).board = s.board := by simp [setOutLatch]
@[simp] theorem setOutLatch_todo (l : Bool) (s : State) : (setOutLatch l s).todo = s.todo := by simp [setOutLatch]
@[simp] theorem setOutLatch_locals (l : Bool) (s : State) : (setOutLatch l s).locals = s.locals := by simp [setOutLatch]
@[simp] theorem setOutLatch_reply (l : Bool) (s : State) : (setOutLatch l s).reply = s.reply := by simp [setOutLatch]
@[simp] theorem setOutLatch_initialized (l : Bool) (s : State) : (setOutLatch l s).initialized = s.initialized := by simp [setOutLatch]
@[simp] theorem setOutLatch_faulted (l : Bool) (s : State) : (setOutLatch l s).faulted = s.faulted := by simp [setOutLatch]
@[simp] theorem setOutLatch_refused (l : Bool) (s : State) : (setOutLatch l s).refused = s.refused := by simp [setOutLatch]
@[simp] theorem setOutLatch_sched (l : Bool) (s : State) : (setOutLatch l s).sched = s.sched := by simp [setOutLatch]

/-- Every operation on a pin writes only the lines, the chains and the clock line's state. -/
theorem setPin_eq (p : Pin) (l : Bool) (s : State) :
    setPin p l s = ((s.setLines (setPin p l s).lines).setChains (setPin p l s).chains).setEdges (setPin p l s).edges := by
  cases p <;> simp only [setPin, setSclk, setInLatch, setOutLatch] <;> rw [lineChanged_eq] <;> rfl

@[simp] theorem setPin_cfg (p : Pin) (l : Bool) (s : State) : (setPin p l s).cfg = s.cfg := by rw [setPin_eq]; rfl
@[simp] theorem setPin_mode (p : Pin) (l : Bool) (s : State) : (setPin p l s).mode = s.mode := by rw [setPin_eq]; rfl
@[simp] theorem setPin_instructionStep (p : Pin) (l : Bool) (s : State) : (setPin p l s).instructionStep = s.instructionStep := by rw [setPin_eq]; rfl
@[simp] theorem setPin_controlWord (p : Pin) (l : Bool) (s : State) : (setPin p l s).controlWord = s.controlWord := by rw [setPin_eq]; rfl
@[simp] theorem setPin_instruction (p : Pin) (l : Bool) (s : State) : (setPin p l s).instruction = s.instruction := by rw [setPin_eq]; rfl
@[simp] theorem setPin_flags (p : Pin) (l : Bool) (s : State) : (setPin p l s).flags = s.flags := by rw [setPin_eq]; rfl
@[simp] theorem setPin_loader (p : Pin) (l : Bool) (s : State) : (setPin p l s).loader = s.loader := by rw [setPin_eq]; rfl
@[simp] theorem setPin_rom (p : Pin) (l : Bool) (s : State) : (setPin p l s).rom = s.rom := by rw [setPin_eq]; rfl
@[simp] theorem setPin_inParallel (p : Pin) (l : Bool) (s : State) : (setPin p l s).inParallel = s.inParallel := by rw [setPin_eq]; rfl
@[simp] theorem setPin_board (p : Pin) (l : Bool) (s : State) : (setPin p l s).board = s.board := by rw [setPin_eq]; rfl
@[simp] theorem setPin_todo (p : Pin) (l : Bool) (s : State) : (setPin p l s).todo = s.todo := by rw [setPin_eq]; rfl
@[simp] theorem setPin_locals (p : Pin) (l : Bool) (s : State) : (setPin p l s).locals = s.locals := by rw [setPin_eq]; rfl
@[simp] theorem setPin_reply (p : Pin) (l : Bool) (s : State) : (setPin p l s).reply = s.reply := by rw [setPin_eq]; rfl
@[simp] theorem setPin_initialized (p : Pin) (l : Bool) (s : State) : (setPin p l s).initialized = s.initialized := by rw [setPin_eq]; rfl
@[simp] theorem setPin_faulted (p : Pin) (l : Bool) (s : State) : (setPin p l s).faulted = s.faulted := by rw [setPin_eq]; rfl
@[simp] theorem setPin_refused (p : Pin) (l : Bool) (s : State) : (setPin p l s).refused = s.refused := by rw [setPin_eq]; rfl
@[simp] theorem setPin_sched (p : Pin) (l : Bool) (s : State) : (setPin p l s).sched = s.sched := by rw [setPin_eq]; rfl

/-- A statement of `Main` on a field of the mode state machine goes ahead. -/
@[simp] theorem touchModeMachine_main (f : ModeField) (t : State) : touchModeMachine .main f t = .next t := rfl

/-- A statement on a field of the mode state machine that goes ahead is not the `Producer`'s. -/
theorem touchModeMachine_cases {a : Agent} {f : ModeField} {t u : State} (h : touchModeMachine a f t = .next u) :
    a ≠ .producer ∧ u = t := by
  unfold touchModeMachine at h
  split at h
  · cases h
  · cases h
    exact ⟨by assumption, rfl⟩

/-- A wait-free bus call either stops with M2 or M3 or puts its statements before the rest of the call. -/
theorem startBusCall_cases {a : Agent} {call : BusCall} {ops : List Op} {s t : State}
    (h : startBusCall a call ops s = .next t) :
    a ≠ .producer ∧ s.lines.dataDir = .input ∧ t = s.push ops := by
  unfold startBusCall at h
  split at h
  · cases h
  · split at h
    · cases h
    · cases h
      exact ⟨by assumption, by assumption, rfl⟩

/-- A call by `Main` while DATA is an input goes ahead. -/
theorem startBusCall_main {call : BusCall} {ops : List Op} {s : State} (h : s.lines.dataDir = .input) :
    startBusCall .main call ops s = .next (s.push ops) := by
  simp [startBusCall, h]

end Sys2Proof.Machine
end

