-- ==== Sys2Proof/Laws/Run.lean ====
section
/-! SUPPORT. Running `Main` for several turns: the statements that only move lines and bits run one a turn, and what a whole
`Sample` or `Drive` leaves is the fold of its statements. -/

namespace Sys2Proof.Machine

/-- The statements that move lines and bits only. -/
def Op.onLines : Op → Bool
  | .dir _ | .pin _ _ | .data _ | .delay _ | .clearAcc | .readBit | .storeOut0 | .storeOut1 => true
  | .sample _ | .drive _ _ | .takeOpcode | .takeFlags | .wrapStep | .dispatch | .incStep | .zeroStep => false
  | .storeResetWord | .clearLoader | .stageByte | .finishPhaseA | .finishPhaseB => false
  | .pollFalling | .pollRising | .onFalling | .onRising | .commitMode _ | .ret _ => false

/-- What such a statement does. -/
def lineStep (s : State) : Op → State
  | .dir d => setDir d s
  | .pin p l => setPin p l s
  | .data l => setData l s
  | .clearAcc => s.setLocals { s.locals with acc := 0#8 }
  | .readBit => readBit s
  | .storeOut0 => s.setLocals { s.locals with out0 := s.locals.acc }
  | .storeOut1 => s.setLocals { s.locals with out1 := s.locals.acc }
  | _ => s

theorem perform_onLines {op : Op} (h : op.onLines = true) (s : State) : perform op s = .next (lineStep s op) := by
  cases op <;> first | rfl | cases h

/-- The state with these statements left to run, the core's turn for `n` moves, and `after` to follow. -/
def State.poised (s : State) (ops : List Op) (n : Nat) (after : List Move) : State :=
  (s.setTodo ops).setSched { s.sched with script := List.replicate n .core ++ after }

theorem State.poised_self {s : State} {ops : List Op} {n : Nat} {after : List Move} (h1 : s.todo = ops)
    (h2 : s.coreTurns n after) : s.poised ops n after = s := by
  obtain ⟨⟩ := s
  unfold State.coreTurns at h2
  simp only at h1 h2
  subst h1
  simp only [State.poised, State.setTodo, State.setSched, ← h2]

theorem State.undisturbed_poised {s : State} (ops : List Op) (n : Nat) (after : List Move) (h : s.undisturbed) :
    (s.poised ops n after).undisturbed := h

/-- A turn of the core is a statement of `Main` where nothing disturbs it. -/
theorem step_poised {s t : State} {op : Op} {ops : List Op} {n : Nat} {after : List Move} (h : s.undisturbed)
    (hp : perform op (s.poised ops n after) = .next t) : step (s.poised (op :: ops) (n + 1) after) = .next t := by
  obtain ⟨⟨h1, h2⟩, h3, h4⟩ := h
  have e : consumeMove (s.poised (op :: ops) (n + 1) after) = s.poised (op :: ops) n after := rfl
  have e2 : (s.poised (op :: ops) n after).setTodo ops = s.poised ops n after := rfl
  have e3 : (s.poised (op :: ops) n after).todo = op :: ops := rfl
  have e4 : (s.poised (op :: ops) n after).edges.irqPending = false := h3
  have e5 : nextMove (s.poised (op :: ops) (n + 1) after) = .core := rfl
  have e6 : (s.poised (op :: ops) (n + 1) after).faulted = none := h1
  have e7 : (s.poised (op :: ops) (n + 1) after).refused = none := h2
  simp only [step, e6, e7, e5, takeMove, e, coreStep, e4, mainStep, e3, e2, hp, recordStop]
  rfl

theorem run_step {s t u : State} {n : Nat} (h : step s = .next t) (hr : Host.Core.run Sys2Proof.core n t = .next u) :
    Host.Core.run Sys2Proof.core (n + 1) s = .next u := by
  have e : Sys2Proof.core.step s = .next t := h
  simp only [Host.Core.run]
  rw [e]
  exact hr

theorem run_trans {s t u : State} {m : Nat} (n : Nat) (h : Host.Core.run Sys2Proof.core n s = .next t)
    (hr : Host.Core.run Sys2Proof.core m t = .next u) : Host.Core.run Sys2Proof.core (n + m) s = .next u := by
  induction n generalizing s with
  | zero => cases h; simpa using hr
  | succ n ih =>
    rw [Nat.succ_add]
    simp only [Host.Core.run] at h
    split at h
    · rename_i s' hs
      exact run_step hs (ih h)
    · cases h
    · cases h

/-- A statement that moves lines reads and writes neither what is left to run nor the schedule. -/
theorem lineStep_poised {s : State} (op : Op) (ops : List Op) (n : Nat) (after : List Move)
    (hs : s.cfg.clkSharesData = false) : lineStep (s.poised ops n after) op = (lineStep s op).poised ops n after := by
  cases op with
  | dir d => simp [lineStep, setDir, lineChanged, hs, State.poised, State.setTodo, State.setSched, State.setLines, State.setChains]
  | data l => simp [lineStep, setData, lineChanged, hs, State.poised, State.setTodo, State.setSched, State.setLines]
  | pin p l =>
    cases p <;> simp [lineStep, setPin, setSclk, setInLatch, setOutLatch, lineChanged, hs, State.poised, State.setTodo,
      State.setSched, State.setLines, State.setChains, shiftChains, captureInputs, latchOutputs, dataLine, presented]
    rfl
  | _ => rfl

theorem lineStep_undisturbed {s : State} (op : Op) (h : s.undisturbed) : (lineStep s op).undisturbed := by
  obtain ⟨⟨h1, h2⟩, h3, h4⟩ := h
  cases op with
  | dir d => exact ⟨⟨by simpa [lineStep] using h1, by simpa [lineStep] using h2⟩,
      by simp [lineStep, setDir, h4, h3], by simpa [lineStep] using h4⟩
  | data l => exact ⟨⟨by simpa [lineStep] using h1, by simpa [lineStep] using h2⟩,
      by simp [lineStep, setData, h4, h3], by simpa [lineStep] using h4⟩
  | pin p l => exact ⟨⟨by simpa [lineStep] using h1, by simpa [lineStep] using h2⟩,
      by cases p <;> simp [lineStep, setPin, setSclk, setInLatch, setOutLatch, h4, h3], by simpa [lineStep] using h4⟩
  | _ => exact ⟨⟨h1, h2⟩, h3, h4⟩

/-- A run of such statements, one a turn, is their fold. -/
theorem run_onLines {s : State} (l ops : List Op) (n : Nat) (after : List Move) (h : s.undisturbed)
    (hl : l.all Op.onLines = true) :
    Host.Core.run Sys2Proof.core l.length (s.poised (l ++ ops) (l.length + n) after)
      = .next ((l.foldl lineStep s).poised ops n after) := by
  induction l generalizing s with
  | nil => simp [Host.Core.run]
  | cons op l ih =>
    simp only [List.all_cons, Bool.and_eq_true] at hl
    have hp : perform op (s.poised (l ++ ops) (l.length + n) after)
        = .next ((lineStep s op).poised (l ++ ops) (l.length + n) after) := by
      rw [perform_onLines hl.1, lineStep_poised _ _ _ _ h.2.2]
    have hstep := step_poised (ops := l ++ ops) h hp
    have hn : (op :: l).length + n = l.length + n + 1 := by simp; omega
    rw [hn]
    exact run_step hstep (ih (lineStep_undisturbed op h) hl.2)

/-! ### What the folds come to -/

theorem foldl_pulse {s : State} (cfg : Config) (hs : s.cfg.clkSharesData = false) (hc : s.lines.sclk = false) :
    (pulseOps cfg).foldl lineStep s = s.setChains (shiftChains s) := by
  have e : { s.lines with sclk := false } = s.lines := by
    cases hl : s.lines; simp_all
  simp [pulseOps, lineStep, setPin, setSclk, lineChanged, hs, hc]
  simp only [State.setChains, State.setLines]
  rw [e]

theorem foldl_sendBit {s : State} (cfg : Config) (b : Bool) (hs : s.cfg.clkSharesData = false)
    (hc : s.lines.sclk = false) (hd : s.lines.dataDir = .output) :
    (sendBitOps cfg b).foldl lineStep s = (s.setLines { s.lines with dataOut := b }).setChains
      { s.chains with inShift := s.chains.inShift.shiftConcat s.chains.inSerial
                      outShift := s.chains.outShift.shiftConcat b } := by
  have h1 : lineStep s (.data b) = s.setLines { s.lines with dataOut := b } := by
    simp [lineStep, setData, lineChanged, hs]
  rw [sendBitOps, List.foldl_cons, h1, foldl_pulse cfg (by simpa using hs) (by simpa using hc)]
  simp [shiftChains, dataLine, hd]

/-- The chains after a list of bits has been sent. -/
def sentChains (bits : List Bool) (c : Chains) : Chains :=
  { c with inShift := bits.foldl (fun x _ => x.shiftConcat c.inSerial) c.inShift
           outShift := bits.foldl (fun x b => x.shiftConcat b) c.outShift }

theorem foldl_sendBits {s : State} (cfg : Config) (bits : List Bool) (hs : s.cfg.clkSharesData = false)
    (hc : s.lines.sclk = false) (hd : s.lines.dataDir = .output) :
    (bits.flatMap (sendBitOps cfg)).foldl lineStep s =
      (s.setLines { s.lines with dataOut := bits.getLastD s.lines.dataOut }).setChains (sentChains bits s.chains) := by
  induction bits generalizing s with
  | nil => rfl
  | cons b bits ih =>
    rw [List.flatMap_cons, List.foldl_append, foldl_sendBit cfg b hs hc hd, ih (by simpa using hs) (by simpa using hc) (by simpa using hd)]
    cases bits <;> rfl

end Sys2Proof.Machine
end

