-- ==== Sys2Proof/Laws/Bus.lean ====
section
/-! SUPPORT. What a whole `Sample` and a whole `Drive` come to, as folds of their statements (41_bus_protocol.md R152, R155). -/

namespace Sys2Proof.Machine

/-- A bit of what a run of left shifts leaves: one of the bits shifted in, or a bit of what stood there. -/
theorem getLsbD_foldl {w : Nat} (l : List Bool) (x : BitVec w) (i : Nat) (hi : i < w) :
    (l.foldl (fun x b => x.shiftConcat b) x).getLsbD i =
      if i < l.length then l.getD (l.length - 1 - i) false else x.getLsbD (i - l.length) := by
  induction l generalizing x with
  | nil => simp
  | cons b l ih =>
    rw [List.foldl_cons, ih]
    simp only [List.length_cons]
    by_cases h1 : i < l.length
    · rw [if_pos h1, if_pos (by omega), show l.length + 1 - 1 - i = (l.length - 1 - i) + 1 by omega, List.getD_cons_succ]
    · rw [if_neg h1, BitVec.getLsbD_shiftConcat]
      by_cases h2 : i = l.length
      · subst h2
        simp [Nat.zero_lt_of_lt hi]
      · have h4 : i - l.length < w := by omega
        rw [if_neg (by omega), if_neg (by omega)]
        simp [h4, Nat.sub_sub]

/-- R90: sending the 24 bits of a frame leaves the frame. -/
theorem foldl_frameBits (f : Frame) (x : Frame) : (frameBits f).foldl (fun x b => x.shiftConcat b) x = f := by
  apply BitVec.eq_of_getLsbD_eq
  intro i hi
  rw [getLsbD_foldl _ _ _ hi]
  have h : 23 - i < 24 := by omega
  simp only [frameBits, List.length_map, List.length_range, hi, if_true, List.getD_eq_getElem?_getD, List.getElem?_map]
  rw [List.getElem?_range (by omega)]
  simp only [Option.map_some, Option.getD_some, BitVec.getMsbD]
  rw [show 24 - 1 - (24 - 1 - i) = i by omega]
  simp [h]

/-! ### The statements of a `Drive` and a `Sample` -/

theorem driveOps_length (cfg : Config) (cw : Word) (bus : Byte) : (driveOps cfg cw bus).length = 124 := rfl

theorem sampleOps_length1 (cfg : Config) : (sampleOps cfg .one).length = 46 := by
  cases h : cfg.readBeforePulse <;> simp [sampleOps, readByteOps, readBitOps, pulseOps, h, List.replicate]

theorem sampleOps_length2 (cfg : Config) : (sampleOps cfg .two).length = 88 := by
  cases h : cfg.readBeforePulse <;> simp [sampleOps, readByteOps, readBitOps, pulseOps, h, List.replicate]

/-- They only move lines and bits. -/
theorem onLines_drive (cfg : Config) (cw : Word) (bus : Byte) : (driveOps cfg cw bus).all Op.onLines = true := by
  simp [driveOps, sendBitOps, pulseOps, Op.onLines, frameBits, List.range, List.range.loop]

theorem onLines_sample (cfg : Config) (n : SampleSize) : (sampleOps cfg n).all Op.onLines = true := by
  cases h : cfg.readBeforePulse <;> cases n <;>
    simp [sampleOps, readByteOps, readBitOps, pulseOps, h, List.replicate, Op.onLines]

/-- R155 to R157: the state after a `Drive`. -/
def afterDrive (cw : Word) (bus : Byte) (s : State) : State :=
  let f := s.cfg.frame cw bus
  (s.setLines
    { dataDir := .input, dataOut := (frameBits f).getLastD s.lines.dataOut, sclk := false,
      inLatch := s.lines.inLatch, outLatch := true }).setChains
    { inShift := (frameBits f).foldl (fun x _ => x.shiftConcat s.chains.inSerial) s.chains.inShift,
      inSerial := s.chains.inSerial, sampling := false, outShift := f, outVisible := f }

/-- A `Drive` from rest, where CLK_IN is a line of its own. -/
theorem foldl_drive (s : State) (cw : Word) (bus : Byte) (hs : s.cfg.clkSharesData = false) (hr : s.lines.atRest s.cfg) :
    (driveOps s.cfg cw bus).foldl lineStep s = afterDrive cw bus s := by
  obtain ⟨r1, r2, r3, r4⟩ := hr
  rw [driveOps, List.foldl_append, List.foldl_append, List.foldl_cons, List.foldl_cons, List.foldl_nil]
  rw [foldl_sendBits]
  · simp only [lineStep, setPin, setOutLatch, setDir, List.foldl_cons, List.foldl_nil]
    simp [lineChanged, hs, latchOutputs, sentChains, afterDrive, r2, foldl_frameBits]
    simp only [State.setLines, State.setChains]
  · simpa [lineStep] using hs
  · simpa [lineStep, setPin, setOutLatch] using r2
  · simp [lineStep, setPin, setOutLatch]

/-- R159: a `Drive` brings the lines back to rest. -/
theorem afterDrive_rest {s : State} (cw : Word) (bus : Byte) (hr : s.lines.atRest s.cfg) :
    (afterDrive cw bus s).lines.atRest s.cfg :=
  ⟨rfl, rfl, hr.2.2.1, rfl⟩

/-- R153: while DATA is an input it shows the input chain's bit. -/
theorem dataLine_input {s : State} (h1 : s.lines.dataDir = .input) (h2 : s.cfg.clkSharesData = false) :
    dataLine s = s.chains.inShift.msb := by simp [dataLine, h1, h2]

/-- R152: the state after one bit of a `Sample`, read before its pulse. -/
def afterBit (s : State) : State :=
  (s.setLocals { s.locals with acc := s.locals.acc.shiftConcat s.chains.inShift.msb }).setChains
    { s.chains with inShift := s.chains.inShift.shiftConcat s.chains.inSerial,
                    outShift := s.chains.outShift.shiftConcat s.chains.inShift.msb }

theorem foldl_readBit {s : State} (hb : s.cfg.readBeforePulse = true) (hs : s.cfg.clkSharesData = false)
    (hc : s.lines.sclk = false) (hd : s.lines.dataDir = .input) : (readBitOps s.cfg).foldl lineStep s = afterBit s := by
  have h1 : lineStep s .readBit = s.setLocals { s.locals with acc := s.locals.acc.shiftConcat s.chains.inShift.msb } := by
    simp [lineStep, readBit, dataLine_input hd hs]
  rw [readBitOps, if_pos hb, List.foldl_cons, h1, foldl_pulse s.cfg (by simpa using hs) (by simpa using hc)]
  simp [shiftChains, dataLine_input, hd, hs, afterBit]

theorem foldl_readBits {s : State} (n : Nat) (hb : s.cfg.readBeforePulse = true) (hs : s.cfg.clkSharesData = false)
    (hc : s.lines.sclk = false) (hd : s.lines.dataDir = .input) :
    ((List.replicate n (readBitOps s.cfg)).flatten).foldl lineStep s = afterBit^[n] s := by
  induction n generalizing s with
  | zero => rfl
  | succ n ih =>
    rw [List.replicate_succ, List.flatten_cons, List.foldl_append, foldl_readBit hb hs hc hd, Function.iterate_succ_apply]
    exact ih (s := afterBit s) hb hs hc hd

/-- The input chain after `n` reads, and the bits read. -/
theorem afterBit_iterate (n : Nat) (hn : n ≤ 16) (s : State) :
    (afterBit^[n] s).chains.inSerial = s.chains.inSerial
    ∧ (afterBit^[n] s).chains.inShift
      = (List.replicate n s.chains.inSerial).foldl (fun x b => x.shiftConcat b) s.chains.inShift
    ∧ (afterBit^[n] s).locals.acc
      = ((List.range n).map (fun k => s.chains.inShift.getLsbD (15 - k))).foldl (fun x b => x.shiftConcat b)
          s.locals.acc := by
  induction n with
  | zero => exact ⟨rfl, rfl, rfl⟩
  | succ n ih =>
    obtain ⟨h1, h2, h3⟩ := ih (by omega)
    rw [Function.iterate_succ_apply']
    have hm : (afterBit^[n] s).chains.inShift.msb = s.chains.inShift.getLsbD (15 - n) := by
      rw [h2, BitVec.msb_eq_getLsbD_last, getLsbD_foldl _ _ _ (by decide), if_neg (by simp; omega)]
      simp
    refine ⟨h1, ?_, ?_⟩
    · show (afterBit^[n] s).chains.inShift.shiftConcat (afterBit^[n] s).chains.inSerial = _
      rw [h1, h2, List.replicate_succ', List.foldl_append]
      rfl
    · show (afterBit^[n] s).locals.acc.shiftConcat (afterBit^[n] s).chains.inShift.msb = _
      rw [hm, h3, List.range_succ, List.map_append, List.foldl_append]
      rfl

/-- Eight reads take the chain's upper byte. -/
theorem acc_eight (s : State) : (afterBit^[8] s).locals.acc = s.chains.inShift.extractLsb' 8 8 := by
  rw [(afterBit_iterate 8 (by decide) s).2.2]
  apply BitVec.eq_of_getLsbD_eq
  intro i hi
  rw [getLsbD_foldl _ _ _ hi]
  simp only [List.length_map, List.length_range, hi, if_true, List.getD_eq_getElem?_getD, List.getElem?_map]
  rw [List.getElem?_range (by omega), BitVec.getLsbD_extractLsb']
  simp only [Option.map_some, Option.getD_some, hi, decide_true, Bool.true_and]
  rw [show 15 - (8 - 1 - i) = 8 + i by omega]

/-- Eight reads bring the chain's lower byte up. -/
theorem inShift_eight (s : State) :
    ((afterBit^[8] s).chains.inShift).extractLsb' 8 8 = s.chains.inShift.extractLsb' 0 8 := by
  rw [(afterBit_iterate 8 (by decide) s).2.1]
  apply BitVec.eq_of_getLsbD_eq
  intro i hi
  rw [BitVec.getLsbD_extractLsb', BitVec.getLsbD_extractLsb', getLsbD_foldl _ _ _ (by omega)]
  simp

/-- `t` differs from `s` only in the lines, the chains and `Sample`'s locals, and shows the same outputs. -/
structure Quiet (s t : State) : Prop where
  frame : t = { s with lines := t.lines, chains := t.chains, locals := t.locals }
  vis : t.chains.outVisible = s.chains.outVisible

theorem Quiet.trans {s t u : State} (h : Quiet s t) (k : Quiet t u) : Quiet s u := by
  refine ⟨?_, k.vis.trans h.vis⟩
  have := k.frame
  rw [h.frame] at this
  exact this

theorem Quiet.undisturbed {s t : State} (h : Quiet s t) (u : s.undisturbed) : t.undisturbed := by
  rw [h.frame]; exact u

theorem quiet_bit (s : State) : Quiet s (afterBit s) := ⟨rfl, rfl⟩

theorem quiet_bits (n : Nat) (s : State) : Quiet s (afterBit^[n] s) ∧ (afterBit^[n] s).lines = s.lines
    ∧ (afterBit^[n] s).locals.out0 = s.locals.out0 ∧ (afterBit^[n] s).locals.out1 = s.locals.out1 := by
  induction n generalizing s with
  | zero => exact ⟨⟨rfl, rfl⟩, rfl, rfl, rfl⟩
  | succ n ih =>
    rw [Function.iterate_succ_apply]
    obtain ⟨a, b, c, d⟩ := ih (afterBit s)
    exact ⟨(quiet_bit s).trans a, b, c, d⟩

/-- Everything eight reads do. -/
theorem eight_bits (s : State) : ∃ u, afterBit^[8] s = u ∧ Quiet s u ∧ u.lines = s.lines ∧ u.locals.out0 = s.locals.out0
    ∧ u.locals.out1 = s.locals.out1 ∧ u.locals.acc = s.chains.inShift.extractLsb' 8 8
    ∧ u.chains.inShift.extractLsb' 8 8 = s.chains.inShift.extractLsb' 0 8 := by
  obtain ⟨a, b, c, d⟩ := quiet_bits 8 s
  exact ⟨_, rfl, a, b, c, d, acc_eight s, inShift_eight s⟩

/-- R152: the state after the latch of a `Sample`. -/
def captured (s : State) : State :=
  s.setChains { s.chains with inShift := (presented s).opcode ++ (presented s).flags, sampling := true }

theorem foldl_capture {s : State} (hs : s.cfg.clkSharesData = false) (hr : s.lines.inLatch = s.cfg.inLatchRest) :
    [Op.pin .inLatch s.cfg.inLatchActive, .delay s.cfg.tPulse, .pin .inLatch s.cfg.inLatchRest].foldl lineStep s
      = captured s := by
  have e : { s.lines with inLatch := s.cfg.inLatchRest } = s.lines := by rw [← hr]
  simp [lineStep, setPin, setInLatch, lineChanged, hs, hr, Config.inLatchRest, captureInputs, captured]
  simp only [State.setChains, State.setLines]
  simp only [Config.inLatchRest] at e
  rw [e]

theorem foldl_byte {s : State} (store : Op) (hb : s.cfg.readBeforePulse = true) (hs : s.cfg.clkSharesData = false)
    (hc : s.lines.sclk = false) (hd : s.lines.dataDir = .input) :
    (readByteOps s.cfg store).foldl lineStep s =
      lineStep (afterBit^[8] (s.setLocals { s.locals with acc := 0#8 })) store := by
  have := foldl_readBits (s := s.setLocals { s.locals with acc := 0#8 }) 8 hb hs hc hd
  rw [readByteOps, List.foldl_append]
  exact congrArg (fun u => lineStep u store) this

/-- The first byte of a `Sample`: the chain's upper byte, the lower one coming up. -/
theorem foldl_byte0 {s : State} (hb : s.cfg.readBeforePulse = true) (hs : s.cfg.clkSharesData = false)
    (hc : s.lines.sclk = false) (hd : s.lines.dataDir = .input) :
    ∃ t, (readByteOps s.cfg .storeOut0).foldl lineStep s = t ∧ Quiet s t ∧ t.lines = s.lines
      ∧ t.locals.out0 = s.chains.inShift.extractLsb' 8 8 ∧ t.locals.out1 = s.locals.out1
      ∧ t.chains.inShift.extractLsb' 8 8 = s.chains.inShift.extractLsb' 0 8 := by
  obtain ⟨u, hu, a, b, -, d, e, f⟩ := eight_bits (s.setLocals { s.locals with acc := 0#8 })
  have q : Quiet s (s.setLocals { s.locals with acc := 0#8 }) := ⟨rfl, rfl⟩
  refine ⟨lineStep u .storeOut0, ?_, (q.trans a).trans ⟨rfl, rfl⟩, b, e, d, f⟩
  rw [foldl_byte .storeOut0 hb hs hc hd, hu]

/-- The second byte of a `Sample`. -/
theorem foldl_byte1 {s : State} (hb : s.cfg.readBeforePulse = true) (hs : s.cfg.clkSharesData = false)
    (hc : s.lines.sclk = false) (hd : s.lines.dataDir = .input) :
    ∃ t, (readByteOps s.cfg .storeOut1).foldl lineStep s = t ∧ Quiet s t ∧ t.lines = s.lines
      ∧ t.locals.out1 = s.chains.inShift.extractLsb' 8 8 ∧ t.locals.out0 = s.locals.out0 := by
  obtain ⟨u, hu, a, b, c, -, e, -⟩ := eight_bits (s.setLocals { s.locals with acc := 0#8 })
  have q : Quiet s (s.setLocals { s.locals with acc := 0#8 }) := ⟨rfl, rfl⟩
  refine ⟨lineStep u .storeOut1, ?_, (q.trans a).trans ⟨rfl, rfl⟩, b, e, c⟩
  rw [foldl_byte .storeOut1 hb hs hc hd, hu]

/-- The two bytes of a latched input chain (R54). -/
theorem split0 (a b : Byte) : (a ++ b).extractLsb' 8 8 = a := by
  apply BitVec.eq_of_getLsbD_eq
  intro i hi
  interval_cases i <;> (simp [BitVec.getElem_extractLsb']; erw [BitVec.getElem_append]; simp)

theorem split1 (a b : Byte) : (a ++ b).extractLsb' 0 8 = b := by
  apply BitVec.eq_of_getLsbD_eq
  intro i hi
  interval_cases i <;> (simp [BitVec.getElem_extractLsb']; erw [BitVec.getElem_append]; simp)

theorem quiet_cfg {s t : State} (h : Quiet s t) : t.cfg = s.cfg := by rw [h.frame]

theorem quiet_dir {s : State} (hs : s.cfg.clkSharesData = false) (hd : s.lines.dataDir = .input) :
    Quiet s (setDir .input s) ∧ (setDir .input s).lines = s.lines ∧ (setDir .input s).locals = s.locals := by
  refine ⟨⟨?_, by simp [setDir]⟩, ?_, ?_⟩
  · simp [setDir, lineChanged, hs]; rfl
  · simp [setDir]; cases h : s.lines; simp_all
  · simp [setDir]

/-- A `Sample` from rest, where CLK_IN is a line of its own. -/
theorem foldl_sample {s : State} (n : SampleSize) (hb : s.cfg.readBeforePulse = true) (hs : s.cfg.clkSharesData = false)
    (hr : s.lines.atRest s.cfg) :
    ∃ t, (sampleOps s.cfg n).foldl lineStep s = t ∧ Quiet s t ∧ t.lines = s.lines ∧ t.locals.out0 = (presented s).opcode
      ∧ (n = .two → t.locals.out1 = (presented s).flags) := by
  obtain ⟨r1, r2, r3, r4⟩ := hr
  obtain ⟨t, h1, h2, h3, h4, h5, h6⟩ := foldl_byte0 (s := captured s) hb hs r2 r1
  have hc : Quiet s (captured s) := ⟨rfl, rfl⟩
  have hct := quiet_cfg (hc.trans h2)
  have e4 : t.locals.out0 = (presented s).opcode := by rw [h4]; exact split0 _ _
  have l1 : t.lines = s.lines := h3
  have e6 : t.chains.inShift.extractLsb' 8 8 = (presented s).flags := by rw [h6]; exact split1 _ _
  have l0 : t.lines.dataDir = .input := by rw [l1]; exact r1
  have l2 : t.lines.sclk = false := by rw [l1]; exact r2
  have t1 : t.cfg.clkSharesData = false := by rw [hct]; exact hs
  have t2 : t.cfg.readBeforePulse = true := by rw [hct]; exact hb
  have hf : ∀ rest, ([Op.pin .inLatch s.cfg.inLatchActive, .delay s.cfg.tPulse, .pin .inLatch s.cfg.inLatchRest]
      ++ readByteOps s.cfg .storeOut0 ++ rest).foldl lineStep s = rest.foldl lineStep t := by
    intro rest
    rw [List.foldl_append, List.foldl_append, foldl_capture hs r3]
    exact congrArg (fun u => List.foldl lineStep u rest) h1
  cases n with
  | one =>
    obtain ⟨q1, q2, q3⟩ := quiet_dir (s := t) t1 l0
    refine ⟨setDir .input t, ?_, (hc.trans h2).trans q1, q2.trans l1, (congrArg Locals.out0 q3).trans e4, by simp⟩
    have := hf [.dir .input]
    simp only [sampleOps, List.append_nil]
    exact this
  | two =>
    obtain ⟨u, k1, k2, k3, k4, k5⟩ := foldl_byte1 (s := t) t2 t1 l2 l0
    rw [hct] at k1
    have ku := quiet_cfg ((hc.trans h2).trans k2)
    obtain ⟨q1, q2, q3⟩ := quiet_dir (s := u) (by rw [ku]; exact hs) (by rw [k3]; exact l0)
    refine ⟨setDir .input u, ?_, ((hc.trans h2).trans k2).trans q1, by rw [q2, k3, l1], by rw [q3, k5, e4],
      fun _ => by rw [q3, k4, e6]⟩
    have := hf (readByteOps s.cfg .storeOut1 ++ [.dir .input])
    rw [List.foldl_append (l := readByteOps s.cfg .storeOut1), k1, ← List.append_assoc] at this
    exact this

end Sys2Proof.Machine
end

