-- ==== Sys2Proof/Laws/Perform.lean ====
section
/-! SUPPORT. What no statement of `Main` writes, and what a statement that starts a microcode lookup does. -/

namespace Sys2Proof.Machine

/-- Every instruction's meaning is the micro-step of its opcode. -/
theorem exec_eq (i : Instr) (s : State) : exec i s = microStep (s.cfg.opcodeOf i) s := by
  cases i <;> rfl

/-- Where a micro-step completes, it has found a word, stored it, and put its drive before the rest of the call. -/
theorem microStep_next {op : Byte} {s t : State} (h : microStep op s = .next t) :
    ∃ w, lookupWord op s.instructionStep s = .next w ∧ t = (s.setWord w).push [.drive w 0#8, .incStep] := by
  unfold microStep at h
  split at h
  · cases h
    exact ⟨_, by assumption, rfl⟩
  · cases h
  · cases h

/-- What `reset()` stores is a word, and nothing else changes. -/
theorem storeResetWord_next {s t : State} (h : storeResetWord s = .next t) : ∃ w, t = s.setWord w := by
  unfold storeResetWord at h
  split at h
  · cases h
    exact ⟨_, rfl⟩
  · split at h
    · cases h
      exact ⟨_, rfl⟩
    · cases h
    · cases h

/-- A `Sample` or a `Drive` that goes ahead puts its statements before the rest of the call. -/
theorem perform_sample_next {n : SampleSize} {s t : State} (h : perform (.sample n) s = .next t) :
    s.lines.dataDir = .input ∧ t = s.push (sampleOps s.cfg n) :=
  (startBusCall_cases (a := .main) (call := .sample) h).2

theorem perform_drive_next {cw : Word} {bus : Byte} {s t : State} (h : perform (.drive cw bus) s = .next t) :
    s.lines.dataDir = .input ∧ t = s.push (driveOps s.cfg cw bus) :=
  (startBusCall_cases (a := .main) (call := .drive) h).2

/-- The fields no statement of `Main` writes. -/
structure Kept (s t : State) : Prop where
  cfg : t.cfg = s.cfg
  rom : t.rom = s.rom
  inParallel : t.inParallel = s.inParallel
  board : t.board = s.board
  initialized : t.initialized = s.initialized
  faulted : t.faulted = s.faulted
  refused : t.refused = s.refused
  sched : t.sched = s.sched

/-- No statement of `Main` writes the parameters, the ROM, the environment's fields, the marks or the schedule. -/
theorem perform_kept {op : Op} {s t : State} (h : perform op s = .next t) : Kept s t := by
  cases op with
  | sample n => obtain ⟨-, rfl⟩ := perform_sample_next h; exact ⟨rfl, rfl, rfl, rfl, rfl, rfl, rfl, rfl⟩
  | drive cw bus => obtain ⟨-, rfl⟩ := perform_drive_next h; exact ⟨rfl, rfl, rfl, rfl, rfl, rfl, rfl, rfl⟩
  | dispatch =>
    obtain ⟨w, -, rfl⟩ := microStep_next ((exec_eq _ _).symm.trans h)
    exact ⟨rfl, rfl, rfl, rfl, rfl, rfl, rfl, rfl⟩
  | storeResetWord =>
    obtain ⟨w, rfl⟩ := storeResetWord_next h
    exact ⟨rfl, rfl, rfl, rfl, rfl, rfl, rfl, rfl⟩
  | dir d => cases h; constructor <;> simp
  | pin p l => cases h; constructor <;> simp
  | data l => cases h; constructor <;> simp
  | wrapStep => cases h; unfold wrapStep; split <;> exact ⟨rfl, rfl, rfl, rfl, rfl, rfl, rfl, rfl⟩
  | pollFalling => cases h; unfold pollFalling; dsimp only; split <;> exact ⟨rfl, rfl, rfl, rfl, rfl, rfl, rfl, rfl⟩
  | pollRising => cases h; unfold pollRising; dsimp only; split <;> exact ⟨rfl, rfl, rfl, rfl, rfl, rfl, rfl, rfl⟩
  | onFalling => cases h; unfold onFalling; split <;> exact ⟨rfl, rfl, rfl, rfl, rfl, rfl, rfl, rfl⟩
  | onRising => cases h; unfold onRising; split <;> exact ⟨rfl, rfl, rfl, rfl, rfl, rfl, rfl, rfl⟩
  | _ => cases h; exact ⟨rfl, rfl, rfl, rfl, rfl, rfl, rfl, rfl⟩

/-- After the set-up call a call goes ahead. -/
theorem whenInitialized_next {c : HostCall} {s : State} (t : State) (hi : s.initialized = true) :
    whenInitialized c s t = .next t := if_pos hi

/-- R301: E1 and E2 are the codes of the calls that change nothing but to return `false`. -/
theorem errorCode_rejects (c : HostCall) (s : State) :
    errorCode c s = some .rejectedTransition ∨ errorCode c s = some .rejectedLoad
      ↔ hostCall c s = .next (s.setReply (some (.accepted false))) := by
  have reply : ∀ t : State, t.reply ≠ some (.accepted false) → t ≠ s.setReply (some (.accepted false)) := by
    rintro _ h rfl
    exact h rfl
  cases hi : s.initialized with
  | false =>
    cases c with
    | startUp => simpa [hostCall, errorCode, hi] using reply _ (by simp [startUp])
    | _ => simp [hostCall, whenInitialized, errorCode, hi]
  | true =>
    cases c with
    | startUp => simp [hostCall, errorCode, hi]
    | pollOnce => simpa [hostCall, whenInitialized, errorCode, hi] using reply _ (by simp [pollOnce])
    | requestReset => simpa [hostCall, whenInitialized, errorCode, hi] using reply _ (by simp [requestReset])
    | requestMode m =>
      cases hr : rejectsMode s.mode m with
      | true => simp [hostCall, whenInitialized, errorCode, requestMode, hi, hr]
      | false => simpa [hostCall, whenInitialized, errorCode, requestMode, hi, hr] using reply _ (by simp)
    | requestLoadCode bytes =>
      cases hm : s.mode with
      | loadCode =>
        have := reply ((s.setLoader (loadBuffer bytes s.loader)).setReply (some (.accepted true))) (by simp)
        simp [hostCall, whenInitialized, errorCode, requestLoadCode, hi, hm, this]
      | _ => simp [hostCall, whenInitialized, errorCode, requestLoadCode, hi, hm]
    | statusRead => simpa [hostCall, whenInitialized, errorCode, hi] using reply _ (by simp [statusRead])

/-- R301, R260: a refused call carries no code (log entry 33). -/
theorem errorCode_refused {c : HostCall} {s : State} {r : Refusal} (h : hostCall c s = .refused r) : errorCode c s = none := by
  cases c <;> cases hi : s.initialized <;> simp_all [hostCall, whenInitialized, errorCode]

/-- What a host call other than the set-up leaves. -/
theorem hostCall_kept {c : HostCall} {s t : State} (hi : s.initialized = true) (h : hostCall c s = .next t) : Kept s t := by
  cases c with
  | startUp => simp [hostCall, hi] at h
  | pollOnce => simp only [hostCall, whenInitialized, hi] at h; cases h; exact ⟨rfl, rfl, rfl, rfl, rfl, rfl, rfl, rfl⟩
  | requestReset => simp only [hostCall, whenInitialized, hi] at h; cases h; exact ⟨rfl, rfl, rfl, rfl, rfl, rfl, rfl, rfl⟩
  | requestMode m =>
    simp only [hostCall, whenInitialized, hi] at h
    cases h
    unfold requestMode
    split <;> exact ⟨rfl, rfl, rfl, rfl, rfl, rfl, rfl, rfl⟩
  | requestLoadCode bytes =>
    simp only [hostCall, whenInitialized, hi] at h
    cases h
    unfold requestLoadCode
    split <;> exact ⟨rfl, rfl, rfl, rfl, rfl, rfl, rfl, rfl⟩
  | statusRead => simp only [hostCall, whenInitialized, hi] at h; cases h; exact ⟨rfl, rfl, rfl, rfl, rfl, rfl, rfl, rfl⟩

/-- After the set-up call no host call starts by touching the clock line's state: only `Main`'s statements and the agents do. -/
theorem hostCall_edges {c : HostCall} {s t : State} (hi : s.initialized = true) (h : hostCall c s = .next t) :
    t.edges = s.edges := by
  cases c with
  | startUp => simp [hostCall, hi] at h
  | requestMode m =>
    simp only [hostCall, whenInitialized, hi] at h
    cases h
    unfold requestMode
    split <;> rfl
  | requestLoadCode bytes =>
    simp only [hostCall, whenInitialized, hi] at h
    cases h
    unfold requestLoadCode
    split <;> rfl
  | _ => simp only [hostCall, whenInitialized, hi] at h; cases h; rfl

/-- Before the set-up call only the set-up call goes ahead. -/
theorem hostCall_before {c : HostCall} {s t : State} (hi : s.initialized = false) (h : hostCall c s = .next t) :
    c = .startUp ∧ t = startUp s := by
  cases c <;> simp [hostCall, whenInitialized, hi] at h
  exact ⟨rfl, h.symm⟩

end Sys2Proof.Machine
end

