-- ==== Sys2Proof/Laws/Step.lean ====
section
/-! SUPPORT. Everything a step can do, said once: which agent moved and what its move was (00_scope.md R6, 42_edge_detector.md
R182, 45_host_interface.md R262). -/

namespace Sys2Proof.Machine

/-- Making a move writes the schedule alone. -/
theorem consumeMove_eq (s : State) : consumeMove s = s.setSched (consumeMove s).sched := by
  unfold consumeMove
  split <;> rfl

/-- The ways a step goes. In each, `k` is the schedule after the move, which is the schedule before it where a host call or
`await` still waits. -/
inductive StepKind (s t : State) (k : Sched) : Prop where
  /-- Env moves the attached clock. -/
  | clock (level : Bool) (h : nextMove s = .clock level) (ht : t = envClock level (s.setSched k))
  /-- Env presents two bytes. -/
  | present (opcode flags : Byte) (ht : t = envPresent opcode flags (s.setSched k))
  /-- Env sets the serial input. -/
  | serial (level : Bool) (ht : t = envSerial level (s.setSched k))
  /-- The `Producer` runs. -/
  | producer (h : s.edges.irqPending = true) (ht : t = producerStep (s.setSched k))
  /-- Nobody has anything to do, or `Main` has nothing to run. -/
  | idle (h : s.edges.irqPending = false) (h2 : s.todo = []) (ht : t = s.setSched k)
  /-- `Main` runs one statement. -/
  | run (op : Op) (ops : List Op) (h : s.edges.irqPending = false) (h2 : s.todo = op :: ops)
      (ht : perform op ((s.setSched k).setTodo ops) = .next t)
  /-- A statement of `Main` stops the machine. -/
  | stop (op : Op) (ops : List Op) (h : s.edges.irqPending = false) (h2 : s.todo = op :: ops)
      (ht : (∃ f, perform op ((s.setSched k).setTodo ops) = .fault f ∧ t = (s.setSched k).setFaulted (some f))
        ∨ ∃ r, perform op ((s.setSched k).setTodo ops) = .refused r ∧ t = (s.setSched k).setRefused (some r))
  /-- A host call starts. -/
  | call (c : HostCall) (h : s.edges.irqPending = false) (h2 : s.todo = []) (ht : hostCall c (s.setSched k) = .next t)
  /-- A host call is refused. -/
  | refusedCall (c : HostCall) (r : Refusal) (h : s.edges.irqPending = false) (h2 : s.todo = [])
      (hr : hostCall c (s.setSched k) = .refused r) (ht : t = (s.setSched k).setRefused (some r))

theorem coreStep_cases {s t : State} {k : Sched} (h : coreStep (s.setSched k) = .next t) : StepKind s t k := by
  unfold coreStep at h
  split at h
  · rename_i hi
    cases h
    exact .producer hi rfl
  · rename_i hi
    have hi : s.edges.irqPending = false := by simpa using hi
    unfold mainStep at h
    split at h
    · rename_i ht
      cases h
      exact .idle hi ht rfl
    · rename_i op ops ht
      cases hp : perform op ((s.setSched k).setTodo ops) with
      | next u =>
        rw [hp] at h
        cases h
        exact .run op ops hi ht hp
      | fault f =>
        rw [hp] at h
        cases h
        exact .stop op ops hi ht (.inl ⟨f, hp, rfl⟩)
      | refused r =>
        rw [hp] at h
        cases h
        exact .stop op ops hi ht (.inr ⟨r, hp, rfl⟩)

theorem not_busy {s : State} (h : ¬ busy s = true) : s.edges.irqPending = false ∧ s.todo = [] := by
  simpa [busy] using h

/-- No host call faults. -/
theorem hostCall_ne_fault (c : HostCall) (s : State) (f : Fault) : hostCall c s ≠ .fault f := by
  cases c <;> simp only [hostCall, whenInitialized] <;> split <;> simp

/-- What a step is, whoever made it. -/
theorem step_cases {s t : State} (h : step s = .next t) :
    s.faulted = none ∧ s.refused = none ∧ ∃ k, StepKind s t k := by
  unfold step at h
  split at h
  · cases h
  · rename_i hf
    split at h
    · cases h
    · rename_i hr
      refine ⟨hf, hr, ?_⟩
      have same : s.setSched s.sched = s := rfl
      generalize hm : nextMove s = m at h
      cases m with
      | clock level => cases h; exact ⟨_, .clock level hm (by rw [← consumeMove_eq])⟩
      | present opcode flags => cases h; exact ⟨_, .present opcode flags (by rw [← consumeMove_eq])⟩
      | serial level => cases h; exact ⟨_, .serial level (by rw [← consumeMove_eq])⟩
      | core =>
        simp only [takeMove] at h
        rw [consumeMove_eq] at h
        exact ⟨_, coreStep_cases h⟩
      | await =>
        simp only [takeMove] at h
        split at h
        · rw [← same] at h
          exact ⟨_, coreStep_cases h⟩
        · rename_i hb
          cases h
          exact ⟨_, .idle (not_busy hb).1 (not_busy hb).2 (consumeMove_eq s)⟩
      | call c =>
        simp only [takeMove] at h
        split at h
        · rw [← same] at h
          exact ⟨_, coreStep_cases h⟩
        · rename_i hb
          rw [consumeMove_eq] at h
          generalize (consumeMove s).sched = u at h
          cases hc : hostCall c (s.setSched u) with
          | next v =>
            rw [hc] at h
            cases h
            exact ⟨_, .call c (not_busy hb).1 (not_busy hb).2 hc⟩
          | fault f => exact absurd hc (hostCall_ne_fault _ _ _)
          | refused r =>
            rw [hc] at h
            cases h
            exact ⟨_, .refusedCall c r (not_busy hb).1 (not_busy hb).2 hc rfl⟩

/-- A machine nothing has stopped makes the move whose turn it is. -/
theorem step_live {s : State} (h1 : s.faulted = none) (h2 : s.refused = none) : step s = takeMove (nextMove s) s := by
  unfold step
  split
  · simp_all
  · split
    · simp_all
    · rfl

/-- A turn of the core runs `Main`'s next statement where the interrupt is not requested. -/
theorem takeMove_core {s : State} {op : Op} {ops : List Op} (hi : s.edges.irqPending = false) (ht : s.todo = op :: ops) :
    takeMove .core s = recordStop (consumeMove s) (perform op ((consumeMove s).setTodo ops)) := by
  have e1 : (consumeMove s).edges.irqPending = false := by rw [consumeMove_eq]; exact hi
  have e2 : (consumeMove s).todo = op :: ops := by rw [consumeMove_eq]; exact ht
  simp only [takeMove, coreStep, e1, mainStep, e2]
  rfl

end Sys2Proof.Machine
end

