-- ==== Sys2Proof/Laws/Flow.lean ====
section
/-! SUPPORT. How the shape that the invariant follows moves along `Main`'s statements: list by list, through a whole `Sample`
and a whole `Drive`, and which fields of the state a shape reads. -/

namespace Sys2Proof.Machine

/-- The shape after a list of statements. -/
def flowAll (cfg : Config) : List Op → Shape → Option Shape
  | [], sh => some sh
  | op :: rest, sh =>
    match op.flow cfg sh with
    | some sh' => flowAll cfg rest sh'
    | none => none

theorem flowAll_append (cfg : Config) (l l' : List Op) (sh : Shape) :
    flowAll cfg (l ++ l') sh = (flowAll cfg l sh).bind (flowAll cfg l') := by
  induction l generalizing sh with
  | nil => rfl
  | cons op l ih =>
    simp only [List.cons_append, flowAll]
    split
    · exact ih _
    · rfl

theorem flowsToRest_append (cfg : Config) (l l' : List Op) (sh : Shape) :
    flowsToRest cfg (l ++ l') sh = match flowAll cfg l sh with
      | some sh' => flowsToRest cfg l' sh'
      | none => false := by
  induction l generalizing sh with
  | nil => rfl
  | cons op l ih =>
    simp only [List.cons_append, flowsToRest, flowAll]
    cases op.flow cfg sh with
    | none => rfl
    | some sh' => exact ih sh'

/-- Where a list of statements brings a shape back, it may stand before anything. -/
theorem flowsToRest_of_flowAll {cfg : Config} {l l' : List Op} {sh sh' : Shape} (h : flowAll cfg l sh = some sh') :
    flowsToRest cfg (l ++ l') sh = flowsToRest cfg l' sh' := by
  rw [flowsToRest_append, h]

theorem Shape.resting_iff {cfg : Config} {sh : Shape} :
    sh.resting cfg = true ↔ sh.dir = .input ∧ sh.sclk = false ∧ sh.inLatch = cfg.inLatchRest ∧ sh.outLatch = true := by
  simp [Shape.resting, and_assoc]

/-- The shape `b` knows at least what `a` knows, with the same levels. -/
structure Shape.Le (a b : Shape) : Prop where
  dir : b.dir = a.dir
  sclk : b.sclk = a.sclk
  inLatch : b.inLatch = a.inLatch
  outLatch : b.outLatch = a.outLatch
  stepLow : a.stepLow = true → b.stepLow = true
  room : a.room = true → b.room = true
  staged : a.staged = true → b.staged = true

theorem Shape.Le.resting {a b : Shape} {cfg : Config} (h : Shape.Le a b) : b.resting cfg = a.resting cfg := by
  simp only [Shape.resting, h.dir, h.sclk, h.inLatch, h.outLatch]

/-- A statement that runs from a shape runs from one that knows more, and what it leaves knows more. -/
theorem Op.flow_mono {cfg : Config} {op : Op} {a b a' : Shape} (h : Shape.Le a b) (ha : op.flow cfg a = some a') :
    ∃ b', op.flow cfg b = some b' ∧ Shape.Le a' b' := by
  have hr := h.resting (cfg := cfg)
  obtain ⟨h1, h2, h3, h4, h5, h6, h7⟩ := h
  cases op with
  | pin p l => cases p <;> cases ha <;> exact ⟨_, rfl, ⟨by simp [*], by simp [*], by simp [*], by simp [*], h5, h6, h7⟩⟩
  | sample n =>
    simp only [Op.flow, hr] at ha ⊢
    split at ha <;> cases ha
    rename_i hq
    exact ⟨b, if_pos hq, ⟨h1, h2, h3, h4, h5, h6, h7⟩⟩
  | drive cw bus =>
    simp only [Op.flow, hr] at ha ⊢
    split at ha <;> cases ha
    rename_i hq
    exact ⟨b, if_pos hq, ⟨h1, h2, h3, h4, h5, h6, h7⟩⟩
  | pollRising =>
    simp only [Op.flow, hr] at ha ⊢
    split at ha <;> cases ha
    rename_i hq
    exact ⟨b, if_pos hq, ⟨h1, h2, h3, h4, h5, h6, h7⟩⟩
  | onRising =>
    simp only [Op.flow, hr] at ha ⊢
    split at ha <;> cases ha
    rename_i hq
    exact ⟨b, if_pos hq, ⟨h1, h2, h3, h4, h5, h6, h7⟩⟩
  | pollFalling =>
    simp only [Op.flow, hr] at ha ⊢
    split at ha <;> cases ha
    rename_i hq
    exact ⟨_, if_pos hq, ⟨h1, h2, h3, h4, by simp, by simp, by simp⟩⟩
  | onFalling =>
    simp only [Op.flow, hr] at ha ⊢
    split at ha <;> cases ha
    rename_i hq
    exact ⟨_, if_pos hq, ⟨h1, h2, h3, h4, by simp, by simp, by simp⟩⟩
  | dispatch =>
    simp only [Op.flow, hr, Bool.and_eq_true] at ha ⊢
    split at ha <;> cases ha
    rename_i hq
    exact ⟨_, if_pos ⟨hq.1, h5 hq.2⟩, ⟨h1, h2, h3, h4, by simp, h6, h7⟩⟩
  | incStep =>
    simp only [Op.flow] at ha ⊢
    split at ha <;> cases ha
    rename_i hq
    exact ⟨_, if_pos (h5 hq), ⟨h1, h2, h3, h4, by simp, h6, h7⟩⟩
  | finishPhaseA =>
    simp only [Op.flow, Bool.and_eq_true] at ha ⊢
    split at ha <;> cases ha
    rename_i hq
    exact ⟨b, if_pos ⟨h6 hq.1, h7 hq.2⟩, ⟨h1, h2, h3, h4, h5, h6, h7⟩⟩
  | finishPhaseB =>
    simp only [Op.flow] at ha ⊢
    split at ha <;> cases ha
    rename_i hq
    exact ⟨_, if_pos (h6 hq), ⟨h1, h2, h3, h4, h5, by simp, by simp⟩⟩
  | _ =>
    cases ha
    refine ⟨_, rfl, ?_⟩
    constructor <;> first | assumption | exact fun _ => rfl | exact fun h => h | rfl

/-- A list that flows to rest from a shape does so from one that knows more. -/
theorem flowsToRest_mono {cfg : Config} {l : List Op} {a b : Shape} (h : Shape.Le a b)
    (hf : flowsToRest cfg l a = true) : flowsToRest cfg l b = true := by
  induction l generalizing a b with
  | nil => exact (h.resting).trans hf
  | cons op l ih =>
    simp only [flowsToRest] at hf ⊢
    split at hf
    · rename_i a' ha
      obtain ⟨b', hb, hl⟩ := Op.flow_mono h ha
      rw [hb]
      exact ih hl hf
    · cases hf

/-- A list repeated keeps a shape that it keeps once. -/
theorem flowAll_replicate {cfg : Config} {l : List Op} {sh : Shape} (n : Nat) (h : flowAll cfg l sh = some sh) :
    flowAll cfg (List.replicate n l).flatten sh = some sh := by
  induction n with
  | zero => rfl
  | succ n ih => rw [List.replicate_succ, List.flatten_cons, flowAll_append, h]; exact ih

theorem flowAll_flatMap {cfg : Config} {f : Bool → List Op} {sh : Shape} (h : ∀ b, flowAll cfg (f b) sh = some sh)
    (bits : List Bool) : flowAll cfg (bits.flatMap f) sh = some sh := by
  induction bits with
  | nil => rfl
  | cons b bits ih => rw [List.flatMap_cons, flowAll_append, h]; exact ih

theorem flowAll_pulse (cfg : Config) {sh : Shape} (h : sh.sclk = false) : flowAll cfg (pulseOps cfg) sh = some sh := by
  obtain ⟨⟩ := sh
  simp only at h
  subst h
  rfl

theorem flowAll_readByte (cfg : Config) {sh : Shape} {store : Op} (h : sh.sclk = false)
    (hs : store.flow cfg sh = some sh) : flowAll cfg (readByteOps cfg store) sh = some sh := by
  have hb : flowAll cfg (readBitOps cfg) sh = some sh := by
    unfold readBitOps
    split
    · exact flowAll_pulse cfg h
    · rw [flowAll_append, flowAll_pulse cfg h]; rfl
  have e : flowAll cfg [store] sh = some sh := by
    simp only [flowAll, hs]
  show flowAll cfg (.clearAcc :: ((List.replicate 8 (readBitOps cfg)).flatten ++ [store])) sh = _
  show flowAll cfg ((List.replicate 8 (readBitOps cfg)).flatten ++ [store]) sh = _
  rw [flowAll_append, flowAll_replicate 8 hb]
  exact e

/-- A `Sample` brings the lines back to rest. -/
theorem flowAll_sample (cfg : Config) (n : SampleSize) {sh : Shape} (h : sh.resting cfg = true) :
    flowAll cfg (sampleOps cfg n) sh = some sh := by
  obtain ⟨h1, h2, h3, h4⟩ := Shape.resting_iff.1 h
  have e0 : flowAll cfg [.pin .inLatch cfg.inLatchActive, .delay cfg.tPulse, .pin .inLatch cfg.inLatchRest] sh = some sh := by
    obtain ⟨⟩ := sh
    simp only at h3
    subst h3
    rfl
  have e3 : flowAll cfg [.dir .input] sh = some sh := by
    obtain ⟨⟩ := sh
    simp only at h1
    subst h1
    rfl
  cases n with
  | one =>
    rw [sampleOps, flowAll_append, flowAll_append, flowAll_append, e0, Option.bind_some,
      flowAll_readByte cfg h2 rfl]
    exact e3
  | two =>
    rw [sampleOps, flowAll_append, flowAll_append, flowAll_append, e0, Option.bind_some,
      flowAll_readByte cfg h2 rfl, Option.bind_some, flowAll_readByte cfg h2 rfl]
    exact e3

/-- A `Drive` brings the lines back to rest. -/
theorem flowAll_drive (cfg : Config) (cw : Word) (bus : Byte) {sh : Shape} (h : sh.resting cfg = true) :
    flowAll cfg (driveOps cfg cw bus) sh = some sh := by
  obtain ⟨h1, h2, h3, h4⟩ := Shape.resting_iff.1 h
  obtain ⟨dir, sclk, inLatch, outLatch, a, b, c⟩ := sh
  simp only at h1 h2 h3 h4
  subst h1 h2 h4
  have e1 : flowAll cfg [.dir .output, .pin .outLatch false] (Shape.mk .input false inLatch true a b c)
      = some (Shape.mk .output false inLatch false a b c) := rfl
  have e2 := flowAll_flatMap (cfg := cfg) (f := sendBitOps cfg) (sh := Shape.mk .output false inLatch false a b c)
    (fun x => flowAll_pulse cfg rfl) (frameBits (cfg.frame cw bus))
  rw [driveOps, flowAll_append, flowAll_append, e1, Option.bind_some, e2]
  rfl

end Sys2Proof.Machine
end

