-- ==== Sys2Proof/Laws/Memory.lean ====
section
/-! SUPPORT. The laws of the attached RAM: a read after a write, and the canonical form, which every operation keeps. -/

namespace Sys2Proof.Machine

theorem Memory.read_write_same (m : Memory) (a : Nat) (v : Byte) : Memory.read (Memory.write m a v) a = some v := by
  induction m with
  | nil => simp [Memory.write, Memory.read]
  | cons c m ih =>
    obtain ⟨b, w⟩ := c
    simp only [Memory.write]
    split
    · simp [Memory.read]
    · split
      · simp [Memory.read]
      · simp [Memory.read, *]

theorem Memory.read_write_other (m : Memory) (a b : Nat) (v : Byte) (h : b ≠ a) :
    Memory.read (Memory.write m a v) b = Memory.read m b := by
  induction m with
  | nil => simp [Memory.write, Memory.read, h]
  | cons c m ih =>
    obtain ⟨d, w⟩ := c
    simp only [Memory.write]
    split
    · simp [Memory.read, h]
    · split
      · subst_vars; simp [Memory.read, h]
      · simp [Memory.read, ih]

theorem Memory.wfFrom_mono {m : Memory} {lo lo' : Nat} (h : lo' ≤ lo) (w : Memory.wfFrom lo m = true) :
    Memory.wfFrom lo' m = true := by
  cases m with
  | nil => rfl
  | cons c m =>
    obtain ⟨a, v⟩ := c
    simp only [Memory.wfFrom, Bool.and_eq_true, decide_eq_true_eq] at w ⊢
    exact ⟨⟨by omega, w.1.2⟩, w.2⟩

theorem Memory.wfFrom_write {m : Memory} {lo a : Nat} {v : Byte} (hl : lo ≤ a) (ha : a < 256)
    (w : Memory.wfFrom lo m = true) : Memory.wfFrom lo (Memory.write m a v) = true := by
  induction m generalizing lo with
  | nil => simp [Memory.write, Memory.wfFrom, hl, ha]
  | cons c m ih =>
    obtain ⟨b, x⟩ := c
    simp only [Memory.wfFrom, Bool.and_eq_true, decide_eq_true_eq] at w
    simp only [Memory.write]
    split
    · simp only [Memory.wfFrom, Bool.and_eq_true, decide_eq_true_eq]
      exact ⟨⟨hl, ha⟩, ⟨by omega, w.1.2⟩, w.2⟩
    · split
      · subst_vars
        simp only [Memory.wfFrom, Bool.and_eq_true, decide_eq_true_eq]
        exact ⟨⟨hl, ha⟩, w.2⟩
      · simp only [Memory.wfFrom, Bool.and_eq_true, decide_eq_true_eq]
        exact ⟨w.1, ih (by omega) w.2⟩

/-- A store keeps the canonical form. -/
theorem memWrite_wf {m : Memory} (a v : Byte) (w : Memory.wf m = true) : Memory.wf (memWrite m a v) = true :=
  Memory.wfFrom_write (Nat.zero_le _) a.isLt w

/-- A load at the address just stored to gives the byte stored. -/
theorem memRead_memWrite_same (m : Memory) (a v : Byte) : memRead (memWrite m a v) a = v := by
  simp [memRead, memWrite, Memory.read_write_same]

/-- A load at another address gives what it gave before. -/
theorem memRead_memWrite_other (m : Memory) (a b v : Byte) (h : b ≠ a) : memRead (memWrite m a v) b = memRead m b := by
  have h' : b.toNat ≠ a.toNat := fun e => h (BitVec.eq_of_toNat_eq e)
  simp [memRead, memWrite, Memory.read_write_other _ _ _ _ h']

/-- The attached CPU's edge keeps the canonical form of its RAM. -/
theorem boardTick_wf {cfg : Config} {w : Word} {x : Byte} {b : Board} (h : b.ram.wf = true) :
    (boardTick cfg w x b).ram.wf = true := by
  simp only [boardTick, ramTick]
  split
  · exact memWrite_wf _ _ h
  · exact h

/-- Env's clock keeps the canonical form of the RAM. -/
theorem envClock_wf {l : Bool} {s : State} (h : s.board.ram.wf = true) : (envClock l s).board.ram.wf = true := by
  unfold envClock
  split
  · exact h
  · split
    · exact h
    · simp only [observeClock_board, State.setEdges_board, State.setBoard_board, clockedBoard]
      split
      · exact boardTick_wf h
      · exact h

/-- The RAM at power-on has the canonical form. -/
theorem powerOn_ram_wf (cfg : Config) : (State.powerOn cfg).board.ram.wf = true := rfl

end Sys2Proof.Machine
end

