-- ==== Sys2Proof/Laws/Microcode.lean ====
section
/-! SUPPORT. The defined instructions and their opcodes (30_encoding.md R84), and what a lookup in the built ROM finds: the
base row of the opcode with the overrides of the FlagState (40_microcode.md R100, R101). -/

namespace Sys2Proof

/-- Where no two entries of a list have the same image, a search by the image finds the entry. -/
theorem find_of_noRepeats {α β : Type} [DecidableEq β] (f : α → β) {l : List α} {x : α}
    (h : noRepeats (l.map f) = true) (hx : x ∈ l) : l.find? (fun y => f y == f x) = some x := by
  induction l with
  | nil => cases hx
  | cons y l ih =>
    simp only [List.map_cons, noRepeats, Bool.and_eq_true, Bool.not_eq_true'] at h
    rcases List.mem_cons.1 hx with rfl | hx
    · simp
    · have hne : f y ≠ f x := by
        intro e
        have hc : (l.map f).contains (f y) = true := by
          rw [List.contains_iff_mem, e]
          exact List.mem_map_of_mem hx
        rw [hc] at h
        cases h.1
      rw [List.find?_cons_of_neg (by simpa using hne)]
      exact ih h.2 hx

/-- R84: the opcodes of a well-formed instance are distinct. -/
theorem Config.wf_opcodes {cfg : Config} (h : cfg.wf = true) :
    noRepeats (cfg.definedInstrs.map cfg.opcodeOf) = true := by
  simp only [Config.wf, Config.opcodesWf, Config.definedOpcodes, Bool.and_eq_true] at h
  exact h.1.1.2.1

/-- A named instruction is defined in every instance. -/
theorem Config.mem_named (cfg : Config) {i : Instr} (h : i ∈ namedInstrs) : i ∈ cfg.definedInstrs := by
  simp [Config.definedInstrs, h]

/-- The defined instructions are the well-formed ones that are not undefined opcodes. -/
theorem Instr.wf_of_mem {cfg : Config} {i : Instr} (h : i ∈ cfg.definedInstrs) : i.wf cfg = true := by
  cases i <;> simp_all [Config.definedInstrs, namedInstrs, Instr.wf]

theorem Instr.mem_of_wf {cfg : Config} {i : Instr} (h : i.wf cfg = true) (hu : ∀ op, i ≠ .undef op) :
    i ∈ cfg.definedInstrs := by
  cases i <;> simp_all [Config.definedInstrs, namedInstrs, Instr.wf]

/-- Defined instructions with one opcode are one instruction. -/
theorem Config.opcodeOf_inj {cfg : Config} (h : cfg.wf = true) {i j : Instr} (hi : i ∈ cfg.definedInstrs)
    (hj : j ∈ cfg.definedInstrs) (e : cfg.opcodeOf i = cfg.opcodeOf j) : i = j := by
  have h1 := find_of_noRepeats cfg.opcodeOf (Config.wf_opcodes h) hi
  have h2 := find_of_noRepeats cfg.opcodeOf (Config.wf_opcodes h) hj
  rw [e] at h1
  exact Option.some.inj (h1.symm.trans h2)

/-- R107: a branch step lies in 2..6. -/
theorem Config.wf_branchSteps {cfg : Config} (h : cfg.wf = true) :
    (2 ≤ cfg.branchSteps.jmc ∧ cfg.branchSteps.jmc ≤ maxStep) ∧ (2 ≤ cfg.branchSteps.jmz ∧ cfg.branchSteps.jmz ≤ maxStep)
      ∧ 2 ≤ cfg.branchSteps.jnz ∧ cfg.branchSteps.jnz ≤ maxStep := by
  simp only [Config.wf, Config.bodiesWf, branchWf, Bool.and_eq_true, decide_eq_true_eq] at h
  obtain ⟨⟨-, ⟨⟨⟨⟨⟨⟨⟨⟨-, a⟩, b⟩, c⟩, -⟩, -⟩, -⟩, -⟩, -⟩⟩, -⟩ := h
  exact ⟨a.1, b.1, c.1⟩

/-- R107: the word a conditional jump's body holds at its branch step. -/
theorem Config.wf_branchWords {cfg : Config} (h : cfg.wf = true) :
    (∀ ws, cfg.bodies.jmc = some ws → ws[cfg.branchSteps.jmc - 2]? = some Config.notTakenWord)
      ∧ (∀ ws, cfg.bodies.jmz = some ws → ws[cfg.branchSteps.jmz - 2]? = some Config.notTakenWord)
      ∧ ∀ ws, cfg.bodies.jnz = some ws → ws[cfg.branchSteps.jnz - 2]? = some cfg.takenWord := by
  simp only [Config.wf, Config.bodiesWf, branchWf, Bool.and_eq_true, decide_eq_true_eq] at h
  refine ⟨?_, ?_, ?_⟩ <;> intro ws hb <;> simp_all

/-- R108: a body has at most five words. -/
theorem Config.wf_bodyLength {cfg : Config} (h : cfg.wf = true) {i : Instr} (hi : i ∈ cfg.definedInstrs) {ws : List Word}
    (hb : cfg.bodyOf i = some ws) : ws.length ≤ 5 := by
  simp only [Config.wf, Config.bodiesWf, Bool.and_eq_true] at h
  obtain ⟨⟨-, ⟨⟨⟨⟨⟨⟨⟨⟨a, -⟩, -⟩, -⟩, -⟩, -⟩, -⟩, -⟩, -⟩⟩, -⟩ := h
  have hw := List.all_eq_true.1 a i hi
  simp only [hb, Config.bodyWf, Bool.and_eq_true, decide_eq_true_eq] at hw
  exact hw.1.1

end Sys2Proof

namespace Sys2Proof.Machine

/-- A list changed entry by entry, keeping what the search reads, is searched as before. -/
theorem find_map_same {α : Type} (g : α → α) (p : α → Bool) (hg : ∀ x, p (g x) = p x) (l : List α) :
    (l.map g).find? p = (l.find? p).map g := by
  induction l with
  | nil => rfl
  | cons x l ih =>
    simp only [List.map_cons]
    cases h : p x <;> simp [hg, h, ih]

/-- R100 step 3: a patched sub-table holds the same rows, that of the opcode with the entry overridden. -/
theorem patchTable_find (op : Byte) (k : Nat) (w : Word) (t : List RomRow) (b : Byte) :
    (patchTable op k w t).find? (fun r => r.opcode == b) = (t.find? (fun r => r.opcode == b)).map
      (fun r => if b = op then { r with entries := r.entries.modify k (RomEntry.override w) } else r) := by
  unfold patchTable
  rw [find_map_same _ _ (by intro r; split <;> rfl)]
  cases h : t.find? (fun r => r.opcode == b) with
  | none => rfl
  | some r =>
    have hr := List.find?_some h
    simp only [beq_iff_eq] at hr
    simp [hr]

/-- R100 step 2: a defined instruction's row in the base sub-table. -/
theorem baseTable_find {cfg : Config} (h : cfg.wf = true) {i : Instr} (hi : i ∈ cfg.definedInstrs) :
    (baseTable cfg).find? (fun r => r.opcode == cfg.opcodeOf i) = some (baseRow cfg i) := by
  have hf := find_of_noRepeats cfg.opcodeOf (Config.wf_opcodes h) hi
  unfold baseTable
  rw [List.find?_map]
  simp only [Function.comp_def, baseRow, hf]
  rfl

/-- R104: an opcode outside the opcode map has no row. -/
theorem baseTable_find_none {cfg : Config} {b : Byte} (hb : b ∉ cfg.definedOpcodes) :
    (baseTable cfg).find? (fun r => r.opcode == b) = none := by
  rw [List.find?_eq_none]
  intro r hr
  simp only [baseTable, List.mem_map] at hr
  obtain ⟨i, hi, rfl⟩ := hr
  simp only [beq_iff_eq, baseRow]
  intro e
  exact hb (e ▸ List.mem_map_of_mem hi)

/-- R100 step 3: the overrides of a FlagState on the row of an opcode. -/
def patches (cfg : Config) (f : FlagState) (b : Byte) (r : RomRow) : RomRow :=
  let r := if f.c = true ∧ b = cfg.opcodes.jmc then
    { r with entries := r.entries.modify cfg.branchSteps.jmc (RomEntry.override cfg.takenWord) } else r
  let r := if f.z = true ∧ b = cfg.opcodes.jmz then
    { r with entries := r.entries.modify cfg.branchSteps.jmz (RomEntry.override cfg.takenWord) } else r
  if f.z = true ∧ b = cfg.opcodes.jnz then
    { r with entries := r.entries.modify cfg.branchSteps.jnz (RomEntry.override Config.notTakenWord) } else r

/-- A search in the built ROM finds the base row with its overrides. -/
theorem subTable_find (cfg : Config) (f : FlagState) (b : Byte) :
    ((buildRom cfg).subTable f).find? (fun r => r.opcode == b) =
      ((baseTable cfg).find? (fun r => r.opcode == b)).map (patches cfg f b) := by
  obtain ⟨z, c⟩ := f
  cases z <;> cases c <;>
    simp only [Rom.subTable, buildRom, patchCarry, patchZero, patchTable_find, Option.map_map] <;>
    cases (baseTable cfg).find? (fun r => r.opcode == b) <;> simp [patches]

/-- R101 on the built ROM, for a defined instruction. -/
theorem lookup_defined {cfg : Config} (h : cfg.wf = true) {i : Instr} (hi : i ∈ cfg.definedInstrs) (f : FlagState)
    (step : Nat) : (buildRom cfg).lookup f (cfg.opcodeOf i) step =
      if step ≤ maxStep then (patches cfg f (cfg.opcodeOf i) (baseRow cfg i)).entry step else .word 0#16 := by
  simp only [Rom.lookup, subTable_find, baseTable_find h hi, Option.map_some]

/-- An override at another step leaves an entry. -/
theorem patches_entry (cfg : Config) (f : FlagState) (b : Byte) (r : RomRow) (k : Nat)
    (h1 : b = cfg.opcodes.jmc → k ≠ cfg.branchSteps.jmc) (h2 : b = cfg.opcodes.jmz → k ≠ cfg.branchSteps.jmz)
    (h3 : b = cfg.opcodes.jnz → k ≠ cfg.branchSteps.jnz) : (patches cfg f b r).entry k = r.entry k := by
  have key : ∀ (r : RomRow) (p : Prop) [Decidable p] (j : Nat) (w : Word), (p → k ≠ j) →
      (if p then { r with entries := r.entries.modify j (RomEntry.override w) } else r).entry k = r.entry k := by
    intro r p _ j w hp
    split
    · rename_i h
      simp [RomRow.entry, List.getD_eq_getElem?_getD, Ne.symm (hp h)]
    · rfl
  unfold patches
  rw [key _ _ _ _ (fun h => h3 h.2), key _ _ _ _ (fun h => h2 h.2), key _ _ _ _ (fun h => h1 h.2)]

/-- The entries of a base row whose body is chosen. -/
theorem baseRow_entry (cfg : Config) (i : Instr) (body : List Word) (hb : cfg.bodyOf i = some body) (k : Nat) :
    (baseRow cfg i).entry k = .word (cfg.rowWord body k) := by
  match k with
  | 0 => rfl
  | 1 => rfl
  | k + 2 =>
    simp only [baseRow, RomRow.entry, hb, bodyEntries, Config.rowWord]
    simp [List.getD_eq_getElem?_getD]

/-- R105: beyond step 6 a row with a body of at most five words is zero. -/
theorem rowWord_high (cfg : Config) {body : List Word} (hb : body.length ≤ 5) {k : Nat} (h : ¬ k ≤ maxStep) :
    cfg.rowWord body k = 0#16 := by
  simp only [maxStep] at h
  obtain ⟨j, rfl⟩ : ∃ j, k = j + 2 := ⟨k - 2, by omega⟩
  exact List.getD_eq_default _ _ (by omega)

/-- Where the lookup finds a word, the micro-step completes with it. -/
theorem microStep_word {s : State} {f : FlagState} {w : Word} {op : Byte} (hd : decodeFlags s.cfg s.flags = some f)
    (hl : s.rom.lookup f op s.instructionStep = .word w) :
    microStep op s = .next { s with controlWord := w, todo := .drive w 0#8 :: .incStep :: s.todo } := by
  simp only [microStep, lookupWord, hd, readRom, hl]
  rfl

end Sys2Proof.Machine
end

