-- ==== Sys2Proof/Laws/Operand.lean ====
section
/-! SUPPORT. R86: an instruction has an operand byte exactly when its microcode has the CPU fetch one (30_encoding.md). -/

namespace Sys2Proof

/-- Where no register holds the operand byte yet, a word that puts it on the bus has read it from the RAM, itself or before. -/
theorem Config.trace_reads (cfg : Config) {ws : List Word} {o : Operand} {p : Operand × Word}
    (hA : o.inA = false) (hB : o.inB = false) (hO : o.inOther = false) (hp : p ∈ cfg.trace o ws)
    (hb : cfg.busHasOperand p.1 p.2 = true) : (cfg.trace o ws).any cfg.readsOperand = true := by
  induction ws generalizing o with
  | nil => cases hp
  | cons w ws ih =>
    simp only [Config.trace, List.any_cons, Bool.or_eq_true]
    cases h : cfg.busHasOperand o w with
    | true => exact .inl (by simpa [Config.busHasOperand, Config.readsOperand, hA, hB, hO] using h)
    | false =>
      rcases List.mem_cons.1 hp with rfl | hp
      · rw [h] at hb
        cases hb
      · exact .inr (ih (by simp [Config.moveOperand, h, hA]) (by simp [Config.moveOperand, h, hB])
          (by simp [Config.moveOperand, h, hO]) hp)

/-- A body in which some word has the operand byte on the bus after the fetch fetches it. -/
theorem Config.fetches_of_bus (cfg : Config) {ws : List Word} {p : Operand × Word} (hp : p ∈ cfg.afterFetch ws)
    (hb : cfg.busHasOperand p.1 p.2 = true) : cfg.fetchesOperand ws = true := by
  refine List.any_eq_true.2 ⟨ws, (List.mem_tails ..).2 (List.suffix_refl _), ?_⟩
  cases ws with
  | nil => cases hp
  | cons w ws =>
    simp only [Config.afterFetch] at hp ⊢
    split at hp
    · rename_i h
      rw [if_pos h]
      exact cfg.trace_reads rfl rfl rfl hp hb
    · cases hp

/-- R108: a load or store body fetches an operand byte. -/
theorem Config.memoryBody_fetches {cfg : Config} {ws : List Word} (h : cfg.memoryBodyWf (some ws) = true) :
    cfg.fetchesOperand ws = true := by
  obtain ⟨p, hp, hu⟩ := List.any_eq_true.1 h
  simp only [Config.usesOperand, Bool.and_eq_true] at hu
  exact cfg.fetches_of_bus hp hu.1

/-- R108: JMP's body fetches an operand byte. -/
theorem Config.jumpBody_fetches {cfg : Config} {ws : List Word} (h : cfg.jumpBodyWf (some ws) = true) :
    cfg.fetchesOperand ws = true := by
  obtain ⟨p, hp, hu⟩ := List.any_eq_true.1 h
  simp only [Config.takesBranch, Bool.and_eq_true] at hu
  exact cfg.fetches_of_bus hp hu.2

/-- R108: a conditional jump fetches an operand byte, at the latest where it takes its branch. -/
theorem Config.branchBody_fetches {cfg : Config} {step : Nat} {ws : List Word} (h : cfg.branchBodyWf step (some ws) = true) :
    cfg.fetchesOperand (branchRow step cfg.takenWord ws) = true := by
  simp only [Config.branchBodyWf, Bool.and_eq_true] at h
  replace h := h.2
  split at h
  · rename_i p hp
    simp only [Config.takesBranch, Bool.and_eq_true] at h
    exact cfg.fetches_of_bus (List.mem_of_getElem? hp) h.2
  · cases h

/-- The words of a body as the branch, where there is one, is taken. -/
def Config.takenRow (cfg : Config) (ws : List Word) : Instr → List Word
  | .jmc => branchRow cfg.branchSteps.jmc cfg.takenWord ws
  | .jmz => branchRow cfg.branchSteps.jmz cfg.takenWord ws
  | .jnz => branchRow cfg.branchSteps.jnz cfg.takenWord ws
  | .nop | .hlt | .jmp | .lda | .ldb | .sta | .stb | .ste | .add | .sub | .tab | .tba => ws
  | .undef _ | .extra _ => ws

/-- R86: in a well-formed instance an instruction whose body is chosen has an operand byte exactly when its microcode has the
CPU fetch one. -/
theorem Instr.hasOperand_iff_fetches {cfg : Config} (h : cfg.wf = true) {i : Instr} {ws : List Word}
    (hb : cfg.bodyOf i = some ws) : i.hasOperand cfg = cfg.fetchesOperand (cfg.takenRow ws i) := by
  simp only [Config.wf, Config.bodiesWf, Config.operandsWf, List.all_cons, List.all_nil, Bool.and_true, Bool.and_eq_true] at h
  obtain ⟨⟨-, ⟨-, ⟨⟨⟨⟨⟨⟨a1, a2, a3, a4, a5⟩, -⟩, b⟩, c1⟩, c2⟩, c3⟩, d1, d2, d3, d4, d5⟩, -⟩, -⟩ := h
  have plain : ∀ o : Option (List Word), o = some ws → cfg.plainBodyWf o = true → false = cfg.fetchesOperand ws := by
    rintro _ rfl hp
    simpa [Config.plainBodyWf] using hp
  have memory : ∀ o : Option (List Word), o = some ws → cfg.memoryBodyWf o = true → true = cfg.fetchesOperand ws := by
    rintro _ rfl hm
    exact (Config.memoryBody_fetches hm).symm
  have branch : ∀ (o : Option (List Word)) (k : Nat), o = some ws → cfg.branchBodyWf k o = true →
      true = cfg.fetchesOperand (branchRow k cfg.takenWord ws) := by
    rintro _ k rfl hm
    exact (Config.branchBody_fetches hm).symm
  cases i with
  | nop => cases hb; rfl
  | hlt => exact plain _ hb d1
  | jmp =>
    rw [show cfg.bodies.jmp = some ws from hb] at b
    exact (Config.jumpBody_fetches b).symm
  | jmc => exact branch _ _ hb c1
  | jmz => exact branch _ _ hb c2
  | jnz => exact branch _ _ hb c3
  | lda => exact memory _ hb a1
  | ldb => exact memory _ hb a2
  | sta => exact memory _ hb a3
  | stb => exact memory _ hb a4
  | ste => exact memory _ hb a5
  | add => exact plain _ hb d2
  | sub => exact plain _ hb d3
  | tab => exact plain _ hb d4
  | tba => exact plain _ hb d5
  | undef op => cases hb
  | extra op => simp [Instr.hasOperand, Config.takenRow, show cfg.bodies.extra = some ws from hb]

end Sys2Proof
end

