-- ==== Sys2Proof/Laws/PerInstr.lean ====
section
/-! SUPPORT. The statements made per instruction (30_encoding.md R86, R88): the bytes of an instruction's well-formed program
line are its opcode byte and, where it has one, its operand byte. -/

namespace Sys2Proof.Laws.LineLength

/-- R86, R88: a well-formed line of the instruction starts with its opcode and is as long as the instruction. -/
def Statement (i : Instr) : Prop :=
  ∀ (cfg : Config) (line : AsmLine), line.instr? = some i → line.wf cfg = true →
    (encodeLine cfg line).head? = some (encode cfg i) ∧ (encodeLine cfg line).length = i.length cfg

/-- Both forms of a line at once. -/
theorem of_instr (i : Instr) : Statement i := by
  intro cfg line hi hw
  cases line with
  | plain j =>
    cases hi
    simp only [AsmLine.wf, Bool.and_eq_true, Bool.not_eq_true'] at hw
    simp [encodeLine, Instr.length, hw.2]
  | withOperand j operand =>
    cases hi
    simp only [AsmLine.wf, Bool.and_eq_true] at hw
    simp [encodeLine, Instr.length, hw.2]
  | data b => cases hi

theorem nop : Statement .nop := of_instr _
theorem hlt : Statement .hlt := of_instr _
theorem jmp : Statement .jmp := of_instr _
theorem jmc : Statement .jmc := of_instr _
theorem jmz : Statement .jmz := of_instr _
theorem jnz : Statement .jnz := of_instr _
theorem lda : Statement .lda := of_instr _
theorem ldb : Statement .ldb := of_instr _
theorem sta : Statement .sta := of_instr _
theorem stb : Statement .stb := of_instr _
theorem ste : Statement .ste := of_instr _
theorem add : Statement .add := of_instr _
theorem sub : Statement .sub := of_instr _
theorem tab : Statement .tab := of_instr _
theorem tba : Statement .tba := of_instr _
theorem undef (op : Byte) : Statement (.undef op) := of_instr _
theorem extra (op : Byte) : Statement (.extra op) := of_instr _

end Sys2Proof.Laws.LineLength
end

