-- ==== Sys2Proof/Laws/RunEnd.lean ====
section
/-! SUPPORT. The end of a program run (70_reset_and_hazards.md R380): once the attached clock has halted (92_eei_decisions.md
D33) no step moves CLK_IN, so the clock condition of R380 holds. -/

namespace Sys2Proof.Machine

/-- Where CLK_IN is a line of its own, no statement of `Main` moves it or requests the interrupt. -/
theorem perform_clock {op : Op} {s t : State} (hs : s.cfg.clkSharesData = false) (h : perform op s = .next t) :
    t.edges.clkLevel = s.edges.clkLevel ∧ t.edges.irqPending = s.edges.irqPending := by
  cases op with
  | sample n => obtain ⟨-, rfl⟩ := perform_sample_next h; exact ⟨rfl, rfl⟩
  | drive cw bus => obtain ⟨-, rfl⟩ := perform_drive_next h; exact ⟨rfl, rfl⟩
  | dispatch => obtain ⟨w, -, rfl⟩ := microStep_next ((exec_eq _ _).symm.trans h); exact ⟨rfl, rfl⟩
  | storeResetWord => obtain ⟨w, rfl⟩ := storeResetWord_next h; exact ⟨rfl, rfl⟩
  | dir d => cases h; simp [setDir, lineChanged, hs]
  | pin p l =>
    cases h
    cases p <;> simp [setPin, setSclk, setInLatch, setOutLatch, lineChanged, hs]
  | data l => cases h; simp [setData, lineChanged, hs]
  | wrapStep => cases h; unfold wrapStep; split <;> exact ⟨rfl, rfl⟩
  | pollFalling => cases h; unfold pollFalling; dsimp only; split <;> exact ⟨rfl, rfl⟩
  | pollRising => cases h; unfold pollRising; dsimp only; split <;> exact ⟨rfl, rfl⟩
  | onFalling => cases h; unfold onFalling; split <;> exact ⟨rfl, rfl⟩
  | onRising => cases h; unfold onRising; split <;> exact ⟨rfl, rfl⟩
  | _ => cases h; exact ⟨rfl, rfl⟩

/-- D33: a fitted board whose clock has halted, on a CLK_IN of its own; nothing changes that. -/
structure State.ClockHalted (s : State) : Prop where
  own : s.cfg.clkSharesData = false
  fitted : s.board.fitted = true
  halted : s.board.cpu.halted = true

theorem State.ClockHalted.congr {s t : State} (h : s.ClockHalted) (h1 : t.cfg = s.cfg) (h2 : t.board = s.board) :
    t.ClockHalted :=
  ⟨h1 ▸ h.own, h2 ▸ h.fitted, h2 ▸ h.halted⟩

theorem startUp_clkLevel {s : State} (hs : s.cfg.clkSharesData = false) :
    (startUp s).edges.clkLevel = s.edges.clkLevel ∧ (startUp s).cfg = s.cfg ∧ (startUp s).board = s.board := by
  refine ⟨?_, by simp [startUp], by simp [startUp]⟩
  simp [startUp, setOutLatch, setInLatch, setSclk, setData, setDir, lineChanged, hs]

/-- A step of any agent leaves a halted clock halted and CLK_IN where it is. -/
theorem step_clockHalted {s t : State} (h : s.ClockHalted) (hst : step s = .next t) :
    t.ClockHalted ∧ t.edges.clkLevel = s.edges.clkLevel := by
  obtain ⟨-, -, k, hk⟩ := step_cases hst
  have kept : ∀ {u : State}, Kept (s.setSched k) u → u.ClockHalted := fun hu => h.congr hu.cfg hu.board
  cases hk with
  | clock level _ ht =>
    subst ht
    unfold envClock
    split
    · exact ⟨h.congr rfl rfl, rfl⟩
    · split
      · exact ⟨h.congr rfl rfl, rfl⟩
      · rename_i hb
        exact absurd (by rw [Bool.and_eq_true]; exact ⟨h.fitted, h.halted⟩) hb
  | present opcode flags ht => subst ht; exact ⟨h.congr rfl rfl, rfl⟩
  | serial level ht => subst ht; exact ⟨h.congr rfl rfl, rfl⟩
  | producer _ ht => subst ht; exact ⟨h.congr rfl rfl, rfl⟩
  | idle _ _ ht => subst ht; exact ⟨h.congr rfl rfl, rfl⟩
  | run op ops _ _ ht =>
    have hp := perform_kept ht
    exact ⟨h.congr hp.cfg hp.board, (perform_clock (s := (s.setSched k).setTodo ops) h.own ht).1⟩
  | stop op ops _ _ ht =>
    rcases ht with ⟨f, -, rfl⟩ | ⟨r, -, rfl⟩ <;> exact ⟨h.congr rfl rfl, rfl⟩
  | call c _ _ ht =>
    cases hi : s.initialized with
    | true =>
      have hp := hostCall_kept (s := s.setSched k) hi ht
      exact ⟨kept hp, congrArg Edges.clkLevel (hostCall_edges (s := s.setSched k) hi ht)⟩
    | false =>
      obtain ⟨-, rfl⟩ := hostCall_before (s := s.setSched k) hi ht
      obtain ⟨e1, e2, e3⟩ := startUp_clkLevel (s := s.setSched k) h.own
      exact ⟨h.congr e2 e3, e1⟩
  | refusedCall c r _ _ _ ht => subst ht; exact ⟨h.congr rfl rfl, rfl⟩

/-- R380: the attached clock of D33, once halted, makes no further transition of CLK_IN, whatever the agents do. -/
theorem clockStopped_of_halted {s : State} (h : s.ClockHalted) : s.clockStopped := by
  intro n
  induction n generalizing s with
  | zero =>
    intro t ht
    cases ht
    rfl
  | succ n ih =>
    intro t ht
    simp only [State.runsTo, Host.Core.run] at ht
    split at ht
    · rename_i u hu
      obtain ⟨hh, he⟩ := step_clockHalted h hu
      exact (ih hh t ht).trans he
    · cases ht
    · cases ht

end Sys2Proof.Machine
end

