-- ==== Sys2Proof/Laws/Polling.lean ====
section
/-! SUPPORT. What clears a pending flag (42_edge_detector.md R184): after the set-up call only the poll's read-and-clear does,
so that the weak fairness of 45_host_interface.md R276 can be said by the flags alone; and a run that is fair because nothing
is ever pending. -/

namespace Sys2Proof.Machine

/-- A line operation leaves the pending flags, whatever it does to CLK_IN. -/
theorem lineChanged_pending (s : State) :
    (lineChanged s).edges.fallingPending = s.edges.fallingPending
      ∧ (lineChanged s).edges.risingPending = s.edges.risingPending := by
  unfold lineChanged observeClock
  split
  · split <;> exact ⟨rfl, rfl⟩
  · exact ⟨rfl, rfl⟩

/-- R32: a statement of `Main` that is not a flag's read-and-clear leaves that flag. -/
theorem perform_pending {op : Op} {s t : State} (h : perform op s = .next t) :
    (op ≠ .pollFalling → t.edges.fallingPending = s.edges.fallingPending)
      ∧ (op ≠ .pollRising → t.edges.risingPending = s.edges.risingPending) := by
  cases op with
  | sample n => obtain ⟨-, rfl⟩ := perform_sample_next h; exact ⟨fun _ => rfl, fun _ => rfl⟩
  | drive cw bus => obtain ⟨-, rfl⟩ := perform_drive_next h; exact ⟨fun _ => rfl, fun _ => rfl⟩
  | dispatch => obtain ⟨w, -, rfl⟩ := microStep_next ((exec_eq _ _).symm.trans h); exact ⟨fun _ => rfl, fun _ => rfl⟩
  | storeResetWord => obtain ⟨w, rfl⟩ := storeResetWord_next h; exact ⟨fun _ => rfl, fun _ => rfl⟩
  | dir d => cases h; exact ⟨fun _ => (lineChanged_pending _).1, fun _ => (lineChanged_pending _).2⟩
  | pin p l => cases h; cases p <;> exact ⟨fun _ => (lineChanged_pending _).1, fun _ => (lineChanged_pending _).2⟩
  | data l => cases h; exact ⟨fun _ => (lineChanged_pending _).1, fun _ => (lineChanged_pending _).2⟩
  | wrapStep => cases h; unfold wrapStep; split <;> exact ⟨fun _ => rfl, fun _ => rfl⟩
  | pollFalling =>
    cases h
    unfold pollFalling
    dsimp only
    split <;> exact ⟨fun hne => absurd rfl hne, fun _ => rfl⟩
  | pollRising =>
    cases h
    unfold pollRising
    dsimp only
    split <;> exact ⟨fun _ => rfl, fun hne => absurd rfl hne⟩
  | onFalling => cases h; unfold onFalling; split <;> exact ⟨fun _ => rfl, fun _ => rfl⟩
  | onRising => cases h; unfold onRising; split <;> exact ⟨fun _ => rfl, fun _ => rfl⟩
  | _ => cases h; exact ⟨fun _ => rfl, fun _ => rfl⟩

/-- A clock move leaves the pending flags (R181). -/
theorem envClock_pending (level : Bool) (s : State) :
    (envClock level s).edges.fallingPending = s.edges.fallingPending
      ∧ (envClock level s).edges.risingPending = s.edges.risingPending := by
  unfold envClock
  split
  · exact ⟨rfl, rfl⟩
  · split
    · exact ⟨rfl, rfl⟩
    · unfold observeClock
      split <;> exact ⟨rfl, rfl⟩

/-- R184, R276: after the set-up call a pending flag stays set until its read-and-clear in a poll. -/
theorem step_pending {s t : State} (hi : s.initialized = true) (h : step s = .next t) :
    (s.edges.fallingPending = true → s.todo.head? ≠ some .pollFalling → t.edges.fallingPending = true)
      ∧ (s.edges.risingPending = true → s.todo.head? ≠ some .pollRising → t.edges.risingPending = true) := by
  obtain ⟨-, -, k, hk⟩ := step_cases h
  cases hk with
  | clock level _ ht =>
    subst ht
    have hp := envClock_pending level (s.setSched k)
    exact ⟨fun hf _ => hp.1.trans hf, fun hr _ => hp.2.trans hr⟩
  | present opcode flags ht => subst ht; exact ⟨fun hf _ => hf, fun hr _ => hr⟩
  | serial level ht => subst ht; exact ⟨fun hf _ => hf, fun hr _ => hr⟩
  | producer _ ht =>
    subst ht
    exact ⟨fun hf _ => Bool.or_eq_true_iff.2 (.inl hf), fun hr _ => Bool.or_eq_true_iff.2 (.inl hr)⟩
  | idle _ _ ht => subst ht; exact ⟨fun hf _ => hf, fun hr _ => hr⟩
  | run op ops _ h2 ht =>
    have hp := perform_pending ht
    refine ⟨fun hf hne => (hp.1 fun e => hne ?_).trans hf, fun hr hne => (hp.2 fun e => hne ?_).trans hr⟩ <;>
      rw [h2, e] <;> rfl
  | stop op ops _ _ ht =>
    rcases ht with ⟨f, -, rfl⟩ | ⟨r, -, rfl⟩ <;> exact ⟨fun hf _ => hf, fun hr _ => hr⟩
  | call c _ _ ht =>
    have he : t.edges = s.edges := hostCall_edges (s := s.setSched k) hi ht
    exact ⟨fun hf _ => (congrArg Edges.fallingPending he).trans hf, fun hr _ => (congrArg Edges.risingPending he).trans hr⟩
  | refusedCall c r _ _ _ ht => subst ht; exact ⟨fun hf _ => hf, fun hr _ => hr⟩

/-- R356: the attached clock has halted and nothing is pending. -/
structure State.Quiescent (s : State) : Prop where
  clock : s.ClockHalted
  falling : s.edges.fallingPending = false
  rising : s.edges.risingPending = false
  irq : s.edges.irqPending = false

/-- R356: then nothing ever is. -/
theorem step_quiescent {s t : State} (h : s.Quiescent) (hst : step s = .next t) : t.Quiescent := by
  have hc := (step_clockHalted h.clock hst).1
  obtain ⟨-, -, k, hk⟩ := step_cases hst
  cases hk with
  | clock level _ ht =>
    subst ht
    refine ⟨hc, (envClock_pending _ _).1.trans h.falling, (envClock_pending _ _).2.trans h.rising, ?_⟩
    unfold envClock
    split
    · exact h.irq
    · rw [if_pos (by rw [Bool.and_eq_true]; exact ⟨h.clock.fitted, h.clock.halted⟩)]
      exact h.irq
  | present opcode flags ht => subst ht; exact ⟨hc, h.falling, h.rising, h.irq⟩
  | serial level ht => subst ht; exact ⟨hc, h.falling, h.rising, h.irq⟩
  | producer hi _ => rw [h.irq] at hi; cases hi
  | idle _ _ ht => subst ht; exact ⟨hc, h.falling, h.rising, h.irq⟩
  | run op ops _ h2 ht =>
    have hp := perform_pending ht
    have clears : (op = .pollFalling → t.edges.fallingPending = false) ∧ (op = .pollRising → t.edges.risingPending = false) := by
      constructor <;> rintro rfl <;> cases ht
      · unfold pollFalling; dsimp only; split <;> rfl
      · unfold pollRising; dsimp only; split <;> rfl
    refine ⟨hc, ?_, ?_, (perform_clock (s := (s.setSched k).setTodo ops) h.clock.own ht).2.trans h.irq⟩
    · by_cases e : op = .pollFalling
      · exact clears.1 e
      · exact (hp.1 e).trans h.falling
    · by_cases e : op = .pollRising
      · exact clears.2 e
      · exact (hp.2 e).trans h.rising
  | stop op ops _ _ ht =>
    rcases ht with ⟨f, -, rfl⟩ | ⟨r, -, rfl⟩ <;> exact ⟨hc, h.falling, h.rising, h.irq⟩
  | call c _ _ ht =>
    cases hi : s.initialized with
    | true =>
      have he : t.edges = s.edges := hostCall_edges (s := s.setSched k) hi ht
      exact ⟨hc, he ▸ h.falling, he ▸ h.rising, he ▸ h.irq⟩
    | false =>
      obtain ⟨-, rfl⟩ := hostCall_before (s := s.setSched k) hi ht
      exact ⟨hc, rfl, rfl, rfl⟩
  | refusedCall c r _ _ _ ht => subst ht; exact ⟨hc, h.falling, h.rising, h.irq⟩

/-- R356, R276: a run from there keeps it, and is fair however seldom the host polls. -/
theorem runsTo_quiescent {s t : State} {n : Nat} (h : s.Quiescent) (ht : s.runsTo n t) : t.Quiescent := by
  induction n generalizing s with
  | zero => cases ht; exact h
  | succ n ih =>
    simp only [State.runsTo, Host.Core.run] at ht
    split at ht
    · rename_i u hu
      exact ih (step_quiescent h hu) ht
    · cases ht
    · cases ht

theorem fairlyPolled_of_quiescent {s : State} (h : s.Quiescent) : s.FairlyPolled where
  falling _ _ ht hf := absurd hf (by rw [(runsTo_quiescent h ht).falling]; exact Bool.false_ne_true)
  rising _ _ ht hr := absurd hr (by rw [(runsTo_quiescent h ht).rising]; exact Bool.false_ne_true)

end Sys2Proof.Machine
end

