-- ==== Sys2Proof/Laws/Words.lean ====
section
/-! SUPPORT. The line set of an instance (30_encoding.md R72), and that every word the core computes is a set of its lines
(R73): the entries of the built ROM, what a statement stores, and what it goes on to drive. -/

namespace Sys2Proof

/-- R73: a set of lines sets only bits that lines use. -/
theorem LineBits.isLines_iff {l : LineBits} {w : Word} :
    l.isLines w = true ↔ ∀ b : Fin 16, w.getLsbD b.val = true → b ∈ l.used := by
  simp only [LineBits.isLines, List.all_eq_true, List.mem_finRange, true_implies, Bool.or_eq_true, Bool.not_eq_true',
    List.contains_iff_mem]
  exact forall_congr' fun b => by cases w.getLsbD b.val <;> simp

@[simp] theorem LineBits.isLines_zero (l : LineBits) : l.isLines 0#16 = true :=
  isLines_iff.2 fun b h => by simp at h

theorem LineBits.isLines_or {l : LineBits} {v w : Word} (hv : l.isLines v = true) (hw : l.isLines w = true) :
    l.isLines (v ||| w) = true :=
  isLines_iff.2 fun b h => by
    rw [BitVec.getLsbD_or, Bool.or_eq_true] at h
    exact h.elim (isLines_iff.1 hv b) (isLines_iff.1 hw b)

/-- A line's bit is one the instance uses. -/
theorem LineBits.bit_mem_used {l : LineBits} {x : Line} {b : Fin 16} (h : l.bit? x = some b) : b ∈ l.used := by
  cases x with
  | other k => simp [LineBits.used, List.mem_of_getElem? h]
  | _ => simp_all [LineBits.bit?, LineBits.used]

theorem LineBits.isLines_mask (l : LineBits) (x : Line) : l.isLines (l.mask x) = true := by
  unfold LineBits.mask
  cases h : l.bit? x with
  | none => exact l.isLines_zero
  | some b =>
    refine isLines_iff.2 fun c hc => ?_
    have e : c = b := by
      simp only [BitVec.getLsbD_shiftLeft, BitVec.getLsbD_one] at hc
      simp at hc
      exact Fin.ext (by omega)
    exact e ▸ LineBits.bit_mem_used h

/-- R11: the word of a set of lines is a set of lines. -/
theorem LineBits.isLines_word (l : LineBits) (xs : List Line) : l.isLines (l.word xs) = true := by
  induction xs with
  | nil => exact l.isLines_zero
  | cons x xs ih => exact isLines_or (l.isLines_mask x) ih

theorem nodup_of_noRepeats {α : Type} [DecidableEq α] {l : List α} (h : noRepeats l = true) : l.Nodup := by
  induction l with
  | nil => exact List.nodup_nil
  | cons x l ih =>
    simp only [noRepeats, Bool.and_eq_true, Bool.not_eq_true'] at h
    refine List.nodup_cons.2 ⟨fun hx => ?_, ih h.2⟩
    rw [List.contains_iff_mem.2 hx] at h
    cases h.1

/-- R72: a well-formed instance has at least the 14 named lines and at most 16 lines. -/
theorem Config.wf_lineCount {cfg : Config} (h : cfg.wf = true) :
    14 ≤ cfg.lineBits.used.length ∧ cfg.lineBits.used.length ≤ 16 := by
  simp only [Config.wf, Config.linesWf, Bool.and_eq_true] at h
  refine ⟨by simp [LineBits.used], ?_⟩
  simpa using (nodup_of_noRepeats h.1.1.1).length_le_card

/-- R73: the words of a body are sets of lines. -/
theorem Config.wf_bodyLines {cfg : Config} (h : cfg.wf = true) {i : Instr} (hi : i ∈ cfg.definedInstrs) {ws : List Word}
    (hb : cfg.bodyOf i = some ws) {w : Word} (hw : w ∈ ws) : cfg.lineBits.isLines w = true := by
  simp only [Config.wf, Config.bodiesWf, Bool.and_eq_true] at h
  obtain ⟨⟨-, ⟨⟨⟨⟨⟨⟨⟨⟨a, -⟩, -⟩, -⟩, -⟩, -⟩, -⟩, -⟩, -⟩⟩, -⟩ := h
  have hl := List.all_eq_true.1 a i hi
  simp only [hb, Config.bodyWf, Bool.and_eq_true] at hl
  have := List.all_eq_true.1 hl.1.2 w hw
  simp only [Bool.and_eq_true] at this
  exact this.1

/-- R73: the taken word is a set of lines. -/
theorem Config.wf_takenLines {cfg : Config} (h : cfg.wf = true) : cfg.lineBits.isLines cfg.takenWord = true := by
  simp only [Config.wf, Config.bodiesWf, Config.takenWf, Bool.and_eq_true] at h
  obtain ⟨⟨-, ⟨⟨⟨-, ⟨⟨a, -⟩, -⟩⟩, -⟩, -⟩⟩, -⟩ := h
  exact a

end Sys2Proof

namespace Sys2Proof.Machine

/-- The entry's word, where it has one, is a set of lines. -/
def RomEntry.Lines (cfg : Config) (e : RomEntry) : Prop := ∀ w, e = .word w → cfg.lineBits.isLines w = true

theorem RomEntry.lines_override {cfg : Config} {w : Word} {e : RomEntry} (hw : cfg.lineBits.isLines w = true) :
    (e.override w).Lines cfg := by
  intro v hv
  cases e with
  | word u => cases hv; exact hw
  | unchosen => cases hv

/-- The entries of a base row are sets of lines. -/
theorem baseRow_lines {cfg : Config} (h : cfg.wf = true) {i : Instr} (hi : i ∈ cfg.definedInstrs) :
    ∀ e ∈ (baseRow cfg i).entries, e.Lines cfg := by
  intro e he w hw
  subst hw
  simp only [baseRow, List.mem_append, List.mem_cons, RomEntry.word.injEq, List.not_mem_nil, or_false] at he
  rcases he with (rfl | rfl) | he
  · exact cfg.lineBits.isLines_word _
  · exact cfg.lineBits.isLines_word _
  · cases hb : cfg.bodyOf i with
    | none => simp [hb, bodyEntries] at he
    | some ws =>
      simp only [hb, bodyEntries, List.mem_map, RomEntry.word.injEq, exists_eq_right] at he
      exact cfg.wf_bodyLines h hi hb he

/-- The overrides of a FlagState keep that. -/
theorem patches_lines {cfg : Config} (h : cfg.wf = true) (f : FlagState) (b : Byte) {r : RomRow}
    (hr : ∀ e ∈ r.entries, e.Lines cfg) : ∀ e ∈ (patches cfg f b r).entries, e.Lines cfg := by
  have key : ∀ (r : RomRow) (p : Prop) [Decidable p] (j : Nat) (w : Word), cfg.lineBits.isLines w = true →
      (∀ e ∈ r.entries, e.Lines cfg) →
      ∀ e ∈ (if p then { r with entries := r.entries.modify j (RomEntry.override w) } else r).entries, e.Lines cfg := by
    intro r p _ j w hw hr e he
    split at he
    · obtain ⟨k, hk⟩ := List.mem_iff_getElem?.1 he
      simp only [List.getElem?_modify] at hk
      cases hx : r.entries[k]? with
      | none => simp [hx] at hk
      | some x =>
        simp only [hx, Option.map_eq_map, Option.map_some, Option.some.injEq] at hk
        split at hk
        · exact hk ▸ RomEntry.lines_override hw
        · exact hk ▸ hr x (List.mem_of_getElem? hx)
    · exact hr e he
  have ht := cfg.wf_takenLines h
  exact key _ _ _ _ cfg.lineBits.isLines_zero (key _ _ _ _ ht (key _ _ _ _ ht hr))

/-- R73: every word of the built ROM is a set of lines. -/
theorem lookup_lines {cfg : Config} (h : cfg.wf = true) (f : FlagState) (op : Byte) (k : Nat) :
    ((buildRom cfg).lookup f op k).Lines cfg := by
  have zero : (RomEntry.word 0#16).Lines cfg := by rintro w ⟨⟩; exact cfg.lineBits.isLines_zero
  unfold Rom.lookup
  split
  · rw [subTable_find]
    cases hf : (baseTable cfg).find? (fun r => r.opcode == op) with
    | none => exact zero
    | some r =>
      obtain ⟨i, hi, rfl⟩ := List.mem_map.1 (List.mem_of_find?_eq_some hf)
      simp only [Option.map_some, RomRow.entry, List.getD_eq_getElem?_getD]
      cases hx : (patches cfg f op (baseRow cfg i)).entries[k]? with
      | none => exact zero
      | some e => exact patches_lines h f op (baseRow_lines h hi) e (List.mem_of_getElem? hx)
  · exact zero

/-- R73: a word looked up in the built ROM is a set of lines. -/
theorem lookupWord_lines {op : Byte} {k : Nat} {s : State} {w : Word} (h : s.cfg.wf = true) (hr : s.rom = buildRom s.cfg)
    (hw : lookupWord op k s = .next w) : s.cfg.lineBits.isLines w = true := by
  unfold lookupWord at hw
  split at hw
  · cases hw
  · rename_i f _
    simp only [readRom, reduceCtorEq, if_false] at hw
    split at hw
    · rename_i e
      cases hw
      exact lookup_lines h f op k _ (hr ▸ e)
    · cases hw

/-- The statements of a sample drive no word. -/
theorem sampleOps_drivesLines (cfg : Config) (n : SampleSize) : (sampleOps cfg n).all (Op.drivesLines cfg) = true := by
  have hb : (readBitOps cfg).all (Op.drivesLines cfg) = true := by
    unfold readBitOps
    split <;> rfl
  have hr : ∀ store, store.drivesLines cfg = true → (readByteOps cfg store).all (Op.drivesLines cfg) = true := by
    intro store hs
    simp only [readByteOps, List.replicate, List.flatten_cons, List.flatten_nil, List.cons_append, List.all_cons,
      List.all_append, List.all_nil, hb, hs]
    rfl
  cases n <;> simp only [sampleOps, List.all_append, hr .storeOut0 rfl, hr .storeOut1 rfl] <;> rfl

/-- The statements of a drive drive no further word. -/
theorem driveOps_drivesLines (cfg : Config) (cw : Word) (bus : Byte) :
    (driveOps cfg cw bus).all (Op.drivesLines cfg) = true := by
  simp [driveOps, sendBitOps, pulseOps, Op.drivesLines]

/-- R73: the statements of `reset()` drive sets of lines. -/
theorem resetOps_drivesLines (cfg : Config) {ops : List Op} (h : ops.all (Op.drivesLines cfg) = true) :
    (resetOps cfg ++ ops).all (Op.drivesLines cfg) = true := by
  rw [List.all_append, h]
  unfold resetOps
  split <;> split <;> simp [Op.drivesLines]

/-- Statements put before the rest of a call keep that all of them drive sets of lines. -/
theorem computesLines_push {s : State} {ops : List Op} (h : s.computesLines)
    (ho : ops.all (Op.drivesLines s.cfg) = true) : (s.push ops).computesLines :=
  ⟨h.1, by
    show (ops ++ s.todo).all (Op.drivesLines s.cfg) = true
    rw [List.all_append, ho, h.2]; rfl⟩

/-- What neither stores a word nor changes what `Main` has to run keeps it. -/
theorem computesLines_congr {s t : State} (h : s.computesLines) (h1 : t.cfg = s.cfg) (h2 : t.controlWord = s.controlWord)
    (h3 : t.todo = s.todo) : t.computesLines := by
  unfold State.computesLines
  rw [h1, h2, h3]
  exact h

/-- R73: every statement of `Main` keeps it, in a well-formed instance with its ROM built. -/
theorem perform_computesLines {op : Op} {s t : State} (hc : s.cfg.wf = true) (hr : s.rom = buildRom s.cfg)
    (h : s.computesLines) (ho : op.drivesLines s.cfg = true) (hp : perform op s = .next t) : t.computesLines := by
  have wp : ∀ xs, s.cfg.lineBits.isLines (s.cfg.lineBits.word xs) = true := s.cfg.lineBits.isLines_word
  cases op with
  | sample n => obtain ⟨-, rfl⟩ := perform_sample_next hp; exact computesLines_push h (sampleOps_drivesLines _ _)
  | drive cw bus => obtain ⟨-, rfl⟩ := perform_drive_next hp; exact computesLines_push h (driveOps_drivesLines _ _ _)
  | dispatch =>
    obtain ⟨w, hw, rfl⟩ := microStep_next ((exec_eq _ _).symm.trans hp)
    have hl := lookupWord_lines hc hr hw
    refine computesLines_push ⟨hl, h.2⟩ ?_
    simp only [List.all_cons, List.all_nil, Op.drivesLines, Bool.and_true]
    exact hl
  | storeResetWord =>
    replace hp : storeResetWord s = .next t := hp
    unfold storeResetWord at hp
    split at hp
    · cases hp; exact ⟨s.cfg.lineBits.isLines_zero, h.2⟩
    · split at hp
      · rename_i hw
        cases hp
        exact ⟨lookupWord_lines hc hr hw, h.2⟩
      · cases hp
      · cases hp
  | dir d => cases hp; exact computesLines_congr h (by simp) (by simp) (by simp)
  | pin p l => cases hp; exact computesLines_congr h (by simp) (by simp) (by simp)
  | data l => cases hp; exact computesLines_congr h (by simp) (by simp) (by simp)
  | wrapStep => cases hp; unfold wrapStep; split <;> exact h
  | pollFalling => cases hp; unfold pollFalling; dsimp only; split <;> exact h
  | pollRising => cases hp; unfold pollRising; dsimp only; split <;> exact h
  | onFalling =>
    cases hp
    unfold onFalling
    split
    · exact h
    · exact computesLines_push h rfl
    · refine computesLines_push h ?_
      unfold loaderOps phaseAOps phaseBOps
      split
      · simp [Op.drivesLines]
      · split <;> simp [Op.drivesLines, Config.loadAddr, Config.loadData, wp]
  | onRising =>
    cases hp
    unfold onRising
    split
    · exact h
    · refine computesLines_push h ?_
      simp only [List.all_cons, List.all_nil, Op.drivesLines, Bool.and_true]
      exact LineBits.isLines_or h.1 (wp _)
    · exact h
  | _ => cases hp; exact h

/-- R73: every host call keeps it. -/
theorem hostCall_computesLines {c : HostCall} {s t : State} (h : s.computesLines) (hc : hostCall c s = .next t) :
    t.computesLines := by
  cases c with
  | startUp =>
    simp only [hostCall] at hc
    split at hc
    · cases hc
    · cases hc
      have e1 : (startUp s).cfg = s.cfg := by simp [startUp]
      have e2 : (startUp s).todo = s.todo := by simp [startUp]
      refine ⟨LineBits.isLines_zero _, ?_⟩
      rw [e1, e2]
      exact h.2
  | requestMode m =>
    simp only [hostCall, whenInitialized] at hc
    split at hc
    · cases hc
      unfold requestMode
      split
      · exact h
      · exact computesLines_push (s := s.setReply none) h (resetOps_drivesLines s.cfg rfl)
    · cases hc
  | requestReset =>
    simp only [hostCall, whenInitialized] at hc
    split at hc
    · cases hc
      exact computesLines_push (s := s.setReply none) h (resetOps_drivesLines s.cfg rfl)
    · cases hc
  | requestLoadCode bytes =>
    simp only [hostCall, whenInitialized] at hc
    split at hc
    · cases hc
      unfold requestLoadCode
      split <;> exact h
    · cases hc
  | _ =>
    simp only [hostCall, whenInitialized] at hc
    split at hc
    · cases hc
      exact h
    · cases hc

/-- R73: every step of every agent keeps it, in a well-formed instance with its ROM built. -/
theorem step_computesLines {s t : State} (hc : s.cfg.wf = true) (hr : s.rom = buildRom s.cfg) (h : s.computesLines)
    (hst : step s = .next t) : t.computesLines := by
  obtain ⟨-, -, k, hk⟩ := step_cases hst
  cases hk with
  | clock level _ ht =>
    subst ht
    unfold envClock
    split
    · exact h
    · split
      · exact h
      · unfold observeClock
        split <;> exact h
  | present opcode flags ht => subst ht; exact h
  | serial level ht => subst ht; exact h
  | producer _ ht => subst ht; exact h
  | idle _ _ ht => subst ht; exact h
  | run op ops _ h2 ht =>
    have ha := h.2
    rw [h2, List.all_cons, Bool.and_eq_true] at ha
    exact perform_computesLines (s := (s.setSched k).setTodo ops) hc hr ⟨h.1, ha.2⟩ ha.1 ht
  | stop op ops _ _ ht => rcases ht with ⟨f, -, rfl⟩ | ⟨r, -, rfl⟩ <;> exact h
  | call c _ _ ht => exact hostCall_computesLines (s := s.setSched k) h ht
  | refusedCall c r _ _ _ ht => subst ht; exact h

end Sys2Proof.Machine
end

