-- ==== Sys2Proof/Tests/Slice0.lean ====
section
/-! SUPPORT. The model's own tests. Expected values are the vectors of 95_test_vectors.md (named in each comment) or worked
out by hand from a rule; and for every obligation with hypotheses a witness that meets them all. -/

namespace Sys2Proof.Tests

open Sys2Proof.Machine

/-! ### Helpers -/

/-- The machine right after the set-up call. -/
def booted : State := startUp State.reset

/-- `Main` in `Execute` with this opcode and these flags sampled, at this step. -/
def sampledAt (op flags : Byte) (step : Nat) : State :=
  { booted with mode := .execute, instruction := op, flags := flags, instructionStep := step }

/-- The machine with these statements left to run and these moves to come. -/
def facing (ops : List Op) (moves : List Move) (s : State) : State :=
  { s with todo := ops, sched := { script := moves, draws := 0 } }

/-- The word a micro-step stores, where it completes. -/
def storedWord : Host.Outcome State Fault Refusal → Option Word
  | .next s => some s.controlWord
  | .fault _ => none
  | .refused _ => none

/-- The state after a step, where there is one. -/
def after (s : State) : Host.Outcome State Fault Refusal → State
  | .next t => t
  | .fault _ => s
  | .refused _ => s

/-- The reason a micro-step is refused. -/
def refusal : Host.Outcome State Fault Refusal → Option Refusal
  | .refused r => some r
  | .next _ => none
  | .fault _ => none

/-- The fault of a step. -/
def fault : Host.Outcome State Fault Refusal → Option Fault
  | .fault f => some f
  | .next _ => none
  | .refused _ => none

def z0c0 : FlagState := { z := false, c := false }
def z0c1 : FlagState := { z := false, c := true }
def z1c0 : FlagState := { z := true, c := false }
def z1c1 : FlagState := { z := true, c := true }

/-- An instance that chooses every body and has an extra instruction. -/
def fullCfg : Config :=
  { Config.ref with
    extraOpcode := some 0x0F#8
    bodies := { refBodies with
      stb := some [0x4018#16, 0x5000#16, 0x2040#16]
      ste := some [0x4018#16, 0x5000#16, 0x2100#16]
      tba := some [0x0440#16]
      extra := some [0x0080#16] } }

/-- As `sampledAt`, in `fullCfg`. -/
def fullAt (op flags : Byte) (step : Nat) : State :=
  { startUp (State.powerOn fullCfg) with mode := .execute, instruction := op, flags := flags, instructionStep := step }

/-! ### Well-formedness: an ill-formed term for each check -/

theorem test_ref_wf : Config.ref.wf = true := by decide
theorem test_full_wf : fullCfg.wf = true := by decide

/-- R72: two lines on one bit. -/
theorem test_lines_repeat : { Config.ref with lineBits := { refLineBits with rdy := 15 } }.wf = false := by decide
/-- R72: a further line in AO's place, and one where all 16 bits are taken. -/
theorem test_other_line :
    { Config.ref with lineBits := { refLineBits with ao := none, others := [9] } }.wf = true
      ∧ ({ refLineBits with ao := none, others := [9] }).mask (.other 0) = 0x0200#16
      ∧ { Config.ref with lineBits := { refLineBits with others := [9] } }.wf = false := by decide
/-- R73: without a line at bit 9, STA's 0x2200 and TAB's 0x0240 are no sets of lines; nor is a taken word that sets that bit. -/
theorem test_unused_bit :
    { Config.ref with lineBits := { refLineBits with ao := none } }.wf = false
      ∧ { refLineBits with ao := none }.isLines 0x2200#16 = false
      ∧ { Config.ref with lineBits := { refLineBits with ao := none }, takenWord := 0x1204#16 }.takenWf = false := by decide
/-- R108: a jump and a load without an operand fetch, a load that never reads the operand, a jump that never loads the counter,
and a branch whose fetch comes after its branch step. -/
theorem test_operand_bodies :
    { Config.ref with bodies := { refBodies with jmp := some [] } }.wf = false
      ∧ { Config.ref with bodies := { refBodies with lda := some [] } }.wf = false
      ∧ { Config.ref with bodies := { refBodies with sta := some [0x4018#16, 0x2200#16] } }.wf = false
      ∧ { Config.ref with bodies := { refBodies with jmp := some [0x4018#16, 0x5000#16] } }.wf = false
      ∧ { Config.ref with
          branchSteps := { jmc := 2, jmz := 3, jnz := 3 }, bodies := { refBodies with jmc := some [0x0000#16, 0x4018#16] } }.wf
        = false := by decide
/-- R108: LDA and LDB whose operand byte goes nowhere (RO|CE), LDB that transfers it (well formed), LDB that reads it after MAR
has moved on, and LDA that never reads the RAM at it (R126). -/
theorem test_operand_use :
    { Config.ref with bodies := { refBodies with lda := some [0x4008#16, 0x1010#16] } }.wf = false
      ∧ { Config.ref with bodies := { refBodies with ldb := some [0x4008#16, 0x1010#16] } }.wf = false
      ∧ { Config.ref with bodies := { refBodies with ldb := some [0x4008#16, 0x1040#16] } }.wf = true
      ∧ { Config.ref with bodies := { refBodies with ldb := some [0x4008#16, 0x4200#16, 0x1040#16] } }.wf = false
      ∧ { Config.ref with bodies := { refBodies with lda := some [0x4008#16, 0x1400#16] } }.wf = false := by decide
/-- R126: an LDA that latches the flags; R133: a TAB; R123: a taken branch word. R86: a TAB and an ADD that fetch an operand
byte. -/
theorem test_no_flags_no_fetch :
    { Config.ref with bodies := { refBodies with lda := some [0x4018#16, 0x5000#16, 0x1420#16] } }.wf = false
      ∧ { Config.ref with bodies := { refBodies with tab := some [0x0260#16] } }.wf = false
      ∧ { Config.ref with
          takenWord := 0x1024#16
          bodies := { refBodies with jmp := some [0x4018#16, 0x1024#16], jnz := some [0x4018#16, 0x1024#16] } }.wf = false
      ∧ { Config.ref with bodies := { refBodies with tab := some [0x4018#16, 0x1040#16] } }.wf = false
      ∧ { Config.ref with bodies := { refBodies with add := some [0x4018#16, 0x1040#16, 0x0520#16] } }.wf = false := by decide
/-- R123: a JMC that leaves the counter on its operand when not taken, one that moves it twice, and one that moves it too late. -/
theorem test_steps_over :
    { Config.ref with bodies := { refBodies with jmc := some [0x4008#16, 0x0000#16] } }.wf = false
      ∧ { Config.ref with
          branchSteps := { jmc := 4, jmz := 3, jnz := 3 }
          bodies := { refBodies with jmc := some [0x4018#16, 0x0010#16, 0x0000#16] } }.wf = false
      ∧ { Config.ref with bodies := { refBodies with jmc := some [0x4008#16, 0x0000#16, 0x0010#16] } }.wf = false := by decide
/-- R86: an extra instruction whose microcode fetches an operand byte is two bytes long, and one that does not is one. -/
theorem test_extra_operand :
    { fullCfg with bodies := { fullCfg.bodies with extra := some [0x4018#16, 0x5000#16, 0x1400#16] } }.wf = true
      ∧ (Instr.extra 0x0F#8).length
          { fullCfg with bodies := { fullCfg.bodies with extra := some [0x4018#16, 0x5000#16, 0x1400#16] } } = 2
      ∧ (Instr.extra 0x0F#8).length fullCfg = 1 := by decide
/-- R108: TAKEN_WORD = CO|J loads the counter with itself; and AO|J is a taken word only where A holds the operand byte. -/
theorem test_taken_operand :
    { Config.ref with
        takenWord := 0x000C#16
        bodies := { refBodies with jmp := some [0x4008#16, 0x5000#16, 0x000C#16], jnz := some [0x4018#16, 0x000C#16] } }.takenWf
        = false
      ∧ { Config.ref with takenWord := 0x0204#16 }.jumpBodyWf (some [0x4018#16, 0x1400#16, 0x0204#16]) = true
      ∧ { Config.ref with takenWord := 0x0204#16 }.jumpBodyWf (some [0x4018#16, 0x5000#16, 0x0204#16]) = false := by decide
/-- R84: two mnemonics on one opcode. -/
theorem test_opcodes_repeat : { Config.ref with opcodes := { refOpcodes with tba := 0x0D#8 } }.wf = false := by decide
/-- R84, R136: the extra opcode on a mnemonic's. -/
theorem test_extra_repeats : { Config.ref with extraOpcode := some 0x0E#8 }.wf = false := by decide
/-- R84: NOP elsewhere than 0x00. -/
theorem test_nop_not_zero : { Config.ref with opcodes := { refOpcodes with nop := 0x0F#8 } }.wf = false := by decide
/-- R108: a body of six words. -/
theorem test_body_long : { Config.ref with bodies := { refBodies with tab := some (List.replicate 6 0x0240#16) } }.wf = false := by
  decide
/-- R108: a body word that asserts RDY. -/
theorem test_body_rdy : { Config.ref with bodies := { refBodies with tab := some [0x0241#16] } }.wf = false := by decide
/-- R108: a zero word in a body. -/
theorem test_body_zero : { Config.ref with bodies := { refBodies with tab := some [0x0000#16] } }.wf = false := by decide
/-- R107: a branch step outside the body, below 2, and above 6. -/
theorem test_branch_step :
    { Config.ref with branchSteps := { jmc := 4, jmz := 3, jnz := 3 } }.wf = false
      ∧ { Config.ref with branchSteps := { jmc := 3, jmz := 1, jnz := 3 } }.wf = false
      ∧ { Config.ref with branchSteps := { jmc := 3, jmz := 3, jnz := 7 } }.wf = false := by decide
/-- R108: ADD without the flags line, ADD that subtracts, and SUB that does not. -/
theorem test_arithmetic_bodies :
    { Config.ref with bodies := { refBodies with add := some [0x0500#16] } }.wf = false
      ∧ { Config.ref with bodies := { refBodies with add := some [0x05A0#16] } }.wf = false
      ∧ { Config.ref with bodies := { refBodies with sub := some [0x0520#16] } }.wf = false := by decide
/-- R107: a taken word that loads no counter, or asserts RDY. -/
theorem test_taken_word :
    { Config.ref with takenWord := 0x1000#16, bodies := { refBodies with jnz := some [0x4018#16, 0x1000#16] } }.wf = false
      ∧ { Config.ref with takenWord := 0x1005#16, bodies := { refBodies with jnz := some [0x4018#16, 0x1005#16] } }.wf
        = false := by decide
/-- R81: a flags table that is too short. -/
theorem test_flags_table : { Config.ref with flagsDecode := .table [some z0c0] }.wf = false := by decide
/-- R135, R136: a defined opcode as an undefined one, and an extra instruction that REF lacks. -/
theorem test_instr_wf : (Instr.undef 0x06#8).wf Config.ref = false ∧ (Instr.extra 0x0F#8).wf Config.ref = false := by decide
/-- R86: an operand where there is none, and none where there is one. -/
theorem test_line_wf :
    (AsmLine.withOperand .add 0x01#8).wf Config.ref = false ∧ (AsmLine.plain .lda).wf Config.ref = false := by decide
/-- The RAM's form: two entries out of order, one address twice, an address beyond the RAM. -/
theorem test_memory_wf :
    Memory.wf [(2, 0#8), (1, 0#8)] = false ∧ Memory.wf [(1, 0#8), (1, 1#8)] = false ∧ Memory.wf [(256, 0#8)] = false := by
  decide

/-! ### Decoding (R84 under REF, R86, R88; the words as opcode_table.json numbers their bits) -/

theorem test_decode_control :
    decodeTableWord 8 0x00 = some .nop ∧ decodeTableWord 8 0x01 = some .hlt ∧ decodeTableWord 16 0x1202 = some .jmp
      ∧ decodeTableWord 16 0x3403 = some .jmc ∧ decodeTableWord 16 0xFF04 = some .jmz
      ∧ decodeTableWord 16 0x0005 = some .jnz := by decide
theorem test_decode_memory :
    decodeTableWord 16 0x0806 = some .lda ∧ decodeTableWord 16 0x0907 = some .ldb ∧ decodeTableWord 16 0x0A08 = some .sta
      ∧ decodeTableWord 16 0x0009 = some .stb ∧ decodeTableWord 16 0x000A = some .ste := by decide
theorem test_decode_arithmetic :
    decodeTableWord 8 0x0B = some .add ∧ decodeTableWord 8 0x0C = some .sub ∧ decodeTableWord 8 0x0D = some .tab
      ∧ decodeTableWord 8 0x0E = some .tba := by decide
theorem test_decode_unnamed :
    decodeTableWord 8 0x0F = some (.undef 0x0F#8) ∧ decodeTableWord 8 0xFF = some (.undef 0xFF#8)
      ∧ decodeOpcode fullCfg 0x0F#8 = .extra 0x0F#8 := by decide
/-- P1's image (95_test_vectors.md). -/
theorem test_assemble :
    assemble Config.ref [.withOperand .lda 0x08#8, .withOperand .ldb 0x09#8, .plain .add, .withOperand .sta 0x0A#8,
        .plain .hlt, .data 0x05#8, .data 0x03#8]
      = [0x06#8, 0x08#8, 0x07#8, 0x09#8, 0x0B#8, 0x08#8, 0x0A#8, 0x01#8, 0x05#8, 0x03#8] := by decide
/-- R86: an opcode that ends before its operand. -/
theorem test_decode_short : decodeLine Config.ref [0x06#8] = .error (.noOperand .lda) := by decide

/-! ### Control words, frames and flags (95_test_vectors.md 2.1, S4, 2.2) -/

theorem test_wire : Config.ref.wire 0x4008#16 = 0x3E4C#16 ∧ Config.ref.wire 0xFFFF#16 = 0x81BB#16 := by decide
theorem test_frame : Config.ref.frame 0x2003#16 0xA5#8 = 0xA55E47#24 := by decide
theorem test_loader_words : Config.ref.loadAddr = 0x4003#16 ∧ Config.ref.loadData = 0x2003#16 := by decide
theorem test_flags_decode :
    decodeFlags Config.ref 0x02#8 = some z1c0 ∧ decodeFlags Config.ref 0x03#8 = some z1c1
      ∧ decodeFlags Config.ref 0x04#8 = none ∧ decodeFlags Config.ref 0x80#8 = none := by decide
/-- S3: JNZ and JMC at their branch step under each FlagState. -/
theorem test_branch_table :
    [z0c0, z0c1, z1c0, z1c1].map (fun f => (buildRom Config.ref).lookup f 0x05#8 3)
        = [.word 0x1004#16, .word 0x1004#16, .word 0#16, .word 0#16]
      ∧ [z0c0, z0c1, z1c0, z1c1].map (fun f => (buildRom Config.ref).lookup f 0x03#8 3)
        = [.word 0#16, .word 0x1004#16, .word 0#16, .word 0x1004#16] := by decide
/-- B1: the bits a drive sends. -/
theorem test_drive_bits :
    frameBits (Config.ref.frame 0x4008#16 0#8)
      = [false, false, false, false, false, false, false, false, false, false, true, true, true, true, true, false,
         false, true, false, false, true, true, false, false] := by decide

/-! ### One micro-step of each instruction (95_test_vectors.md, vectors M01 to M31) -/

theorem test_nop_fetch : storedWord (exec .nop (sampledAt 0x00 0x00 0)) = some 0x4008#16 := by decide
theorem test_nop_pad : storedWord (exec .nop (sampledAt 0x00 0x02 6)) = some 0#16 := by decide
theorem test_hlt : storedWord (exec .hlt (sampledAt 0x01 0x00 2)) = some 0x8000#16 := by decide
theorem test_jmp : storedWord (exec .jmp (sampledAt 0x02 0x02 3)) = some 0x1004#16 := by decide
theorem test_jmc_taken : storedWord (exec .jmc (sampledAt 0x03 0x01 3)) = some 0x1004#16 := by decide
theorem test_jmc_falls : storedWord (exec .jmc (sampledAt 0x03 0x02 3)) = some 0#16 := by decide
theorem test_jmz_taken : storedWord (exec .jmz (sampledAt 0x04 0x02 3)) = some 0x1004#16 := by decide
theorem test_jmz_falls : storedWord (exec .jmz (sampledAt 0x04 0x01 3)) = some 0#16 := by decide
theorem test_jnz_taken : storedWord (exec .jnz (sampledAt 0x05 0x00 3)) = some 0x1004#16 := by decide
theorem test_jnz_falls : storedWord (exec .jnz (sampledAt 0x05 0x03 3)) = some 0#16 := by decide
theorem test_lda : storedWord (exec .lda (sampledAt 0x06 0x03 4)) = some 0x1400#16 := by decide
theorem test_ldb : storedWord (exec .ldb (sampledAt 0x07 0x01 4)) = some 0x1040#16 := by decide
theorem test_sta : storedWord (exec .sta (sampledAt 0x08 0x02 4)) = some 0x2200#16 := by decide
theorem test_stb_fetch : storedWord (exec .stb (sampledAt 0x09 0x00 0)) = some 0x4008#16 := by decide
theorem test_stb_unchosen : refusal (exec .stb (sampledAt 0x09 0x00 2)) = some (.bodyNotChosen 0x09#8 2) := by decide
theorem test_ste_fetch : storedWord (exec .ste (sampledAt 0x0A 0x01 1)) = some 0x1810#16 := by decide
theorem test_ste_unchosen : refusal (exec .ste (sampledAt 0x0A 0x01 6)) = some (.bodyNotChosen 0x0A#8 6) := by decide
theorem test_add : storedWord (exec .add (sampledAt 0x0B 0x00 2)) = some 0x0520#16 := by decide
theorem test_sub : storedWord (exec .sub (sampledAt 0x0C 0x03 2)) = some 0x05A0#16 := by decide
theorem test_tab : storedWord (exec .tab (sampledAt 0x0D 0x00 2)) = some 0x0240#16 := by decide
theorem test_tba_fetch : storedWord (exec .tba (sampledAt 0x0E 0x00 0)) = some 0x4008#16 := by decide
theorem test_tba_unchosen : refusal (exec .tba (sampledAt 0x0E 0x02 3)) = some (.bodyNotChosen 0x0E#8 3) := by decide
theorem test_undef : storedWord (exec (.undef 0x80#8) (sampledAt 0x80 0x03 1)) = some 0#16 := by decide
theorem test_extra : storedWord (exec (.extra 0x0F#8) (fullAt 0x0F 0x00 2)) = some 0x0080#16 := by decide
/-- X09: flags that do not decode stop the micro-step. -/
theorem test_flags_fault : fault (exec .add (sampledAt 0x0B 0x04 2)) = some (.flagsOutOfRange 0x04#8) := by decide

/-! ### Handlers and calls -/

/-- X04: the wrap check (R210). -/
theorem test_wrap : (wrapStep (sampledAt 0x06 0x00 7)).instructionStep = 0 := by decide
/-- R-3: what `reset()` stores under `LookupStep0`, the flags being 0x01. -/
theorem test_reset_lookup :
    storedWord (storeResetWord { sampledAt 0x07 0x01 0 with cfg := { Config.ref with resetStore := .lookupStep0 } })
      = some 0x4008#16 := by decide
/-- R-2, R-4: the other reset parameters run the flags' sample and the loader's clearing. -/
theorem test_reset_parameters :
    (resetOps { Config.ref with resetSample := .two }).take 3 = [.sample .two, .takeOpcode, .takeFlags]
      ∧ (clearLoader { booted with loader := { Loader.empty with codeLoaded := 2, addressSetup := true } }).loader
        = Loader.empty := by decide
/-- X08: the rising edge drives the stored word with RDY (D23). -/
theorem test_rising :
    (onRising { sampledAt 0x0C 0x01 3 with controlWord := 0x05A0#16 }).todo = [.drive 0x05A1#16 0#8] := by decide
/-- S7, edges 1 and 2: the loader's two phases. -/
theorem test_loader_phases :
    (onFalling { booted with
        mode := .loadCode, loader := { Loader.empty with code := [0x1E#8], codeSize := 1 } }).todo
      = [.stageByte, .drive 0x4003#16 0#8, .finishPhaseA]
    ∧ (onFalling { booted with
        mode := .loadCode
        loader := { code := [0x1E#8], codeSize := 1, codeLoaded := 0, addressSetup := true, codeToLoad := 0x1E#8 } }).todo
      = [.drive 0x2003#16 0x1E#8, .finishPhaseB] := by decide
/-- L4: an empty buffer. -/
theorem test_load_empty :
    (after booted (hostCall (.requestLoadCode []) { booted with mode := .loadCode })).reply = some (.accepted true) := by decide
/-- S5, calls 2 and 5. -/
theorem test_guard : rejectsMode .execute .loadCode = true ∧ rejectsMode .loadCode .execute = true := by decide
/-- H1, H4. -/
theorem test_call_order :
    refusal (hostCall .pollOnce State.reset) = some (.notInitialized .pollOnce)
      ∧ refusal (hostCall .startUp booted) = some .doubleInitialize := by decide
/-- R301: the error codes of a rejected transition and a rejected load; R260: a load refused before `initialize()` has none. -/
theorem test_error_codes :
    errorCode (.requestMode .execute) { booted with mode := .loadCode } = some .rejectedTransition
      ∧ errorCode (.requestLoadCode [0x01#8]) booted = some .rejectedLoad
      ∧ errorCode (.requestLoadCode [0x01#8]) State.reset = none := by decide

/-! ### Lines, clock and the attached CPU -/

/-- R151: a rising edge of SCLK shifts the level on DATA into the output chain. -/
theorem test_shift :
    (setSclk true { booted with lines := { booted.lines with dataDir := .output, dataOut := true } }).chains.outShift = 1#24 := by
  decide
/-- R156: the output latch event. -/
theorem test_latch :
    (setOutLatch true { booted with
        lines := { booted.lines with outLatch := false }
        chains := { booted.chains with outShift := 0x003E4C#24 } }).chains.outVisible = 0x003E4C#24 := by decide
/-- R181: a transition requests the interrupt; R33: setting the level CLK_IN has is none. -/
theorem test_transition :
    (envClock true booted).edges.irqPending = true ∧ (envClock false booted).edges.irqPending = false := by decide
/-- K6: the level at the `Producer`'s step counts. -/
theorem test_producer : (producerStep (envClock true booted)).edges.risingPending = true := by decide
/-- R305 M3: what the `Producer` may not touch. -/
theorem test_producer_violation :
    fault (startDrive .producer 0#16 0#8 booted) = some (.producerTouchedBus (.bus .drive))
      ∧ fault (touchModeMachine .producer .mode booted) = some (.producerTouchedBus (.modeField .mode)) := by decide
/-- R340, R341: the ROM is built from the start. -/
theorem test_rom_at_power_on : State.reset.rom.lookup z0c0 0x0B#8 2 = .word 0x0520#16 := by decide
/-- R361: where CLK_IN is DATA, sending a 1 is a transition of CLK_IN. -/
theorem test_shared_clock :
    (setData true { booted with
        cfg := { Config.ref with clkSharesData := true }
        lines := { booted.lines with dataDir := .output } }).edges.irqPending = true := by decide
/-- R345: the calls of a script that boots a program, polls and clock moves between them. -/
theorem test_boot_calls :
    (([.call .startUp, .call (.requestMode .loadCode), .call (.requestLoadCode [0x01#8]), .clock true, .clock false,
        .call .pollOnce, .call .statusRead, .call (.requestMode .idle), .call (.requestMode .execute), .core]
      : List Move).filterMap Move.call?).filter (fun c => !c.inBetween) = bootCalls [0x01#8] := by decide

/-- The machine after HLT's rising edge has been served, its attached clock halted (R356, D33). -/
def haltedHere : State :=
  { sampledAt 0x01 0x00 3 with
    controlWord := 0x8000#16
    chains := { booted.chains with outVisible := 0x00FE45#24 }
    board := { booted.board with fitted := true, cpu := { booted.board.cpu with halted := true } } }

/-- R380: that is the end of a run, and with the halt line off it is not. -/
theorem test_run_ended : haltedHere.RunEnded ∧ ¬ { haltedHere with controlWord := 0#16 }.RunEnded :=
  ⟨⟨rfl, by decide, ⟨by decide, rfl⟩, rfl, rfl, rfl, clockStopped_of_halted ⟨rfl, rfl, rfl⟩⟩,
    fun h => absurd h.halt (by decide)⟩

/-- R356, R276: from there a run is fair, since no edge is ever pending again. -/
theorem test_fairly_polled : haltedHere.FairlyPolled :=
  fairlyPolled_of_quiescent ⟨⟨rfl, rfl, rfl⟩, rfl, rfl, rfl⟩

/-- P1, cycle 5: RO|AI loads A from the RAM at MAR. -/
theorem test_board_load :
    (boardTick Config.ref 0x1400#16 0#8
      { booted.board with cpu := { booted.board.cpu with mar := 0x08#8 }, ram := [(8, 0x05#8)] }).cpu.a = 0x05#8 := by decide
/-- D33: 0x80 + 0x80 carries and is zero; 0x01 - 0x02 borrows. -/
theorem test_alu :
    (aluResult 0x80#8 0x80#8 false, aluZero 0x80#8 0x80#8 false, aluCarry 0x80#8 0x80#8 false) = (0x00#8, true, true)
      ∧ (aluResult 0x01#8 0x02#8 true, aluCarry 0x01#8 0x02#8 true) = (0xFF#8, false) := by decide
/-- Memory: a write keeps the addresses rising, and is read back. -/
theorem test_memory :
    memWrite [(1, 0x11#8), (4, 0x44#8)] 0x02#8 0x22#8 = [(1, 0x11#8), (2, 0x22#8), (4, 0x44#8)]
      ∧ memRead [(1, 0x11#8), (4, 0x44#8)] 0x04#8 = 0x44#8 := by decide
/-- Log entry 21: the placed instruction is the next step's. -/
theorem test_placed :
    (after State.reset (step (State.reset.withFetchWord 16 0x0806))).controlWord = 0x4008#16
      ∧ (after State.reset (step (State.reset.withFetchWord 8 0x0F))).controlWord = 0#16 := by decide

/-! ### Witnesses: for every obligation with hypotheses, values that meet all of them together -/

theorem witness_opcodeRoundTrip :
    (Config.ref.wf = true ∧ (Instr.undef 0xFF#8).wf Config.ref = true)
      ∧ fullCfg.wf = true ∧ (Instr.extra 0x0F#8).wf fullCfg = true := by decide

theorem witness_everyByteDecodes : Config.ref.wf = true ∧ decodeOpcode Config.ref 0x0F#8 = .undef 0x0F#8 := by decide

theorem witness_assemblerLineRoundTrip :
    Config.ref.wf = true ∧ (AsmLine.plain .tba).wf Config.ref = true
      ∧ (AsmLine.withOperand .jmp 0xFF#8).wf Config.ref = true := by decide

theorem witness_universalFetchRows : Config.ref.wf = true ∧ Instr.tba ∈ Config.ref.definedInstrs := by decide

theorem witness_undefinedRowsAreZero : Config.ref.wf = true ∧ 0x0F#8 ∉ Config.ref.definedOpcodes := by decide

/-- At the first padded step, and beyond the last step of a body of none. -/
theorem witness_rowsArePaddedWithZero :
    Config.ref.wf = true ∧ Instr.add ∈ Config.ref.definedInstrs ∧ Config.ref.bodyOf .add = some [0x0520#16]
      ∧ 2 + [0x0520#16].length ≤ 3 ∧ Config.ref.bodyOf .nop = some [] := by decide

/-- A conditional jump beside its branch step, and another instruction at it. -/
theorem witness_rowsAreFlagIndependent :
    Config.ref.wf = true ∧ Instr.jmc ∈ Config.ref.definedInstrs ∧ 2 ≠ Config.ref.branchSteps.jmc
      ∧ Instr.jmp ∈ Config.ref.definedInstrs ∧ Config.ref.branchSteps.jmc = 3 := by decide

theorem witness_branchTruthTable :
    Config.ref.wf = true ∧ Config.ref.bodies.jmc.isSome = true ∧ Config.ref.bodies.jmz.isSome = true
      ∧ Config.ref.bodies.jnz.isSome = true := by decide

/-- A sampled opcode under REF, at any step, with these flags. -/
theorem witness_sampled (op : Byte) (step : Nat) :
    (sampledAt op 0x00#8 step).sampled z0c0 ∧ (sampledAt op 0x03#8 step).sampled z1c1 :=
  ⟨⟨test_ref_wf, rfl, show decodeFlags Config.ref 0x00#8 = some z0c0 by decide⟩, test_ref_wf, rfl,
    show decodeFlags Config.ref 0x03#8 = some z1c1 by decide⟩

/-- The same in the instance that chooses every body. -/
theorem witness_sampled_full (op : Byte) (step : Nat) : (fullAt op 0x02#8 step).sampled z1c0 :=
  ⟨test_full_wf, rfl, show decodeFlags fullCfg 0x02#8 = some z1c0 by decide⟩

theorem witness_nopDrivesFetchThenZero : (sampledAt 0x00#8 0x00#8 0).sampled z0c0 := (witness_sampled _ _).1

theorem witness_hltAndJmpDriveTheirRows :
    (sampledAt 0x01#8 0x00#8 2).sampled z0c0 ∧ Instr.hlt ∈ [Instr.hlt, .jmp]
      ∧ (sampledAt 0x01#8 0x00#8 2).cfg.bodyOf .hlt = some [0x8000#16] :=
  ⟨(witness_sampled _ _).1, by decide, by decide⟩

/-- STA under REF, and STE where its body is chosen. -/
theorem witness_loadsAndStoresDriveTheirRows :
    ((sampledAt 0x08#8 0x03#8 4).sampled z1c1
      ∧ (sampledAt 0x08#8 0x03#8 4).cfg.bodyOf .sta = some [0x4018#16, 0x5000#16, 0x2200#16])
    ∧ (fullAt 0x0A#8 0x02#8 4).sampled z1c0
      ∧ (fullAt 0x0A#8 0x02#8 4).cfg.bodyOf .ste = some [0x4018#16, 0x5000#16, 0x2100#16] :=
  ⟨⟨(witness_sampled _ _).2, by decide⟩, witness_sampled_full _ _, by decide⟩

/-- SUB under REF, and TBA where its body is chosen. -/
theorem witness_arithmeticAndTransfersDriveTheirRows :
    ((sampledAt 0x0C#8 0x00#8 2).sampled z0c0 ∧ (sampledAt 0x0C#8 0x00#8 2).cfg.bodyOf .sub = some [0x05A0#16])
    ∧ (fullAt 0x0E#8 0x02#8 2).sampled z1c0 ∧ (fullAt 0x0E#8 0x02#8 2).cfg.bodyOf .tba = some [0x0440#16] :=
  ⟨⟨(witness_sampled _ _).1, by decide⟩, witness_sampled_full _ _, by decide⟩

/-- At the branch step with C = 1, and beside it. -/
theorem witness_jmcBranchesOnCarry :
    (sampledAt 0x03#8 0x03#8 3).sampled z1c1 ∧ (sampledAt 0x03#8 0x03#8 3).cfg.bodyOf .jmc = some [0x4018#16, 0#16]
      ∧ 3 = Config.ref.branchSteps.jmc ∧ Config.ref.takenWord = 0x1004#16
      ∧ (sampledAt 0x03#8 0x00#8 2).sampled z0c0 ∧ Config.ref.rowWord [0x4018#16, 0#16] 2 = 0x4018#16 :=
  ⟨(witness_sampled _ _).2, by decide, by decide, by decide, (witness_sampled _ _).1, by decide⟩

theorem witness_jmzBranchesOnZero :
    (sampledAt 0x04#8 0x03#8 3).sampled z1c1 ∧ (sampledAt 0x04#8 0x03#8 3).cfg.bodyOf .jmz = some [0x4018#16, 0#16]
      ∧ (sampledAt 0x04#8 0x00#8 3).sampled z0c0 :=
  ⟨(witness_sampled _ _).2, by decide, (witness_sampled _ _).1⟩

theorem witness_jnzBranchesOnNotZero :
    (sampledAt 0x05#8 0x00#8 3).sampled z0c0
      ∧ (sampledAt 0x05#8 0x00#8 3).cfg.bodyOf .jnz = some [0x4018#16, 0x1004#16]
      ∧ (sampledAt 0x05#8 0x03#8 3).sampled z1c1 :=
  ⟨(witness_sampled _ _).1, by decide, (witness_sampled _ _).2⟩

/-- The first and the last byte outside REF's opcode map. -/
theorem witness_undefinedOpcodeDrivesZero :
    ((sampledAt 0x0F#8 0x00#8 0).sampled z0c0 ∧ (Instr.undef 0x0F#8).wf (sampledAt 0x0F#8 0x00#8 0).cfg = true)
    ∧ (sampledAt 0xFF#8 0x03#8 6).sampled z1c1 ∧ (Instr.undef 0xFF#8).wf (sampledAt 0xFF#8 0x03#8 6).cfg = true :=
  ⟨⟨(witness_sampled _ _).1, by decide⟩, (witness_sampled _ _).2, by decide⟩

theorem witness_extraInstructionDrivesItsRow :
    (fullAt 0x0F#8 0x02#8 2).sampled z1c0 ∧ (Instr.extra 0x0F#8).wf (fullAt 0x0F#8 0x02#8 2).cfg = true
      ∧ (fullAt 0x0F#8 0x02#8 2).cfg.bodyOf (.extra 0x0F#8) = some [0x0080#16] :=
  ⟨witness_sampled_full _ _, by decide, by decide⟩

/-- Both clauses at their boundary steps 0, 1, 2 and 6. -/
theorem witness_unchosenBodyIsRefusedAfterFetch :
    (sampledAt 0x09#8 0x00#8 0).sampled z0c0 ∧ Instr.stb ∈ (sampledAt 0x09#8 0x00#8 0).cfg.definedInstrs
      ∧ (sampledAt 0x09#8 0x00#8 0).cfg.bodyOf .stb = none ∧ (sampledAt 0x0A#8 0x00#8 1).sampled z0c0
      ∧ (sampledAt 0x0E#8 0x03#8 2).sampled z1c1 ∧ (sampledAt 0x0E#8 0x03#8 6).sampled z1c1
      ∧ (sampledAt 0x0E#8 0x03#8 6).cfg.bodyOf .tba = none :=
  ⟨(witness_sampled _ _).1, by decide, by decide, (witness_sampled _ _).1, (witness_sampled _ _).2,
    (witness_sampled _ _).2, by decide⟩

theorem witness_unknownFlagsFaultBeforeLookup :
    decodeFlags (sampledAt 0x0B#8 0x04#8 2).cfg (sampledAt 0x0B#8 0x04#8 2).flags = none := by decide

theorem witness_instructionFrame : ∃ t, exec .add (sampledAt 0x0B#8 0x00#8 2) = .next t := ⟨_, rfl⟩

theorem witness_stepRunsSampledInstruction :
    (facing [.dispatch] [.core] (sampledAt 0x06#8 0x00#8 4)).live
      ∧ (facing [.dispatch] [.core] (sampledAt 0x06#8 0x00#8 4)).edges.irqPending = false
      ∧ (facing [.dispatch] [.core] (sampledAt 0x06#8 0x00#8 4)).sched.script = .core :: []
      ∧ (facing [.dispatch] [.core] (sampledAt 0x06#8 0x00#8 4)).todo = .dispatch :: [] :=
  ⟨⟨rfl, rfl⟩, rfl, rfl, rfl⟩

/-- What every whole-call statement asks of the machine, between calls. -/
theorem witness_undisturbed : booted.undisturbed ∧ booted.lines.atRest booted.cfg ∧ booted.cfg.readBeforePulse = true :=
  ⟨⟨⟨rfl, rfl⟩, rfl, rfl⟩, ⟨rfl, rfl, rfl, rfl⟩, rfl⟩

/-- The core's next turns are `Main`'s. -/
def running (n : Nat) (ops : List Op) (s : State) : State := facing ops (List.replicate n .core ++ [.await]) s

theorem witness_running (n : Nat) (ops : List Op) (s : State) (h : s.undisturbed) (hr : s.lines.atRest s.cfg) :
    (running n ops s).undisturbed ∧ (running n ops s).lines.atRest s.cfg ∧ (running n ops s).todo = ops
      ∧ (running n ops s).coreTurns n [.await] := ⟨h, hr, rfl, rfl⟩

theorem witness_driveLatchesItsFrame :
    (running 125 [.drive 0x4008#16 0#8] booted).undisturbed
      ∧ (running 125 [.drive 0x4008#16 0#8] booted).lines.atRest booted.cfg
      ∧ (running 125 [.drive 0x4008#16 0#8] booted).todo = [.drive 0x4008#16 0#8]
      ∧ (running 125 [.drive 0x4008#16 0#8] booted).coreTurns 125 [.await] :=
  witness_running _ _ _ witness_undisturbed.1 witness_undisturbed.2.1

theorem witness_sampleReturnsPresentedBytes :
    (running 89 [.sample .two] booted).undisturbed ∧ (running 89 [.sample .two] booted).lines.atRest booted.cfg
      ∧ (running 89 [.sample .two] booted).todo = [.sample .two]
      ∧ (running 89 [.sample .two] booted).coreTurns 89 [.await] :=
  witness_running _ _ _ witness_undisturbed.1 witness_undisturbed.2.1

theorem witness_wrongDirectionFaults : (setDir .output booted).lines.dataDir = .output := by decide

/-- A step at an output latch event, and a step elsewhere. -/
theorem witness_outputsChangeOnlyAtLatch :
    (∃ t, step (facing [.pin .outLatch true] [.core]
        { booted with lines := { booted.lines with outLatch := false } }) = .next t)
      ∧ (∃ t, step (facing [.takeFlags] [.core] booted) = .next t) ∧ State.reset.initialized = false :=
  ⟨⟨_, rfl⟩, ⟨_, rfl⟩, rfl⟩

/-- A statement of each outcome. -/
theorem witness_statementsIgnoreTheInterrupt :
    booted.cfg.clkSharesData = false ∧ (Op.readBit ≠ .pollFalling ∧ Op.readBit ≠ .pollRising)
      ∧ (∃ t, perform .readBit booted = .next t)
      ∧ perform (.sample .one) (setDir .output booted) = .fault (.dataPinWrongDirection .sample)
      ∧ perform .dispatch (sampledAt 0x09#8 0x00#8 2) = .refused (.bodyNotChosen 0x09#8 2) :=
  ⟨rfl, ⟨by decide, by decide⟩, ⟨_, rfl⟩, rfl, rfl⟩

/-- The machine with the interrupt requested. -/
def requested : State := envClock true booted

theorem witness_producerRecordsCurrentLevel :
    (facing [.readBit] [.core] requested).live ∧ (facing [.readBit] [.core] requested).edges.irqPending = true
      ∧ (facing [.readBit] [.core] requested).sched.script = .core :: [] := ⟨⟨rfl, rfl⟩, rfl, rfl⟩

/-- The core's step, the environment's, and a host call that waits. -/
theorem witness_producerHasPriority :
    (∃ t, step (facing [.readBit] [.core] requested) = .next t)
      ∧ (∃ t, step (facing [.readBit] [.clock false] requested) = .next t)
      ∧ (∃ t, step (facing [] [.call .pollOnce] requested) = .next t) ∧ requested.edges.irqPending = true :=
  ⟨⟨_, rfl⟩, ⟨_, rfl⟩, ⟨_, rfl⟩, rfl⟩

theorem witness_transitionRequestsInterrupt :
    booted.edges.Inv booted.cfg.clkSharesData ∧ booted.cfg.clkSharesData = false ∧ booted.edges.attachedClk ≠ true
      ∧ (booted.board.fitted && booted.board.cpu.halted) = false :=
  ⟨⟨fun _ => rfl, fun _ => rfl⟩, rfl, by decide, rfl⟩

theorem witness_pollServesEachFlagOnce : booted.initialized = true := rfl

/-- A falling edge at the wrap, and at a step that does not wrap. -/
theorem witness_fallingEdgeInExecute :
    ((running 220 [.onFalling] (sampledAt 0x06#8 0x00#8 7)).undisturbed
      ∧ (running 220 [.onFalling] (sampledAt 0x06#8 0x00#8 7)).lines.atRest booted.cfg
      ∧ (running 220 [.onFalling] (sampledAt 0x06#8 0x00#8 7)).todo = [.onFalling]
      ∧ (running 220 [.onFalling] (sampledAt 0x06#8 0x00#8 7)).coreTurns 220 [.await])
    ∧ (sampledAt 0x06#8 0x00#8 7).mode = .execute
      ∧ decodeFlags Config.ref (presented (sampledAt 0x06#8 0x00#8 7)).flags = some z0c0
      ∧ (sampledAt 0x06#8 0x00#8 7).rom.lookup z0c0 (presented (sampledAt 0x06#8 0x00#8 7)).opcode 0 = .word 0x4008#16
      ∧ (sampledAt 0x06#8 0x00#8 6).rom.lookup z0c0 (presented (sampledAt 0x06#8 0x00#8 6)).opcode 6 = .word 0#16 :=
  ⟨witness_running _ _ _ witness_undisturbed.1 witness_undisturbed.2.1, rfl, by decide, by decide, by decide⟩

theorem witness_risingEdgeInExecute :
    ((running 126 [.onRising] (sampledAt 0x0C#8 0x01#8 3)).undisturbed
      ∧ (running 126 [.onRising] (sampledAt 0x0C#8 0x01#8 3)).lines.atRest booted.cfg
      ∧ (running 126 [.onRising] (sampledAt 0x0C#8 0x01#8 3)).todo = [.onRising]
      ∧ (running 126 [.onRising] (sampledAt 0x0C#8 0x01#8 3)).coreTurns 126 [.await])
    ∧ (running 126 [.onRising] (sampledAt 0x0C#8 0x01#8 3)).mode = .execute :=
  ⟨witness_running _ _ _ witness_undisturbed.1 witness_undisturbed.2.1, rfl⟩

theorem witness_edgesOutsideTheirModeAreLost :
    booted.mode = .idle ∧ (producerStep booted).edges.fallingPending = true
      ∧ { booted with mode := .loadCode }.mode = .loadCode := ⟨rfl, rfl, rfl⟩

/-- Both guarded transitions. -/
theorem witness_rejectedModeRequestChangesNothing :
    ((facing [] [.call (.requestMode .loadCode)] { booted with mode := .execute }).live
      ∧ (facing [] [.call (.requestMode .loadCode)] { booted with mode := .execute }).initialized = true
      ∧ busy (facing [] [.call (.requestMode .loadCode)] { booted with mode := .execute }) = false
      ∧ (facing [] [.call (.requestMode .loadCode)] { booted with mode := .execute }).mode = .execute)
    ∧ (facing [] [.call (.requestMode .execute)] { booted with mode := .loadCode }).live
      ∧ busy (facing [] [.call (.requestMode .execute)] { booted with mode := .loadCode }) = false
      ∧ (facing [] [.call (.requestMode .execute)] { booted with mode := .loadCode }).mode = .loadCode :=
  ⟨⟨⟨rfl, rfl⟩, rfl, rfl, rfl⟩, ⟨rfl, rfl⟩, rfl, rfl⟩

/-- The machine with this host call and then the core's turns to come. -/
def calling (c : HostCall) (n : Nat) (s : State) : State := facing [] (.call c :: (List.replicate n .core ++ [])) s

/-- A mode request from `Idle`, and a reset request in `Execute`. -/
theorem witness_acceptedRequestsReset :
    ((calling (.requestMode .execute) 177 booted).undisturbed
      ∧ (calling (.requestMode .execute) 177 booted).lines.atRest booted.cfg
      ∧ (calling (.requestMode .execute) 177 booted).initialized = true
      ∧ (calling (.requestMode .execute) 177 booted).todo = []
      ∧ (calling (.requestMode .execute) 177 booted).mode = .idle)
    ∧ (booted.cfg.readBeforePulse = true ∧ booted.cfg.resetSample = .one ∧ booted.cfg.resetStore = .zero
      ∧ booted.cfg.resetClearsLoader = false)
    ∧ (calling .requestReset 176 { booted with mode := .execute }).undisturbed
      ∧ (calling .requestReset 176 { booted with mode := .execute }).mode = .execute :=
  ⟨⟨witness_undisturbed.1, witness_undisturbed.2.1, rfl, rfl, rfl⟩, ⟨rfl, rfl, rfl, rfl⟩, witness_undisturbed.1, rfl⟩

/-- A commit, the set-up call, and a step that does neither. -/
theorem witness_modeChangesOnlyByRequest :
    (∃ t, step (facing [.commitMode .execute] [.core] booted) = .next t ∧ t.mode = .execute)
      ∧ (∃ t, step (facing [] [.call .startUp] State.reset) = .next t ∧ t.mode = .idle)
      ∧ (∃ t, step (facing [.readBit] [.core] booted) = .next t ∧ t.mode = booted.mode) :=
  ⟨⟨_, rfl, rfl⟩, ⟨_, rfl, rfl⟩, ⟨_, rfl, rfl⟩⟩

theorem witness_opcodeAndFlagsComeFromSamples :
    booted.initialized = true
      ∧ (∃ t, step (facing [.takeOpcode] [.core] { booted with locals := { booted.locals with out0 := 0x06#8 } }) = .next t
        ∧ t.instruction = 0x06#8)
      ∧ (∃ t, step (facing [.takeFlags] [.core] { booted with locals := { booted.locals with out1 := 0x01#8 } }) = .next t
        ∧ t.flags = 0x01#8) :=
  ⟨rfl, ⟨_, rfl, rfl⟩, ⟨_, rfl, rfl⟩⟩

/-- The loader at S7's first phase A, at its first phase B, and after its last byte. -/
def loading (l : Loader) : State := { booted with mode := .loadCode, loader := l }

theorem witness_loaderPhaseA :
    ((running 128 [.onFalling] (loading { Loader.empty with code := [0x1E#8], codeSize := 1 })).undisturbed
      ∧ (running 128 [.onFalling] (loading { Loader.empty with code := [0x1E#8], codeSize := 1 })).lines.atRest booted.cfg
      ∧ (running 128 [.onFalling] (loading { Loader.empty with code := [0x1E#8], codeSize := 1 })).todo = [.onFalling]
      ∧ (running 128 [.onFalling] (loading { Loader.empty with code := [0x1E#8], codeSize := 1 })).coreTurns 128 [.await])
    ∧ (loading { Loader.empty with code := [0x1E#8], codeSize := 1 }).mode = .loadCode
      ∧ (loading { Loader.empty with code := [0x1E#8], codeSize := 1 }).loader.codeLoaded < 1
      ∧ (loading { Loader.empty with code := [0x1E#8], codeSize := 1 }).loader.addressSetup = false :=
  ⟨witness_running _ _ _ witness_undisturbed.1 witness_undisturbed.2.1, rfl, by decide, rfl⟩

theorem witness_loaderPhaseB :
    ((running 127 [.onFalling] (loading ⟨[0x1E#8], 1, 0, true, 0x1E#8⟩)).undisturbed
      ∧ (running 127 [.onFalling] (loading ⟨[0x1E#8], 1, 0, true, 0x1E#8⟩)).lines.atRest booted.cfg
      ∧ (running 127 [.onFalling] (loading ⟨[0x1E#8], 1, 0, true, 0x1E#8⟩)).todo = [.onFalling]
      ∧ (running 127 [.onFalling] (loading ⟨[0x1E#8], 1, 0, true, 0x1E#8⟩)).coreTurns 127 [.await])
    ∧ (loading ⟨[0x1E#8], 1, 0, true, 0x1E#8⟩).mode = .loadCode
      ∧ (loading ⟨[0x1E#8], 1, 0, true, 0x1E#8⟩).loader.codeLoaded < 1
      ∧ (loading ⟨[0x1E#8], 1, 0, true, 0x1E#8⟩).loader.addressSetup = true :=
  ⟨witness_running _ _ _ witness_undisturbed.1 witness_undisturbed.2.1, rfl, by decide, rfl⟩

theorem witness_loaderWithNothingLeftDrivesAllOff :
    ((running 126 [.onFalling] (loading Loader.empty)).undisturbed
      ∧ (running 126 [.onFalling] (loading Loader.empty)).lines.atRest booted.cfg
      ∧ (running 126 [.onFalling] (loading Loader.empty)).todo = [.onFalling]
      ∧ (running 126 [.onFalling] (loading Loader.empty)).coreTurns 126 [.await])
    ∧ (loading Loader.empty).mode = .loadCode
      ∧ (loading Loader.empty).loader.codeSize ≤ (loading Loader.empty).loader.codeLoaded :=
  ⟨witness_running _ _ _ witness_undisturbed.1 witness_undisturbed.2.1, rfl, by decide⟩

theorem witness_loadRequestReplacesBuffer :
    (loading Loader.empty).initialized = true ∧ (loading Loader.empty).mode = .loadCode ∧ booted.mode ≠ .loadCode := by
  decide

theorem witness_statusReadHasNoSideEffect : booted.initialized = true := rfl

theorem witness_startUpLeavesFirstValues : State.reset.initialized = false ∧ State.reset.lines.outLatch = true := ⟨rfl, rfl⟩

theorem witness_callsOutOfOrderAreRefused :
    State.reset.initialized = false ∧ HostCall.statusRead ≠ .startUp ∧ booted.initialized = true := by decide

/-- A call that waits for `Main`, and one that waits for the `Producer`. -/
theorem witness_hostCallWaitsForMain :
    ((facing [.readBit] [.call .statusRead] booted).live
      ∧ (facing [.readBit] [.call .statusRead] booted).sched.script = .call .statusRead :: []
      ∧ busy (facing [.readBit] [.call .statusRead] booted) = true
      ∧ ∃ t, step (facing [.readBit] [.call .statusRead] booted) = .next t)
    ∧ (facing [] [.call .statusRead] requested).live ∧ busy (facing [] [.call .statusRead] requested) = true :=
  ⟨⟨⟨rfl, rfl⟩, rfl, rfl, ⟨_, rfl⟩⟩, ⟨rfl, rfl⟩, rfl⟩

/-- A statement that faults, one that is refused, and the two marks. -/
theorem witness_stopsAreRecordedAndFinal :
    ((facing [.sample .one] [.core] (setDir .output booted)).live
      ∧ (setDir .output booted).edges.irqPending = false
      ∧ perform (.sample .one) { facing [.sample .one] [.core] (setDir .output booted) with
          todo := [], sched := { script := [], draws := 0 } } = .fault (.dataPinWrongDirection .sample))
    ∧ ((facing [.dispatch] [.core] (sampledAt 0x09#8 0x00#8 2)).live
      ∧ perform .dispatch { facing [.dispatch] [.core] (sampledAt 0x09#8 0x00#8 2) with
          todo := [], sched := { script := [], draws := 0 } } = .refused (.bodyNotChosen 0x09#8 2))
    ∧ (booted.setFaulted (some (.flagsOutOfRange 0x04#8))).faulted = some (.flagsOutOfRange 0x04#8)
    ∧ (booted.setRefused (some .doubleInitialize)).faulted = none :=
  ⟨⟨⟨rfl, rfl⟩, rfl, rfl⟩, ⟨⟨rfl, rfl⟩, rfl⟩, rfl, rfl⟩

/-- The machine right after the set-up call meets the invariant, at rest and with statements left to run. -/
theorem witness_invariant : booted.Inv ∧ (facing [.pin .sclk true, .pin .sclk false] [.core] booted).Inv :=
  ⟨⟨by decide, by decide, ⟨rfl, by decide, by decide, by decide, by decide⟩, rfl, fun _ => ⟨by decide, by decide⟩, rfl, by decide,
      ⟨by decide, fun _ => rfl⟩, rfl⟩,
    ⟨by decide, by decide, ⟨rfl, by decide, by decide, by decide, by decide⟩, rfl, fun _ => ⟨by decide, by decide⟩, rfl, by decide,
      ⟨by decide, fun _ => rfl⟩, rfl⟩⟩

theorem witness_stepKeepsInvariant :
    ∃ t, step (facing [.pin .sclk true, .pin .sclk false] [.core] booted) = .next t := ⟨_, rfl⟩

/-- The last statement of a call. -/
theorem witness_linesRestBetweenCalls :
    (facing [.ret .done] [.core] booted).Inv ∧ ∃ t, step (facing [.ret .done] [.core] booted) = .next t ∧ t.todo = [] :=
  ⟨⟨by decide, by decide, ⟨rfl, by decide, by decide, by decide, by decide⟩, rfl, fun _ => ⟨by decide, by decide⟩, rfl, by decide,
    ⟨by decide, fun _ => rfl⟩, rfl⟩, ⟨_, rfl, rfl⟩⟩

/-- A `Drive` about to start. -/
theorem witness_busFaultsAreUnreachable :
    (facing [.drive 0#16 0#8] [.core] booted).Inv ∧ (facing [.drive 0#16 0#8] [.core] booted).live
      ∧ ∃ t, step (facing [.drive 0#16 0#8] [.core] booted) = .next t :=
  ⟨⟨by decide, by decide, ⟨rfl, by decide, by decide, by decide, by decide⟩, rfl, fun _ => ⟨by decide, by decide⟩, rfl, by decide,
    ⟨by decide, fun _ => rfl⟩, rfl⟩, ⟨rfl, rfl⟩, ⟨_, rfl⟩⟩

theorem witness_romAndParametersNeverChange :
    booted.initialized = true ∧ ∃ t, step (facing [.dispatch] [.core] (sampledAt 0x0B#8 0x00#8 2)) = .next t :=
  ⟨rfl, ⟨_, rfl⟩⟩

theorem witness_onlyTheAttachedClockMovesTheBoard :
    (∃ t, step (facing [.readBit] [.core] booted) = .next t)
      ∧ ∀ level, nextMove (facing [.readBit] [.core] booted) ≠ .clock level :=
  ⟨⟨_, rfl⟩, fun level h => by cases h⟩

end Sys2Proof.Tests
end

section
/-! What each step of each agent writes of the fields of the mode state machine (10_state.md R21 to R25): only the commit of a
mode request changes the mode, and only a sample's bytes reach `instruction` and `flags`. -/

namespace Sys2Proof.Machine

/-- The fields R21, R22, R24 and R25 are as they were. -/
structure SameModeFields (s t : State) : Prop where
  mode : t.mode = s.mode
  instruction : t.instruction = s.instruction
  flags : t.flags = s.flags
  step : t.instructionStep = s.instructionStep

/-- What a statement of `Main` may make of those fields. -/
structure WritesModeFields (op : Op) (s t : State) : Prop where
  mode : t.mode = s.mode ∨ op = .commitMode t.mode
  instruction : t.instruction = s.instruction ∨ op = .takeOpcode ∧ t.instruction = s.locals.out0
  flags : t.flags = s.flags ∨ op = .takeFlags ∧ t.flags = s.locals.out1
  step : t.instructionStep = s.instructionStep ∨ t.instructionStep = 0
    ∨ op = .incStep ∧ t.instructionStep = s.instructionStep + 1

theorem SameModeFields.writes {op : Op} {s t : State} (h : SameModeFields s t) : WritesModeFields op s t :=
  ⟨.inl h.mode, .inl h.instruction, .inl h.flags, .inl h.step⟩

/-- R21, R22, R24, R25: each of those fields has its own statements that write it. -/
theorem perform_writesModeFields {op : Op} {s t : State} (h : perform op s = .next t) : WritesModeFields op s t := by
  have same : ∀ {op : Op} {u : State}, u.mode = s.mode → u.instruction = s.instruction → u.flags = s.flags →
      u.instructionStep = s.instructionStep → WritesModeFields op s u :=
    fun h1 h2 h3 h4 => SameModeFields.writes ⟨h1, h2, h3, h4⟩
  cases op with
  | takeOpcode => cases h; exact ⟨.inl rfl, .inr ⟨rfl, rfl⟩, .inl rfl, .inl rfl⟩
  | takeFlags => cases h; exact ⟨.inl rfl, .inl rfl, .inr ⟨rfl, rfl⟩, .inl rfl⟩
  | commitMode m => cases h; exact ⟨.inr rfl, .inl rfl, .inl rfl, .inl rfl⟩
  | wrapStep =>
    cases h
    unfold wrapStep
    split
    · exact ⟨.inl rfl, .inl rfl, .inl rfl, .inr (.inl rfl)⟩
    · exact same rfl rfl rfl rfl
  | zeroStep => cases h; exact ⟨.inl rfl, .inl rfl, .inl rfl, .inr (.inl rfl)⟩
  | incStep => cases h; exact ⟨.inl rfl, .inl rfl, .inl rfl, .inr (.inr ⟨rfl, rfl⟩)⟩
  | sample n => obtain ⟨-, rfl⟩ := perform_sample_next h; exact same rfl rfl rfl rfl
  | drive cw bus => obtain ⟨-, rfl⟩ := perform_drive_next h; exact same rfl rfl rfl rfl
  | dispatch => obtain ⟨w, -, rfl⟩ := microStep_next ((exec_eq _ _).symm.trans h); exact same rfl rfl rfl rfl
  | storeResetWord => obtain ⟨w, rfl⟩ := storeResetWord_next h; exact same rfl rfl rfl rfl
  | dir d => cases h; exact same (by simp) (by simp) (by simp) (by simp)
  | pin p l => cases h; exact same (by simp) (by simp) (by simp) (by simp)
  | data l => cases h; exact same (by simp) (by simp) (by simp) (by simp)
  | pollFalling => cases h; unfold pollFalling; dsimp only; split <;> exact same rfl rfl rfl rfl
  | pollRising => cases h; unfold pollRising; dsimp only; split <;> exact same rfl rfl rfl rfl
  | onFalling => cases h; unfold onFalling; split <;> exact same rfl rfl rfl rfl
  | onRising => cases h; unfold onRising; split <;> exact same rfl rfl rfl rfl
  | _ => cases h; exact same rfl rfl rfl rfl

/-- After the set-up call no host call writes those fields as it starts. -/
theorem hostCall_sameModeFields {c : HostCall} {s t : State} (hi : s.initialized = true) (h : hostCall c s = .next t) :
    SameModeFields s t := by
  cases c with
  | startUp => simp [hostCall, hi] at h
  | requestMode m =>
    rw [hostCall, whenInitialized_next _ hi] at h
    cases h
    unfold requestMode
    split <;> exact ⟨rfl, rfl, rfl, rfl⟩
  | requestLoadCode bytes =>
    rw [hostCall, whenInitialized_next _ hi] at h
    cases h
    unfold requestLoadCode
    split <;> exact ⟨rfl, rfl, rfl, rfl⟩
  | _ =>
    rw [hostCall, whenInitialized_next _ hi] at h
    cases h
    exact ⟨rfl, rfl, rfl, rfl⟩

/-- A move of the attached clock writes the board and the clock line's state alone. -/
theorem envClock_eq (level : Bool) (s : State) :
    envClock level s = (s.setBoard (envClock level s).board).setEdges (envClock level s).edges := by
  unfold envClock
  split
  · rfl
  · split
    · rfl
    · rw [observeClock_eq]
      rfl

/-- In every step those fields stay, or `Main` runs one of their statements, or it is the set-up call. -/
theorem step_modeFields {s t : State} (h : step s = .next t) :
    SameModeFields s t ∨ (∃ op ops, s.todo = op :: ops ∧ WritesModeFields op s t)
      ∨ s.initialized = false ∧ ∃ k, t = startUp (s.setSched k) := by
  obtain ⟨-, -, k, hk⟩ := step_cases h
  cases hk with
  | clock level _ ht => rw [envClock_eq] at ht; subst ht; exact .inl ⟨rfl, rfl, rfl, rfl⟩
  | present opcode flags ht => subst ht; exact .inl ⟨rfl, rfl, rfl, rfl⟩
  | serial level ht => subst ht; exact .inl ⟨rfl, rfl, rfl, rfl⟩
  | producer _ ht => subst ht; exact .inl ⟨rfl, rfl, rfl, rfl⟩
  | idle _ _ ht => subst ht; exact .inl ⟨rfl, rfl, rfl, rfl⟩
  | run op ops _ h2 ht =>
    obtain ⟨hm, hi, hf, hs⟩ := perform_writesModeFields ht
    exact .inr (.inl ⟨op, ops, h2, hm, hi, hf, hs⟩)
  | stop op ops _ _ ht => rcases ht with ⟨f, -, rfl⟩ | ⟨r, -, rfl⟩ <;> exact .inl ⟨rfl, rfl, rfl, rfl⟩
  | call c _ _ ht =>
    cases hi : s.initialized with
    | true =>
      obtain ⟨hm, hin, hf, hs⟩ := hostCall_sameModeFields (s := s.setSched k) hi ht
      exact .inl ⟨hm, hin, hf, hs⟩
    | false => exact .inr (.inr ⟨rfl, k, (hostCall_before (s := s.setSched k) hi ht).2⟩)
  | refusedCall c r _ _ _ ht => subst ht; exact .inl ⟨rfl, rfl, rfl, rfl⟩

/-- Settles O41, by what a step makes of the fields of the mode state machine. -/
theorem modeChangesOnlyByRequest : Obligations.ModeChangesOnlyByRequest := by
  intro s t h
  rcases step_modeFields h with hs | ⟨op, ops, hop, hw⟩ | ⟨hi, k, rfl⟩
  · exact .inl hs.mode
  · rcases hw.mode with hm | rfl
    · exact .inl hm
    · exact .inr (.inl ⟨ops, hop⟩)
  · exact .inr (.inr ⟨hi, rfl⟩)

/-- Settles O42, likewise; the set-up call, which clears both fields, is refused after the first one (R306 X3). -/
theorem opcodeAndFlagsComeFromSamples : Obligations.OpcodeAndFlagsComeFromSamples := by
  intro s t h hi
  rcases step_modeFields h with hs | ⟨op, ops, hop, hw⟩ | ⟨hn, -⟩
  · exact ⟨.inl hs.instruction, .inl hs.flags⟩
  · refine ⟨hw.instruction.imp_right ?_, hw.flags.imp_right ?_⟩
    · rintro ⟨rfl, ht⟩
      exact ⟨⟨ops, hop⟩, ht⟩
    · rintro ⟨rfl, ht⟩
      exact ⟨⟨ops, hop⟩, ht⟩
  · rw [hn] at hi
    cases hi

end Sys2Proof.Machine
end

section
/-! The invariant of the machine (10_state.md R22, R28, R31; 41_bus_protocol.md R159; 42_edge_detector.md R188) is kept by every
step: part by part for a statement of `Main`, then for the host's calls, then for whoever moved. -/

namespace Sys2Proof.Machine

/-! ### The clock line's bookkeeping -/

/-- Where CLK_IN is a line of its own, it shows the attached clock (R361). -/
theorem clkLine_separate {s : State} (h : s.cfg.clkSharesData = false) : clkLine s = s.edges.attachedClk := by
  simp [clkLine, h]

@[simp] theorem observeClock_producerEnabled (s : State) :
    (observeClock s).edges.producerEnabled = s.edges.producerEnabled := by
  unfold observeClock
  split <;> rfl

@[simp] theorem observeClock_attachedClk (s : State) : (observeClock s).edges.attachedClk = s.edges.attachedClk := by
  unfold observeClock
  split <;> rfl

@[simp] theorem lineChanged_producerEnabled (s : State) :
    (lineChanged s).edges.producerEnabled = s.edges.producerEnabled := by
  unfold lineChanged
  split
  · exact observeClock_producerEnabled s
  · rfl

@[simp] theorem lineChanged_attachedClk (s : State) : (lineChanged s).edges.attachedClk = s.edges.attachedClk := by
  unfold lineChanged
  split
  · exact observeClock_attachedClk s
  · rfl

/-- R181, R188: observing the clock line brings the seen level up to date, and requests only where the `Producer` is enabled. -/
theorem observeClock_edgesInv {s : State} {shares : Bool} (hc : s.cfg.clkSharesData = shares)
    (h : s.edges.irqPending = true → s.edges.producerEnabled = true) : (observeClock s).edges.Inv shares := by
  subst hc
  unfold observeClock
  split
  · rename_i he
    exact ⟨h, fun hs => he.symm.trans (clkLine_separate hs)⟩
  · exact ⟨fun hi => ((Bool.or_eq_true _ _).mp hi).elim h id, clkLine_separate⟩

theorem lineChanged_edgesInv {s : State} {shares : Bool} (hc : s.cfg.clkSharesData = shares) (h : s.edges.Inv shares) :
    (lineChanged s).edges.Inv shares := by
  unfold lineChanged
  split
  · exact observeClock_edgesInv hc h.enabled
  · exact h

/-- A move of the attached clock keeps the bookkeeping, and leaves the `Producer` as it was. -/
theorem envClock_edgesInv (level : Bool) {s : State} (h : s.edges.Inv s.cfg.clkSharesData) :
    (envClock level s).edges.Inv s.cfg.clkSharesData
      ∧ (envClock level s).edges.producerEnabled = s.edges.producerEnabled := by
  unfold envClock
  split
  · exact ⟨h, rfl⟩
  · split
    · exact ⟨h, rfl⟩
    · exact ⟨observeClock_edgesInv rfl h.enabled, observeClock_producerEnabled _⟩

/-- A statement of `Main` keeps the bookkeeping, and leaves the `Producer` as it was. -/
theorem perform_edgesInv {op : Op} {s t : State} (h : s.edges.Inv s.cfg.clkSharesData) (hp : perform op s = .next t) :
    t.edges.Inv s.cfg.clkSharesData ∧ t.edges.producerEnabled = s.edges.producerEnabled := by
  cases op with
  | dir d => cases hp; exact ⟨lineChanged_edgesInv rfl h, lineChanged_producerEnabled _⟩
  | pin p l => cases hp; cases p <;> exact ⟨lineChanged_edgesInv rfl h, lineChanged_producerEnabled _⟩
  | data l => cases hp; exact ⟨lineChanged_edgesInv rfl h, lineChanged_producerEnabled _⟩
  | sample n => obtain ⟨-, rfl⟩ := perform_sample_next hp; exact ⟨h, rfl⟩
  | drive cw bus => obtain ⟨-, rfl⟩ := perform_drive_next hp; exact ⟨h, rfl⟩
  | dispatch => obtain ⟨w, -, rfl⟩ := microStep_next ((exec_eq _ _).symm.trans hp); exact ⟨h, rfl⟩
  | storeResetWord => obtain ⟨w, rfl⟩ := storeResetWord_next hp; exact ⟨h, rfl⟩
  | wrapStep => cases hp; unfold wrapStep; split <;> exact ⟨h, rfl⟩
  | pollFalling => cases hp; unfold pollFalling; dsimp only; split <;> exact ⟨⟨h.enabled, h.level⟩, rfl⟩
  | pollRising => cases hp; unfold pollRising; dsimp only; split <;> exact ⟨⟨h.enabled, h.level⟩, rfl⟩
  | onFalling => cases hp; unfold onFalling; split <;> exact ⟨h, rfl⟩
  | onRising => cases hp; unfold onRising; split <;> exact ⟨h, rfl⟩
  | _ => cases hp; exact ⟨h, rfl⟩

/-! ### The statements left to run -/

/-- The first statement runs from the shape, and the rest from what it leaves. -/
theorem flowsToRest_cons {cfg : Config} {op : Op} {ops : List Op} {sh : Shape}
    (h : flowsToRest cfg (op :: ops) sh = true) :
    ∃ a, op.flow cfg sh = some a ∧ flowsToRest cfg ops a = true := by
  simp only [flowsToRest] at h
  split at h
  · exact ⟨_, by assumption, h⟩
  · cases h

/-- Statements put before a call that come to a shape knowing more than the call runs from. -/
theorem flowsToRest_push {cfg : Config} {ops rest : List Op} {sh a b : Shape} (hr : flowsToRest cfg rest a = true)
    (hb : flowAll cfg ops sh = some b) (hl : Shape.Le a b) : flowsToRest cfg (ops ++ rest) sh = true := by
  rw [flowsToRest_of_flowAll hb]
  exact flowsToRest_mono hl hr

/-- What a shape still knows after the facts that hold at some statements only are dropped. -/
theorem Shape.le_of_levels (sh : Shape) : Shape.Le { sh with stepLow := false, room := false, staged := false } sh :=
  ⟨rfl, rfl, rfl, rfl, nofun, nofun, nofun⟩

theorem Shape.Le.refl (sh : Shape) : Shape.Le sh sh := ⟨rfl, rfl, rfl, rfl, id, id, id⟩

/-- A drive at rest comes back to the shape it started from. -/
theorem flowAll_drive_op {cfg : Config} (cw : Word) (bus : Byte) {sh : Shape} (h : sh.resting cfg = true) (ops : List Op) :
    flowAll cfg (.drive cw bus :: ops) sh = flowAll cfg ops sh := by
  simp [flowAll, Op.flow, h]

/-- R184: the handlers a poll serves start at rest, and come back to it. -/
theorem flowAll_onFalling {cfg : Config} {sh : Shape} (h : sh.resting cfg = true) :
    flowAll cfg [.onFalling] sh = some { sh with stepLow := false, room := false, staged := false } := by
  simp [flowAll, Op.flow, h]

theorem flowAll_onRising {cfg : Config} {sh : Shape} (h : sh.resting cfg = true) :
    flowAll cfg [.onRising] sh = some sh := by
  simp [flowAll, Op.flow, h]

/-- R210: the falling-edge handler's statements in `Execute` come back to rest. -/
theorem flowAll_executeOps {cfg : Config} {sh : Shape} (h : sh.resting cfg = true) :
    flowAll cfg executeOps sh = some { sh with stepLow := false } := by
  have h' : Shape.resting cfg { sh with stepLow := true } = true := h
  simp [executeOps, flowAll, Op.flow, h']

/-- R240, R241, R243: so do the loader's, whose phases start only with a byte left, and phase B with it staged. -/
theorem flowAll_loaderOps {s : State} (h : s.shape.resting s.cfg = true) :
    ∃ b, flowAll s.cfg (loaderOps s) s.shape = some b
      ∧ Shape.Le { s.shape with stepLow := false, room := false, staged := false } b := by
  have h' : Shape.resting s.cfg { s.shape with staged := true } = true := h
  unfold loaderOps
  split
  · exact ⟨_, flowAll_drive_op _ _ h _, Shape.le_of_levels _⟩
  · rename_i hlt
    have hroom : s.shape.room = true := decide_eq_true (Nat.lt_of_not_le hlt)
    split
    · refine ⟨{ s.shape with room := false, staged := false }, ?_, ⟨rfl, rfl, rfl, rfl, nofun, nofun, nofun⟩⟩
      rw [phaseBOps, flowAll_drive_op _ _ h]
      simp [flowAll, Op.flow, hroom]
    · refine ⟨{ s.shape with staged := true }, ?_, ⟨rfl, rfl, rfl, rfl, nofun, nofun, nofun⟩⟩
      show flowAll s.cfg [.drive _ _, .finishPhaseA] { s.shape with staged := true } = _
      rw [flowAll_drive_op _ _ h']
      simp [flowAll, Op.flow, hroom]

/-- R200: the statements of `reset()` come back to rest, so what follows them needs nothing but the lines at rest. -/
theorem flowsToRest_resetOps {cfg : Config} {ops : List Op} {sh : Shape} (h : sh.resting cfg = true)
    (ho : ∀ a : Shape, a.resting cfg = true → flowsToRest cfg ops a = true) :
    flowsToRest cfg (resetOps cfg ++ ops) sh = true := by
  have low : Shape.resting cfg { sh with stepLow := true } = true := h
  have cleared : Shape.resting cfg { sh with stepLow := true, staged := false } = true := h
  unfold resetOps
  split <;> split <;> simp [flowsToRest, Op.flow, h, low, cleared, ho]

/-- R159: what `Main` has left to run after a statement brings the lines back to rest, where what followed the statement did so
from the shape the statement leaves. -/
theorem perform_flow {op : Op} {s t : State} {a : Shape} (ha : op.flow s.cfg s.shape = some a)
    (hr : flowsToRest s.cfg s.todo a = true) (h : perform op s = .next t) :
    flowsToRest s.cfg t.todo t.shape = true := by
  cases op with
  | sample n =>
    simp only [Op.flow, Option.ite_none_right_eq_some, Option.some.injEq] at ha
    obtain ⟨hq, rfl⟩ := ha
    obtain ⟨-, rfl⟩ := perform_sample_next h
    exact flowsToRest_push hr (flowAll_sample _ n hq) (.refl _)
  | drive cw bus =>
    simp only [Op.flow, Option.ite_none_right_eq_some, Option.some.injEq] at ha
    obtain ⟨hq, rfl⟩ := ha
    obtain ⟨-, rfl⟩ := perform_drive_next h
    exact flowsToRest_push hr (flowAll_drive _ cw bus hq) (.refl _)
  | dir d => cases ha; cases h; simpa [State.shape] using hr
  | pin p l => cases h; cases p <;> cases ha <;> simpa [State.shape, setPin] using hr
  | data l => cases ha; cases h; simpa [State.shape] using hr
  | dispatch =>
    simp only [Op.flow, Option.ite_none_right_eq_some, Option.some.injEq, Bool.and_eq_true] at ha
    obtain ⟨⟨hq, hlow⟩, rfl⟩ := ha
    obtain ⟨w, -, rfl⟩ := microStep_next ((exec_eq _ _).symm.trans h)
    refine flowsToRest_push hr ?_ (.refl _)
    show flowAll s.cfg [.drive w 0#8, .incStep] s.shape = _
    rw [flowAll_drive_op _ _ hq]
    simp [flowAll, Op.flow, hlow]
  | wrapStep =>
    cases ha
    cases h
    unfold wrapStep
    split
    · exact hr
    · rename_i hle
      exact flowsToRest_mono (a := { s.shape with stepLow := true })
        ⟨rfl, rfl, rfl, rfl, fun _ => decide_eq_true (Nat.le_of_not_lt hle), id, id⟩ hr
  | incStep =>
    simp only [Op.flow, Option.ite_none_right_eq_some, Option.some.injEq] at ha
    obtain ⟨-, rfl⟩ := ha
    cases h
    exact flowsToRest_mono (a := { s.shape with stepLow := false }) ⟨rfl, rfl, rfl, rfl, nofun, id, id⟩ hr
  | storeResetWord => cases ha; obtain ⟨w, rfl⟩ := storeResetWord_next h; exact hr
  | clearLoader =>
    cases ha
    cases h
    refine flowsToRest_mono (a := { s.shape with staged := false })
      ⟨rfl, rfl, rfl, rfl, id, fun hroom => ?_, nofun⟩ hr
    exact decide_eq_true (Nat.zero_lt_of_lt (of_decide_eq_true hroom))
  | stageByte =>
    cases ha
    cases h
    exact flowsToRest_mono (a := { s.shape with staged := true })
      ⟨rfl, rfl, rfl, rfl, id, id, fun _ => decide_eq_true rfl⟩ hr
  | finishPhaseA =>
    simp only [Op.flow, Option.ite_none_right_eq_some, Option.some.injEq] at ha
    obtain ⟨-, rfl⟩ := ha
    cases h
    exact hr
  | finishPhaseB =>
    simp only [Op.flow, Option.ite_none_right_eq_some, Option.some.injEq] at ha
    obtain ⟨-, rfl⟩ := ha
    cases h
    exact flowsToRest_mono (a := { s.shape with room := false, staged := false })
      ⟨rfl, rfl, rfl, rfl, id, nofun, nofun⟩ hr
  | pollFalling =>
    simp only [Op.flow, Option.ite_none_right_eq_some, Option.some.injEq] at ha
    obtain ⟨hq, rfl⟩ := ha
    cases h
    unfold pollFalling
    dsimp only
    split
    · exact flowsToRest_push hr (flowAll_onFalling hq) (.refl _)
    · exact flowsToRest_mono (Shape.le_of_levels _) hr
  | pollRising =>
    simp only [Op.flow, Option.ite_none_right_eq_some, Option.some.injEq] at ha
    obtain ⟨hq, rfl⟩ := ha
    cases h
    unfold pollRising
    dsimp only
    split
    · exact flowsToRest_push hr (flowAll_onRising hq) (.refl _)
    · exact hr
  | onFalling =>
    simp only [Op.flow, Option.ite_none_right_eq_some, Option.some.injEq] at ha
    obtain ⟨hq, rfl⟩ := ha
    cases h
    unfold onFalling
    split
    · exact flowsToRest_mono (Shape.le_of_levels _) hr
    · exact flowsToRest_push hr (flowAll_executeOps hq) ⟨rfl, rfl, rfl, rfl, nofun, nofun, nofun⟩
    · obtain ⟨b, hb, hl⟩ := flowAll_loaderOps hq
      exact flowsToRest_push hr hb hl
  | onRising =>
    simp only [Op.flow, Option.ite_none_right_eq_some, Option.some.injEq] at ha
    obtain ⟨hq, rfl⟩ := ha
    cases h
    unfold onRising
    split
    · exact hr
    · exact flowsToRest_push hr (flowAll_drive_op _ _ hq []) (.refl _)
    · exact hr
  | _ => cases ha; cases h; exact hr

/-! ### The step counter and the load buffer -/

/-- R22, R213: the step counter advances only from a step that is looked up. -/
theorem perform_step {op : Op} {s t : State} {a : Shape} (ha : op.flow s.cfg s.shape = some a)
    (hs : s.instructionStep ≤ maxStep + 1) (h : perform op s = .next t) : t.instructionStep ≤ maxStep + 1 := by
  rcases (perform_writesModeFields h).step with e | e | ⟨rfl, e⟩
  · exact e ▸ hs
  · exact e ▸ Nat.zero_le _
  · simp only [Op.flow, Option.ite_none_right_eq_some] at ha
    have hlow : s.instructionStep ≤ maxStep := of_decide_eq_true ha.1
    omega

/-- R27 to R31, R246: a statement that runs from the state's shape keeps the load buffer and its cursor. -/
theorem perform_loaderInv {op : Op} {s t : State} {a : Shape} (ha : op.flow s.cfg s.shape = some a)
    (hl : s.loader.Inv) (h : perform op s = .next t) : t.loader.Inv := by
  cases op with
  | clearLoader => cases h; exact ⟨hl.size, hl.bound, Nat.zero_le _, nofun, nofun⟩
  | stageByte => cases h; exact ⟨hl.size, hl.bound, hl.cursor, hl.room, fun _ => rfl⟩
  | finishPhaseA =>
    simp only [Op.flow, Option.ite_none_right_eq_some, Bool.and_eq_true] at ha
    obtain ⟨⟨hroom, hstaged⟩, -⟩ := ha
    cases h
    exact ⟨hl.size, hl.bound, hl.cursor, fun _ => of_decide_eq_true hroom, fun _ => of_decide_eq_true hstaged⟩
  | finishPhaseB =>
    simp only [Op.flow, Option.ite_none_right_eq_some] at ha
    cases h
    exact ⟨hl.size, hl.bound, of_decide_eq_true ha.1, nofun, nofun⟩
  | sample n => obtain ⟨-, rfl⟩ := perform_sample_next h; exact hl
  | drive cw bus => obtain ⟨-, rfl⟩ := perform_drive_next h; exact hl
  | dispatch => obtain ⟨w, -, rfl⟩ := microStep_next ((exec_eq _ _).symm.trans h); exact hl
  | storeResetWord => obtain ⟨w, rfl⟩ := storeResetWord_next h; exact hl
  | dir d => cases h; simpa using hl
  | pin p l => cases h; simpa using hl
  | data l => cases h; simpa using hl
  | wrapStep => cases h; unfold wrapStep; split <;> exact hl
  | pollFalling => cases h; unfold pollFalling; dsimp only; split <;> exact hl
  | pollRising => cases h; unfold pollRising; dsimp only; split <;> exact hl
  | onFalling => cases h; unfold onFalling; split <;> exact hl
  | onRising => cases h; unfold onRising; split <;> exact hl
  | _ => cases h; exact hl

/-- R248: an accepted load request leaves a buffer of at most 255 bytes and its cursor at the start. -/
theorem loadBuffer_inv (bytes : List Byte) (l : Loader) : (loadBuffer bytes l).Inv :=
  ⟨by simp [loadBuffer, Nat.min_comm], Nat.min_le_right _ _, Nat.zero_le _, nofun, nofun⟩

theorem Loader.empty_inv : Loader.empty.Inv := ⟨rfl, Nat.zero_le _, Nat.le_refl _, nofun, nofun⟩

/-! ### The invariant, agent by agent -/

/-- A statement of `Main` keeps the invariant. -/
theorem perform_inv {op : Op} {ops : List Op} {s t : State} (h : s.Inv) (h2 : s.todo = op :: ops)
    (hp : perform op (s.setTodo ops) = .next t) : t.Inv := by
  obtain ⟨hflow, hstep, hloader, hrom, hwords, henabled, hcalls, hedges, hram⟩ := h
  have kept := perform_kept hp
  rw [h2] at hflow
  obtain ⟨a, ha, hr⟩ := flowsToRest_cons hflow
  obtain ⟨he, hpe⟩ := perform_edgesInv (s := s.setTodo ops) hedges hp
  refine ⟨?_, perform_step (s := s.setTodo ops) ha hstep hp, perform_loaderInv (s := s.setTodo ops) ha hloader hp, ?_,
    fun hc => ?_, ?_, fun hn => ?_, ?_, ?_⟩
  · rw [kept.cfg]
    exact perform_flow (s := s.setTodo ops) ha hr hp
  · rw [kept.rom, kept.cfg]
    exact hrom
  · rw [kept.cfg] at hc
    obtain ⟨hword, hall⟩ := hwords hc
    rw [h2, List.all_cons, Bool.and_eq_true] at hall
    exact perform_computesLines (s := s.setTodo ops) hc hrom ⟨hword, hall.2⟩ hall.1 hp
  · rw [kept.initialized]
    exact hpe.trans henabled
  · rw [kept.initialized] at hn
    exact absurd (h2.symm.trans (hcalls hn)) (List.cons_ne_nil _ _)
  · rw [kept.cfg]
    exact he
  · rw [kept.board]
    exact hram

/-- R261: the set-up call meets the invariant, where no statement is left to run. -/
theorem startUp_inv {s : State} (h : s.Inv) (h2 : s.todo = []) : (startUp s).Inv := by
  have hcfg : (startUp s).cfg = s.cfg := by simp [startUp]
  have htodo : (startUp s).todo = [] := by simpa [startUp] using h2
  refine ⟨?_, Nat.zero_le _, Loader.empty_inv, ?_, fun hc => ⟨LineBits.isLines_zero _, ?_⟩, rfl, nofun, ⟨nofun, ?_⟩, ?_⟩
  · rw [htodo, hcfg]
    simp [flowsToRest, Shape.resting, State.shape, startUp]
  · simp [startUp]
  · rw [htodo]; rfl
  · intro hs
    rw [hcfg] at hs
    rw [(startUp_clkLevel hs).1, h.edges.level hs]
    simp [startUp, setOutLatch, setInLatch, setSclk, setData, setDir]
  · rw [show (startUp s).board = s.board by simp [startUp]]
    exact h.ram

/-- After the set-up call a host call starts from rest, and what it has `Main` run comes back to rest. -/
theorem hostCall_flow {c : HostCall} {s t : State} (hi : s.initialized = true) (h2 : s.todo = [])
    (hr : s.shape.resting s.cfg = true) (h : hostCall c s = .next t) : flowsToRest s.cfg t.todo t.shape = true := by
  have idle : flowsToRest s.cfg s.todo s.shape = true := by rw [h2]; exact hr
  cases c with
  | startUp => simp [hostCall, hi] at h
  | pollOnce =>
    rw [hostCall, whenInitialized_next _ hi] at h
    cases h
    show flowsToRest s.cfg ([.pollFalling, .pollRising, .ret .done] ++ s.todo) s.shape = true
    have hr' : Shape.resting s.cfg { s.shape with stepLow := false, room := false, staged := false } = true := hr
    simp [h2, flowsToRest, Op.flow, hr, hr']
  | requestReset =>
    rw [hostCall, whenInitialized_next _ hi] at h
    cases h
    show flowsToRest s.cfg ((resetOps s.cfg ++ [.ret .done]) ++ s.todo) s.shape = true
    rw [h2, List.append_nil]
    exact flowsToRest_resetOps hr fun _ ha => ha
  | requestMode m =>
    rw [hostCall, whenInitialized_next _ hi] at h
    cases h
    unfold requestMode
    split
    · exact idle
    · show flowsToRest s.cfg ((resetOps s.cfg ++ [.commitMode m, .ret (.accepted true)]) ++ s.todo) s.shape = true
      rw [h2, List.append_nil]
      exact flowsToRest_resetOps hr fun _ ha => ha
  | requestLoadCode bytes =>
    rw [hostCall, whenInitialized_next _ hi] at h
    cases h
    unfold requestLoadCode
    split
    · show flowsToRest s.cfg s.todo _ = true
      rw [h2]
      exact hr
    · exact idle
    · exact idle
  | statusRead =>
    rw [hostCall, whenInitialized_next _ hi] at h
    cases h
    exact idle

/-- After the set-up call a host call keeps the load buffer as it was, or replaces it (R248). -/
theorem hostCall_loaderInv {c : HostCall} {s t : State} (hi : s.initialized = true) (hl : s.loader.Inv)
    (h : hostCall c s = .next t) : t.loader.Inv := by
  cases c with
  | startUp => simp [hostCall, hi] at h
  | requestMode m =>
    rw [hostCall, whenInitialized_next _ hi] at h
    cases h
    unfold requestMode
    split <;> exact hl
  | requestLoadCode bytes =>
    rw [hostCall, whenInitialized_next _ hi] at h
    cases h
    unfold requestLoadCode
    split
    · exact loadBuffer_inv bytes s.loader
    · exact hl
    · exact hl
  | _ =>
    rw [hostCall, whenInitialized_next _ hi] at h
    cases h
    exact hl

/-- A host call that starts keeps the invariant. -/
theorem hostCall_inv {c : HostCall} {s t : State} (h : s.Inv) (h2 : s.todo = []) (hc : hostCall c s = .next t) :
    t.Inv := by
  cases hi : s.initialized with
  | false =>
    obtain ⟨-, rfl⟩ := hostCall_before hi hc
    exact startUp_inv h h2
  | true =>
    obtain ⟨hflow, hstep, hloader, hrom, hwords, henabled, -, hedges, hram⟩ := h
    have kept := hostCall_kept hi hc
    have hr : s.shape.resting s.cfg = true := by rw [h2] at hflow; exact hflow
    refine ⟨?_, ?_, hostCall_loaderInv hi hloader hc, ?_, fun hw => ?_, ?_, fun hn => ?_, ?_, ?_⟩
    · rw [kept.cfg]
      exact hostCall_flow hi h2 hr hc
    · rw [(hostCall_sameModeFields hi hc).step]
      exact hstep
    · rw [kept.rom, kept.cfg]
      exact hrom
    · rw [kept.cfg] at hw
      exact hostCall_computesLines (hwords hw) hc
    · rw [hostCall_edges hi hc, kept.initialized]
      exact henabled
    · rw [kept.initialized, hi] at hn
      cases hn
    · rw [hostCall_edges hi hc, kept.cfg]
      exact hedges
    · rw [kept.board]
      exact hram

/-- What Env and the `Producer` write bears on the clock line's bookkeeping and the RAM only. -/
theorem State.Inv.setBoard_setEdges {s : State} (h : s.Inv) {b : Board} {e : Edges} (he : e.Inv s.cfg.clkSharesData)
    (hp : e.producerEnabled = s.edges.producerEnabled) (hb : b.ram.wf = true) : ((s.setBoard b).setEdges e).Inv :=
  ⟨h.flow, h.step, h.loader, h.rom, h.words, hp.trans h.enabled, h.calls, he, hb⟩

/-- The moves of Env and of the `Producer` keep the invariant. -/
theorem envClock_inv (level : Bool) {s : State} (h : s.Inv) : (envClock level s).Inv := by
  obtain ⟨he, hp⟩ := envClock_edgesInv level h.edges
  rw [envClock_eq]
  exact h.setBoard_setEdges he hp (envClock_wf h.ram)

theorem envPresent_inv (opcode flags : Byte) {s : State} (h : s.Inv) : (envPresent opcode flags s).Inv :=
  ⟨h.flow, h.step, h.loader, h.rom, h.words, h.enabled, h.calls, h.edges, h.ram⟩

theorem envSerial_inv (level : Bool) {s : State} (h : s.Inv) : (envSerial level s).Inv :=
  ⟨h.flow, h.step, h.loader, h.rom, h.words, h.enabled, h.calls, h.edges, h.ram⟩

theorem producerStep_inv {s : State} (h : s.Inv) : (producerStep s).Inv :=
  h.setBoard_setEdges (b := s.board) ⟨nofun, h.edges.level⟩ rfl h.ram

/-- The schedule and the marks of a stop are no part of the invariant. -/
theorem State.Inv.setSched {s : State} (h : s.Inv) (k : Sched) : (s.setSched k).Inv :=
  ⟨h.flow, h.step, h.loader, h.rom, h.words, h.enabled, h.calls, h.edges, h.ram⟩

theorem State.Inv.setFaulted {s : State} (h : s.Inv) (f : Option Fault) : (s.setFaulted f).Inv :=
  ⟨h.flow, h.step, h.loader, h.rom, h.words, h.enabled, h.calls, h.edges, h.ram⟩

theorem State.Inv.setRefused {s : State} (h : s.Inv) (r : Option Refusal) : (s.setRefused r).Inv :=
  ⟨h.flow, h.step, h.loader, h.rom, h.words, h.enabled, h.calls, h.edges, h.ram⟩

/-- Settles O53, by which agent moved. -/
theorem stepKeepsInvariant : Obligations.StepKeepsInvariant := by
  intro s t h hst
  obtain ⟨-, -, k, hk⟩ := step_cases hst
  have hs : (s.setSched k).Inv := h.setSched k
  cases hk with
  | clock level _ ht => exact ht ▸ envClock_inv level hs
  | present opcode flags ht => exact ht ▸ envPresent_inv opcode flags hs
  | serial level ht => exact ht ▸ envSerial_inv level hs
  | producer _ ht => exact ht ▸ producerStep_inv hs
  | idle _ _ ht => exact ht ▸ hs
  | run op ops _ h2 ht => exact perform_inv hs h2 ht
  | stop op ops _ _ ht =>
    rcases ht with ⟨f, -, rfl⟩ | ⟨r, -, rfl⟩
    · exact hs.setFaulted _
    · exact hs.setRefused _
  | call c _ h2 ht => exact hostCall_inv hs h2 ht
  | refusedCall c r _ _ _ ht => exact ht ▸ hs.setRefused _

end Sys2Proof.Machine
end

section
/-! What each step of each agent leaves of the output lines (10_state.md R36, 41_bus_protocol.md R156) and of the attached CPU with
its RAM (92_eei_decisions.md D33): the output latch alone moves the first, the attached clock alone the second. -/

namespace Sys2Proof.Machine

/-! ### The output lines -/

/-- A pin moves the 24 outputs only where it is the output latch and rises from low (R156, D16). -/
theorem setPin_outVisible (p : Pin) (l : Bool) (s : State) :
    (setPin p l s).chains.outVisible = s.chains.outVisible
      ∨ Op.pin p l = .pin .outLatch true ∧ s.lines.outLatch = false
          ∧ (setPin p l s).chains.outVisible = s.chains.outShift := by
  cases p with
  | sclk =>
    simp only [setPin, setSclk_chains]
    split <;> exact .inl rfl
  | inLatch =>
    simp only [setPin, setInLatch_chains]
    split <;> exact .inl rfl
  | outLatch =>
    simp only [setPin, setOutLatch_chains]
    split
    · rename_i hl
      obtain ⟨rfl, hlow⟩ : l = true ∧ s.lines.outLatch = false := by simpa using hl
      exact .inr ⟨rfl, hlow, rfl⟩
    · exact .inl rfl

/-- R156: of `Main`'s statements only the raising of the low output latch moves the 24 outputs. -/
theorem perform_outVisible {op : Op} {s t : State} (h : perform op s = .next t) :
    t.chains.outVisible = s.chains.outVisible
      ∨ op = .pin .outLatch true ∧ s.lines.outLatch = false ∧ t.chains.outVisible = s.chains.outShift := by
  cases op with
  | pin p l => cases h; exact setPin_outVisible p l s
  | dir d => cases h; exact .inl (by simp)
  | data l => cases h; exact .inl (by simp)
  | sample n => obtain ⟨-, rfl⟩ := perform_sample_next h; exact .inl rfl
  | drive cw bus => obtain ⟨-, rfl⟩ := perform_drive_next h; exact .inl rfl
  | dispatch => obtain ⟨w, -, rfl⟩ := microStep_next ((exec_eq _ _).symm.trans h); exact .inl rfl
  | storeResetWord => obtain ⟨w, rfl⟩ := storeResetWord_next h; exact .inl rfl
  | wrapStep => cases h; unfold wrapStep; split <;> exact .inl rfl
  | pollFalling => cases h; unfold pollFalling; dsimp only; split <;> exact .inl rfl
  | pollRising => cases h; unfold pollRising; dsimp only; split <;> exact .inl rfl
  | onFalling => cases h; unfold onFalling; split <;> exact .inl rfl
  | onRising => cases h; unfold onRising; split <;> exact .inl rfl
  | _ => cases h; exact .inl rfl

/-- After the set-up call no host call touches the chains as it starts. -/
theorem hostCall_chains {c : HostCall} {s t : State} (hi : s.initialized = true) (h : hostCall c s = .next t) :
    t.chains = s.chains := by
  cases c with
  | startUp => simp [hostCall, hi] at h
  | requestMode m =>
    rw [hostCall, whenInitialized_next _ hi] at h
    cases h
    unfold requestMode
    split <;> rfl
  | requestLoadCode bytes =>
    rw [hostCall, whenInitialized_next _ hi] at h
    cases h
    unfold requestLoadCode
    split <;> rfl
  | _ =>
    rw [hostCall, whenInitialized_next _ hi] at h
    cases h
    rfl

/-- Settles O30, by which agent moved: only `Main`'s statements and the set-up call reach the output chain's outputs. -/
theorem outputsChangeOnlyAtLatch : Obligations.OutputsChangeOnlyAtLatch := by
  intro s t h
  obtain ⟨-, -, k, hk⟩ := step_cases h
  cases hk with
  | clock level _ ht => rw [envClock_eq] at ht; subst ht; exact .inl rfl
  | present opcode flags ht => subst ht; exact .inl rfl
  | serial level ht => subst ht; exact .inl rfl
  | producer _ ht => subst ht; exact .inl rfl
  | idle _ _ ht => subst ht; exact .inl rfl
  | run op ops _ h2 ht =>
    rcases perform_outVisible ht with hkept | ⟨rfl, hlow, hshown⟩
    · exact .inl hkept
    · exact .inr (.inl ⟨⟨ops, h2⟩, hlow, hshown⟩)
  | stop op ops _ _ ht => rcases ht with ⟨f, -, rfl⟩ | ⟨r, -, rfl⟩ <;> exact .inl rfl
  | call c _ _ ht =>
    cases hi : s.initialized with
    | true => exact .inl (congrArg Chains.outVisible (hostCall_chains (s := s.setSched k) hi ht))
    | false => exact .inr (.inr rfl)
  | refusedCall c r _ _ _ ht => subst ht; exact .inl rfl

/-! ### The attached CPU and its RAM -/

/-- The set-up call leaves the attached CPU and its RAM alone (R261). -/
@[simp] theorem startUp_board (s : State) : (startUp s).board = s.board := by simp [startUp]

/-- No host call touches the attached CPU or its RAM as it starts. -/
theorem hostCall_board {c : HostCall} {s t : State} (h : hostCall c s = .next t) : t.board = s.board := by
  cases hi : s.initialized with
  | true => exact (hostCall_kept hi h).board
  | false =>
    obtain ⟨-, rfl⟩ := hostCall_before hi h
    exact startUp_board s

/-- A step that moves the board is a move of the attached clock. -/
theorem step_board {s t : State} (h : step s = .next t) (hc : ∀ level, nextMove s ≠ .clock level) :
    t.board = s.board := by
  obtain ⟨-, -, k, hk⟩ := step_cases h
  cases hk with
  | clock level hm _ => exact absurd hm (hc level)
  | present opcode flags ht => subst ht; rfl
  | serial level ht => subst ht; rfl
  | producer _ ht => subst ht; rfl
  | idle _ _ ht => subst ht; rfl
  | run op ops _ _ ht => exact (perform_kept ht).board
  | stop op ops _ _ ht => rcases ht with ⟨f, -, rfl⟩ | ⟨r, -, rfl⟩ <;> rfl
  | call c _ _ ht => exact hostCall_board (s := s.setSched k) ht
  | refusedCall c r _ _ _ ht => subst ht; rfl

/-- Settles O57: the board is kept whole, so each byte of its RAM reads as before. -/
theorem onlyTheAttachedClockMovesTheBoard : Obligations.OnlyTheAttachedClockMovesTheBoard := by
  intro s t h hc
  have hb : t.board = s.board := step_board h hc
  exact ⟨hb, fun a => congrArg (fun b : Board => memRead b.ram a) hb⟩

end Sys2Proof.Machine
end

section
/-! The opcode decoder, said once (30_encoding.md R82, R84, R85): a byte of a defined instruction decodes to it, and every other
byte is an undefined opcode. From this the round trips of opcode bytes and of program lines (R86, R88); beside them REF's flags
byte (R81, D4) and the step that takes a decoded opcode to its meaning (R210). -/

namespace Sys2Proof

/-! ### The opcode byte -/

/-- R84: under well-formed parameters a defined instruction's opcode byte decodes to it. -/
theorem decodeOpcode_of_defined {cfg : Config} (h : cfg.wf = true) {i : Instr} (hi : i ∈ cfg.definedInstrs) :
    decodeOpcode cfg (cfg.opcodeOf i) = i := by
  simp only [decodeOpcode, find_of_noRepeats cfg.opcodeOf (Config.wf_opcodes h) hi]

/-- R85: a byte outside the opcode map is an undefined opcode. -/
theorem decodeOpcode_of_not_defined {cfg : Config} {b : Byte} (hb : b ∉ cfg.definedOpcodes) :
    decodeOpcode cfg b = .undef b := by
  have hnone : cfg.definedInstrs.find? (fun i => cfg.opcodeOf i == b) = none :=
    List.find?_eq_none.2 fun i hi => by
      simp only [beq_iff_eq]
      rintro rfl
      exact hb (List.mem_map_of_mem hi)
  simp only [decodeOpcode, hnone]

/-- R82, R85: whatever the parameters, a byte of the opcode map decodes to a defined instruction with that opcode. -/
theorem decodeOpcode_defined {cfg : Config} {b : Byte} (hb : b ∈ cfg.definedOpcodes) :
    decodeOpcode cfg b ∈ cfg.definedInstrs ∧ cfg.opcodeOf (decodeOpcode cfg b) = b := by
  cases hf : cfg.definedInstrs.find? (fun i => cfg.opcodeOf i == b) with
  | none =>
    obtain ⟨i, hi, rfl⟩ := List.mem_map.1 hb
    exact absurd (beq_self_eq_true _) (List.find?_eq_none.1 hf i hi)
  | some i =>
    have hop := List.find?_some hf
    simp only [decodeOpcode, hf]
    exact ⟨List.mem_of_find?_eq_some hf, beq_iff_eq.1 hop⟩

/-- R85, R135: an undefined opcode is well formed exactly outside the opcode map. -/
theorem Instr.undef_wf_iff {cfg : Config} {op : Byte} : (Instr.undef op).wf cfg = true ↔ op ∉ cfg.definedOpcodes := by
  simp [Instr.wf]

/-- The instruction a byte decodes to has that byte as its opcode. -/
theorem encode_decodeOpcode (cfg : Config) (b : Byte) : encode cfg (decodeOpcode cfg b) = b := by
  by_cases hb : b ∈ cfg.definedOpcodes
  · exact (decodeOpcode_defined hb).2
  · rw [decodeOpcode_of_not_defined hb]
    rfl

/-- R85: whatever a byte decodes to is well formed. -/
theorem decodeOpcode_wf (cfg : Config) (b : Byte) : (decodeOpcode cfg b).wf cfg = true := by
  by_cases hb : b ∈ cfg.definedOpcodes
  · exact Instr.wf_of_mem (decodeOpcode_defined hb).1
  · rw [decodeOpcode_of_not_defined hb]
    exact Instr.undef_wf_iff.2 hb

/-- A well-formed instruction is what its opcode byte decodes to. -/
theorem decodeOpcode_encode {cfg : Config} (h : cfg.wf = true) {i : Instr} (hi : i.wf cfg = true) :
    decodeOpcode cfg (encode cfg i) = i := by
  by_cases hu : ∃ op, i = .undef op
  · obtain ⟨op, rfl⟩ := hu
    exact decodeOpcode_of_not_defined (Instr.undef_wf_iff.1 hi)
  · exact decodeOpcode_of_defined h (Instr.mem_of_wf hi fun op e => hu ⟨op, e⟩)

/-- Settles O1: a well-formed instruction is defined, and found by its distinct opcode, or is an undefined opcode. -/
theorem opcodeRoundTrip : Obligations.OpcodeRoundTrip :=
  fun _ _ h hi => decodeOpcode_encode h hi

/-- Settles O2, by whether the byte is in the opcode map. -/
theorem everyByteDecodes : Obligations.EveryByteDecodes :=
  fun cfg b => ⟨encode_decodeOpcode cfg b, fun _ => decodeOpcode_wf cfg b⟩

/-! ### The program line -/

/-- R86: the opcode of an instruction without an operand byte is a whole line. -/
theorem decodeLine_plain {cfg : Config} {b : Byte} {i : Instr} (hd : decodeOpcode cfg b = i)
    (ho : i.hasOperand cfg = false) (rest : List Byte) : decodeLine cfg (b :: rest) = .ok (.plain i, rest) := by
  simp [decodeLine, hd, ho]

/-- R86: the opcode of an instruction with an operand byte takes the next byte as its operand. -/
theorem decodeLine_withOperand {cfg : Config} {b : Byte} {i : Instr} (hd : decodeOpcode cfg b = i)
    (ho : i.hasOperand cfg = true) (operand : Byte) (rest : List Byte) :
    decodeLine cfg (b :: operand :: rest) = .ok (.withOperand i operand, rest) := by
  simp [decodeLine, hd, ho]

/-- Settles O3: the opcode byte decodes back, and the line's well-formedness says whether an operand byte follows. -/
theorem assemblerLineRoundTrip : Obligations.AssemblerLineRoundTrip := by
  intro cfg i operand rest h
  constructor
  · intro hw
    simp only [AsmLine.wf, Bool.and_eq_true, Bool.not_eq_true'] at hw
    obtain ⟨hi, ho⟩ := hw
    exact decodeLine_plain (decodeOpcode_encode h hi) ho rest
  · intro hw
    simp only [AsmLine.wf, Bool.and_eq_true] at hw
    obtain ⟨hi, ho⟩ := hw
    exact decodeLine_withOperand (decodeOpcode_encode h hi) ho operand rest

/-- Settles O4: eight closed words, each decoded. -/
theorem referenceOpcodesDecode : Obligations.ReferenceOpcodesDecode := by
  unfold Obligations.ReferenceOpcodesDecode
  decide

end Sys2Proof

namespace Sys2Proof.Machine

/-! ### The flags byte under REF -/

/-- D4: the six bits of a flags byte that must be 0 are 0 exactly below 4. -/
theorem upperFlagBits_eq_zero_iff (b : Byte) : b.extractLsb' 2 6 = 0#6 ↔ b.toNat < 4 := by
  have hb : b.toNat < 256 := b.isLt
  simp only [BitVec.toNat_eq, BitVec.extractLsb'_toNat, Nat.shiftRight_eq_div_pow, BitVec.toNat_ofNat]
  omega

/-- D4: C is the parity of the flags byte. -/
theorem carryBit_eq (b : Byte) : b.getLsbD 0 = decide (b.toNat % 2 = 1) := by
  rw [BitVec.getLsbD, Nat.testBit_zero]

/-- D4: in a flags byte below 4, Z says whether it is at least 2. -/
theorem zeroBit_eq {b : Byte} (h : b.toNat < 4) : b.getLsbD 1 = decide (2 ≤ b.toNat) := by
  rw [BitVec.getLsbD, Nat.testBit_succ, Nat.testBit_zero]
  exact decide_eq_decide.2 (by omega)

/-- Settles O5, by whether one of the six bits that must be 0 is set. -/
theorem referenceFlagsDecode : Obligations.ReferenceFlagsDecode := by
  intro b
  change decodeFlagsRef b = _
  unfold decodeFlagsRef
  by_cases h : b.toNat < 4
  · rw [if_pos ((upperFlagBits_eq_zero_iff b).2 h), if_pos h, zeroBit_eq h, carryBit_eq]
  · rw [if_neg (mt (upperFlagBits_eq_zero_iff b).1 h), if_neg h]

/-! ### From the decoded opcode to its meaning -/

/-- Log entry 4: the script's first move is the one whose turn it is. -/
theorem nextMove_of_script {s : State} {m : Move} {moves : List Move} (h : s.sched.script = m :: moves) :
    nextMove s = m := by
  simp only [nextMove, h]

/-- Log entry 4: making the script's first move takes it off. -/
theorem consumeMove_of_script {s : State} {m : Move} {moves : List Move} (h : s.sched.script = m :: moves) :
    consumeMove s = s.setSched { s.sched with script := moves } := by
  simp only [consumeMove, h]

/-- Settles O25: the core's turn runs `Main`'s first statement, which is the dispatch. -/
theorem stepRunsSampledInstruction : Obligations.StepRunsSampledInstruction := by
  rintro s ops moves ⟨hf, hr⟩ hi hs ht
  calc step s
    _ = takeMove .core s := by rw [step_live hf hr, nextMove_of_script hs]
    _ = recordStop (consumeMove s) (perform .dispatch ((consumeMove s).setTodo ops)) := takeMove_core hi ht
    _ = _ := by rw [consumeMove_of_script hs]; rfl

end Sys2Proof.Machine
end

section
/-! The microcode ROM row by row (40_microcode.md R100 to R111): off the branch steps of the conditional jumps a lookup finds the
base row whatever the flags, and at a branch step it finds the word the flags select. From this each instruction's micro-step (R120
to R136, R210). -/

namespace Sys2Proof

/-- R107: the branch step of a conditional jump; no other instruction's row is overridden (R100 step 3). -/
def Config.jumpStep (cfg : Config) : Instr → Option Nat
  | .jmc => some cfg.branchSteps.jmc
  | .jmz => some cfg.branchSteps.jmz
  | .jnz => some cfg.branchSteps.jnz
  | _ => none

/-- R107: the word a conditional jump has at its branch step under a FlagState (D6 where it is not taken). -/
def Config.jumpWord (cfg : Config) (f : FlagState) : Instr → Word
  | .jmc => if f.c then cfg.takenWord else 0#16
  | .jmz => if f.z then cfg.takenWord else 0#16
  | .jnz => if f.z then 0#16 else cfg.takenWord
  | _ => 0#16

/-- R107: only a named instruction has a branch step. -/
theorem Config.jumpStep_named {cfg : Config} {i : Instr} {k : Nat} (hk : cfg.jumpStep i = some k) : i ∈ namedInstrs := by
  cases i <;> cases hk <;> decide

/-- R107: a branch step lies in 2..6. -/
theorem Config.jumpStep_bounds {cfg : Config} (h : cfg.wf = true) {i : Instr} {k : Nat} (hk : cfg.jumpStep i = some k) :
    2 ≤ k ∧ k ≤ maxStep := by
  obtain ⟨hc, hz, hn⟩ := Config.wf_branchSteps h
  cases i <;> cases hk
  · exact hc
  · exact hz
  · exact hn

/-- R107: a branch step lies in the chosen body, since the body has its base word there. -/
theorem Config.jumpStep_lt {cfg : Config} (h : cfg.wf = true) {i : Instr} {k : Nat} {body : List Word}
    (hk : cfg.jumpStep i = some k) (hb : cfg.bodyOf i = some body) : k < 2 + body.length := by
  obtain ⟨hc, hz, hn⟩ := Config.wf_branchWords h
  have inBody : ∀ {w : Word}, body[k - 2]? = some w → k < 2 + body.length := fun hw => by
    have := (List.getElem?_eq_some_iff.1 hw).1
    omega
  cases i <;> cases hk
  · exact inBody (hc body hb)
  · exact inBody (hz body hb)
  · exact inBody (hn body hb)

/-- R84: the conditional jumps have different opcodes. -/
theorem Config.jumpOpcodes_ne {cfg : Config} (h : cfg.wf = true) :
    cfg.opcodes.jmc ≠ cfg.opcodes.jmz ∧ cfg.opcodes.jmc ≠ cfg.opcodes.jnz ∧ cfg.opcodes.jmz ≠ cfg.opcodes.jnz := by
  have ne : ∀ i j : Instr, i ∈ namedInstrs → j ∈ namedInstrs → i ≠ j → cfg.opcodeOf i ≠ cfg.opcodeOf j :=
    fun i j hi hj hij e => hij (Config.opcodeOf_inj h (cfg.mem_named hi) (cfg.mem_named hj) e)
  exact ⟨ne .jmc .jmz (by decide) (by decide) nofun, ne .jmc .jnz (by decide) (by decide) nofun,
    ne .jmz .jnz (by decide) (by decide) nofun⟩

/-- R105: from its length on a row is zero. -/
theorem Config.rowWord_padding (cfg : Config) {body : List Word} {k : Nat} (hk : 2 + body.length ≤ k) :
    cfg.rowWord body k = 0#16 := by
  obtain ⟨j, rfl⟩ : ∃ j, k = j + 2 := ⟨k - 2, by omega⟩
  exact List.getD_eq_default _ _ (by omega)

end Sys2Proof

namespace Sys2Proof.Machine

/-! ### The rows of the built ROM -/

/-- R100 step 3, R106: off the branch steps a lookup finds the base row, under every FlagState. -/
theorem lookup_off_branch {cfg : Config} (h : cfg.wf = true) {i : Instr} (hi : i ∈ cfg.definedInstrs) (f : FlagState)
    {k : Nat} (hk : cfg.jumpStep i ≠ some k) : (buildRom cfg).lookup f (cfg.opcodeOf i) k =
      if k ≤ maxStep then (baseRow cfg i).entry k else .word 0#16 := by
  have other : ∀ j ∈ namedInstrs, ∀ n, cfg.jumpStep j = some n → cfg.opcodeOf i = cfg.opcodeOf j → k ≠ n := by
    rintro j hj n hn e rfl
    exact hk (Config.opcodeOf_inj h hi (cfg.mem_named hj) e ▸ hn)
  rw [lookup_defined h hi, patches_entry _ _ _ _ _ (other .jmc (by decide) _ rfl) (other .jmz (by decide) _ rfl)
    (other .jnz (by decide) _ rfl)]

/-- R105, R106: off the branch steps a lookup in a chosen body's row finds the row's word. -/
theorem lookup_rowWord {cfg : Config} (h : cfg.wf = true) {i : Instr} (hi : i ∈ cfg.definedInstrs) {body : List Word}
    (hb : cfg.bodyOf i = some body) (f : FlagState) {k : Nat} (hk : cfg.jumpStep i ≠ some k) :
    (buildRom cfg).lookup f (cfg.opcodeOf i) k = .word (cfg.rowWord body k) := by
  rw [lookup_off_branch h hi f hk]
  split
  · exact baseRow_entry cfg i body hb k
  · rename_i hhigh
    rw [rowWord_high cfg (Config.wf_bodyLength h hi hb) hhigh]

/-- R104: a lookup of an opcode outside the opcode map finds the zero word. -/
theorem lookup_undefined {cfg : Config} {op : Byte} (hop : op ∉ cfg.definedOpcodes) (f : FlagState) (k : Nat) :
    (buildRom cfg).lookup f op k = .word 0#16 := by
  simp only [Rom.lookup, subTable_find, baseTable_find_none hop, Option.map_none, ite_self]

/-- R100 step 2: a base row holds the body's word `k` at step `k + 2`. -/
theorem baseRow_getElem? {cfg : Config} {i : Instr} {body : List Word} (hb : cfg.bodyOf i = some body) {k : Nat} (h2 : 2 ≤ k)
    {w : Word} (hw : body[k - 2]? = some w) : (baseRow cfg i).entries[k]? = some (.word w) := by
  obtain ⟨j, rfl⟩ : ∃ j, k = j + 2 := ⟨k - 2, by omega⟩
  replace hw : body[j]? = some w := hw
  simp [baseRow, hb, bodyEntries, hw]

/-- R100 step 3: where a row holds a word, an override leaves the new one if it is made. -/
theorem overridden_entry {r : RomRow} {k : Nat} {v : Word} (hv : r.entries[k]? = some (.word v)) (w : Word) (p : Prop)
    [Decidable p] : (if p then { r with entries := r.entries.modify k (RomEntry.override w) } else r).entry k =
      .word (if p then w else v) := by
  split <;> simp [RomRow.entry, List.getD_eq_getElem?_getD, hv, RomEntry.override]

/-- R107: at its branch step a conditional jump's row holds the word the flags select: its own override is the only one made
in its row, since the three opcodes differ. -/
theorem lookup_at_branch {cfg : Config} (h : cfg.wf = true) {i : Instr} {k : Nat} (hk : cfg.jumpStep i = some k)
    {body : List Word} (hb : cfg.bodyOf i = some body) (f : FlagState) :
    (buildRom cfg).lookup f (cfg.opcodeOf i) k = .word (cfg.jumpWord f i) := by
  obtain ⟨h2, h6⟩ := Config.jumpStep_bounds h hk
  obtain ⟨hcz, hcn, hzn⟩ := Config.jumpOpcodes_ne h
  obtain ⟨hc, hz, hn⟩ := Config.wf_branchWords h
  rw [lookup_defined h (cfg.mem_named (Config.jumpStep_named hk)), if_pos h6]
  cases i <;> cases hk
  case jmc =>
    simp only [patches, Config.opcodeOf, hcz, hcn, and_true, and_false, if_false]
    exact overridden_entry (baseRow_getElem? hb h2 (hc body hb)) _ _
  case jmz =>
    simp only [patches, Config.opcodeOf, hcz.symm, hzn, and_true, and_false, if_false]
    exact overridden_entry (baseRow_getElem? hb h2 (hz body hb)) _ _
  case jnz =>
    simp only [patches, Config.opcodeOf, hcn.symm, hzn.symm, and_true, and_false, if_false]
    exact overridden_entry (baseRow_getElem? hb h2 (hn body hb)) _ _

/-- Settles O7: the fetch steps lie before every branch step. -/
theorem universalFetchRows : Obligations.UniversalFetchRows := by
  intro cfg i f h hi
  have early : ∀ k < 2, cfg.jumpStep i ≠ some k := fun k hk e => by
    have := (Config.jumpStep_bounds h e).1
    omega
  exact ⟨lookup_off_branch h hi f (early 0 (by decide)), lookup_off_branch h hi f (early 1 (by decide))⟩

/-- Settles O8: there is no row to find. -/
theorem undefinedRowsAreZero : Obligations.UndefinedRowsAreZero :=
  fun _ _ f step _ hop => lookup_undefined hop f step

/-- Settles O9: the padding lies beyond every branch step. -/
theorem rowsArePaddedWithZero : Obligations.RowsArePaddedWithZero := by
  intro cfg i body f step h hi hb hlen
  have late : cfg.jumpStep i ≠ some step := fun e => by
    have := Config.jumpStep_lt h e hb
    omega
  calc (buildRom cfg).lookup f (cfg.opcodeOf i) step
    _ = .word (cfg.rowWord body step) := lookup_rowWord h hi hb f late
    _ = .word 0#16 := by rw [cfg.rowWord_padding hlen]

/-- Settles O10: both sub-tables hold the base row's entry there. -/
theorem rowsAreFlagIndependent : Obligations.RowsAreFlagIndependent := by
  intro cfg i f g step h hi hc hz hn
  have off : cfg.jumpStep i ≠ some step := by
    intro e
    cases i <;> cases e
    · exact hc rfl rfl
    · exact hz rfl rfl
    · exact hn rfl rfl
  exact (lookup_off_branch h hi f off).trans (lookup_off_branch h hi g off).symm

/-- Settles O11, for each of the three jumps. -/
theorem branchTruthTable : Obligations.BranchTruthTable := by
  intro cfg f h
  have atBranch : ∀ i k, cfg.jumpStep i = some k → (cfg.bodyOf i).isSome = true →
      (buildRom cfg).lookup f (cfg.opcodeOf i) k = .word (cfg.jumpWord f i) := fun i k hk hs => by
    obtain ⟨body, hb⟩ := Option.isSome_iff_exists.1 hs
    exact lookup_at_branch h hk hb f
  exact ⟨atBranch .jmc _ rfl, atBranch .jmz _ rfl, atBranch .jnz _ rfl⟩

/-- Settles O12: nineteen closed lookups in REF's ROM, each evaluated. -/
theorem referenceRomTable : Obligations.ReferenceRomTable := by
  unfold Obligations.ReferenceRomTable
  decide

/-! ### The micro-steps -/

/-- R210: the micro-step completes with the word that the built ROM holds for the instruction at the present step. -/
theorem exec_of_lookup {s : State} {f : FlagState} {i : Instr} {w : Word} (hs : s.sampled f)
    (hw : (buildRom s.cfg).lookup f (s.cfg.opcodeOf i) s.instructionStep = .word w) :
    exec i s = .next { s with controlWord := w, todo := .drive w 0#8 :: .incStep :: s.todo } := by
  obtain ⟨-, hrom, hflags⟩ := hs
  rw [exec_eq]
  exact microStep_word hflags (hrom ▸ hw)

/-- R106, R210: off its branch step, if it has one, an instruction drives its row's word, whatever the flags. -/
theorem exec_rowWord {s : State} {f : FlagState} {i : Instr} {body : List Word} (hs : s.sampled f)
    (hi : i ∈ s.cfg.definedInstrs) (hb : s.cfg.bodyOf i = some body) (hk : s.cfg.jumpStep i ≠ some s.instructionStep) :
    exec i s = .next { s with
      controlWord := s.cfg.rowWord body s.instructionStep
      todo := .drive (s.cfg.rowWord body s.instructionStep) 0#8 :: .incStep :: s.todo } :=
  exec_of_lookup hs (lookup_rowWord hs.1 hi hb f hk)

/-- R106, R210: a named instruction that is no conditional jump drives its row's word at every step. -/
theorem exec_rowWord_of_named {s : State} {f : FlagState} {i : Instr} {body : List Word} (hs : s.sampled f)
    (hi : i ∈ namedInstrs) (hj : s.cfg.jumpStep i = none) (hb : s.cfg.bodyOf i = some body) :
    exec i s = .next { s with
      controlWord := s.cfg.rowWord body s.instructionStep
      todo := .drive (s.cfg.rowWord body s.instructionStep) 0#8 :: .incStep :: s.todo } :=
  exec_rowWord hs (s.cfg.mem_named hi) hb (by rw [hj]; exact nofun)

/-- R107, R210: a conditional jump drives at its branch step the word the flags select, and its row's word elsewhere. -/
theorem exec_jump {s : State} {f : FlagState} {i : Instr} {k : Nat} {body : List Word} {w : Word} (hs : s.sampled f)
    (hk : s.cfg.jumpStep i = some k) (hb : s.cfg.bodyOf i = some body)
    (hw : w = if s.instructionStep = k then s.cfg.jumpWord f i else s.cfg.rowWord body s.instructionStep) :
    exec i s = .next { s with controlWord := w, todo := .drive w 0#8 :: .incStep :: s.todo } := by
  by_cases hstep : s.instructionStep = k
  · rw [if_pos hstep] at hw
    subst hw
    exact exec_of_lookup hs (hstep ▸ lookup_at_branch hs.1 hk hb f)
  · rw [if_neg hstep] at hw
    subst hw
    exact exec_rowWord hs (s.cfg.mem_named (Config.jumpStep_named hk)) hb fun e => hstep (Option.some.inj (e.symm.trans hk))

/-- Settles O13: NOP's body is empty. -/
theorem nopDrivesFetchThenZero : Obligations.NopDrivesFetchThenZero :=
  fun _ _ hs => exec_rowWord_of_named hs (i := .nop) (by decide) rfl rfl

/-- Settles O14: neither is a conditional jump. -/
theorem hltAndJmpDriveTheirRows : Obligations.HltAndJmpDriveTheirRows := by
  intro s f i body hs hi hb
  fin_cases hi <;> exact exec_rowWord_of_named hs (by decide) rfl hb

/-- Settles O15: none of the five is a conditional jump. -/
theorem loadsAndStoresDriveTheirRows : Obligations.LoadsAndStoresDriveTheirRows := by
  intro s f i body hs hi hb
  fin_cases hi <;> exact exec_rowWord_of_named hs (by decide) rfl hb

/-- Settles O16: none of the four is a conditional jump. -/
theorem arithmeticAndTransfersDriveTheirRows : Obligations.ArithmeticAndTransfersDriveTheirRows := by
  intro s f i body hs hi hb
  fin_cases hi <;> exact exec_rowWord_of_named hs (by decide) rfl hb

/-- Settles O17, by what a conditional jump drives. -/
theorem jmcBranchesOnCarry : Obligations.JmcBranchesOnCarry :=
  fun _ _ _ _ hs hb hw => exec_jump hs rfl hb hw

/-- Settles O18, by what a conditional jump drives. -/
theorem jmzBranchesOnZero : Obligations.JmzBranchesOnZero :=
  fun _ _ _ _ hs hb hw => exec_jump hs rfl hb hw

/-- Settles O19, by what a conditional jump drives. -/
theorem jnzBranchesOnNotZero : Obligations.JnzBranchesOnNotZero :=
  fun _ _ _ _ hs hb hw => exec_jump hs rfl hb hw

/-- Settles O20: an undefined opcode has no row. -/
theorem undefinedOpcodeDrivesZero : Obligations.UndefinedOpcodeDrivesZero :=
  fun s f _ hs hu => exec_of_lookup hs (lookup_undefined (Instr.undef_wf_iff.1 hu) f s.instructionStep)

/-- Settles O21: a well-formed extra instruction is a defined one, and no conditional jump. -/
theorem extraInstructionDrivesItsRow : Obligations.ExtraInstructionDrivesItsRow :=
  fun _ _ _ _ hs hx hb => exec_rowWord hs (Instr.mem_of_wf hx nofun) hb nofun

end Sys2Proof.Machine
end

section
/-! The built ROM and the parameters along a step of any agent (40_microcode.md R109, 00_scope.md R7). -/

namespace Sys2Proof.Machine

/-- The set-up call leaves the parameters alone (R261). -/
@[simp] theorem startUp_cfg (s : State) : (startUp s).cfg = s.cfg := by simp [startUp]

/-- No host call touches the parameters as it starts. -/
theorem hostCall_cfg {c : HostCall} {s t : State} (h : hostCall c s = .next t) : t.cfg = s.cfg := by
  cases hi : s.initialized with
  | true => exact (hostCall_kept hi h).cfg
  | false =>
    obtain ⟨-, rfl⟩ := hostCall_before hi h
    exact startUp_cfg s

/-- Settles O56, by which agent moved: the set-up call alone writes the ROM, and it is refused after the first one (R306 X3). -/
theorem romAndParametersNeverChange : Obligations.RomAndParametersNeverChange := by
  intro s t h
  obtain ⟨-, -, k, hk⟩ := step_cases h
  cases hk with
  | clock level _ ht => rw [envClock_eq] at ht; subst ht; exact ⟨rfl, fun hi => ⟨rfl, hi⟩⟩
  | present opcode flags ht => subst ht; exact ⟨rfl, fun hi => ⟨rfl, hi⟩⟩
  | serial level ht => subst ht; exact ⟨rfl, fun hi => ⟨rfl, hi⟩⟩
  | producer _ ht => subst ht; exact ⟨rfl, fun hi => ⟨rfl, hi⟩⟩
  | idle _ _ ht => subst ht; exact ⟨rfl, fun hi => ⟨rfl, hi⟩⟩
  | run op ops _ _ ht =>
    have kept := perform_kept ht
    exact ⟨kept.cfg, fun hi => ⟨kept.rom, kept.initialized.trans hi⟩⟩
  | stop op ops _ _ ht => rcases ht with ⟨f, -, rfl⟩ | ⟨r, -, rfl⟩ <;> exact ⟨rfl, fun hi => ⟨rfl, hi⟩⟩
  | call c _ _ ht =>
    refine ⟨hostCall_cfg (s := s.setSched k) ht, fun hi => ?_⟩
    have kept := hostCall_kept (s := s.setSched k) hi ht
    exact ⟨kept.rom, kept.initialized.trans hi⟩
  | refusedCall c r _ _ _ ht => subst ht; exact ⟨rfl, fun hi => ⟨rfl, hi⟩⟩

end Sys2Proof.Machine
end

section
/-! The ALU of the informative attached CPU (92_eei_decisions.md D33), and what REF's words of ADD and SUB have it do (R131, R132). -/

namespace Sys2Proof.Machine

/-- D33: without SU the nine bits are the exact sum. -/
theorem aluSum_add_toNat (a b : Byte) : (aluSum a b false).toNat = a.toNat + b.toNat := by
  change (a.setWidth 9 + b.setWidth 9).toNat = _
  bv_omega

/-- D33: under SU the nine bits are the difference plus 256. -/
theorem aluSum_sub_toNat (a b : Byte) : (aluSum a b true).toNat = 256 + a.toNat - b.toNat := by
  change (a.setWidth 9 + (~~~b).setWidth 9 + 1#9).toNat = _
  bv_omega

theorem aluResult_add (a b : Byte) : aluResult a b false = a + b :=
  BitVec.eq_of_toNat_eq <| by rw [aluResult, BitVec.toNat_setWidth, aluSum_add_toNat, BitVec.toNat_add]

theorem aluResult_sub (a b : Byte) : aluResult a b true = a - b :=
  BitVec.eq_of_toNat_eq <| by
    rw [aluResult, BitVec.toNat_setWidth, aluSum_sub_toNat, BitVec.toNat_sub]
    omega

/-- D33: the carry says that the nine bits are 256 or more. -/
theorem aluCarry_eq (a b : Byte) (sub : Bool) : aluCarry a b sub = decide (256 ≤ (aluSum a b sub).toNat) :=
  BitVec.msb_eq_decide _

theorem aluCarry_add (a b : Byte) : aluCarry a b false = decide (256 ≤ a.toNat + b.toNat) := by
  rw [aluCarry_eq, aluSum_add_toNat]

theorem aluCarry_sub (a b : Byte) : aluCarry a b true = decide (b.toNat ≤ a.toNat) := by
  rw [aluCarry_eq, aluSum_sub_toNat]
  exact decide_eq_decide.2 (by omega)

/-- D33: under a word that asserts EO, AI, FI and at most SU besides, the ALU's result reaches A over the bus and its flags are
taken; SU says which result. -/
theorem cpuTick_alu {cfg : Config} {w : Word} {sub : Bool}
    (hw : ∀ l, cfg.lineBits.asserts w l = ([Line.eo, .ai, .fi].contains l || l == .su && sub)) (x : Byte) (b : Board) :
    cpuTick cfg w x b = { b.cpu with
      a := aluResult b.cpu.a b.cpu.b sub, z := aluZero b.cpu.a b.cpu.b sub, c := aluCarry b.cpu.a b.cpu.b sub } := by
  simp [cpuTick, cpuBus, gate, hw]

/-- D2, R131: REF's word of ADD is EO|AI|FI. -/
theorem ref_addWord_lines (l : Line) :
    Config.ref.lineBits.asserts 0x0520#16 l = ([Line.eo, .ai, .fi].contains l || l == .su && false) := by
  cases l <;> rfl

/-- D2, R132: REF's word of SUB is EO|AI|SU|FI. -/
theorem ref_subWord_lines (l : Line) :
    Config.ref.lineBits.asserts 0x05A0#16 l = ([Line.eo, .ai, .fi].contains l || l == .su && true) := by
  cases l <;> rfl

/-- Settles O59: both words put the ALU's result into A and its flags into Z and C. -/
theorem attachedAluAddsAndSubtracts : Obligations.AttachedAluAddsAndSubtracts := by
  intro x b
  constructor
  · rw [cpuTick_alu ref_addWord_lines, aluZero, aluResult_add, aluCarry_add]
  · rw [cpuTick_alu ref_subWord_lines, aluZero, aluResult_sub, aluCarry_sub]

end Sys2Proof.Machine
end

section
/-! The bus protocol's calls from end to end (41_bus_protocol.md R152, R155, R163): the frame's bits read back as bytes, and what a
whole `Drive` or `Sample` of `Main` leaves, turn by turn of the core. -/

namespace Sys2Proof.Machine

/-! ### The frame's bits -/

/-- R90, R91: the eight bits sent from the `k`-th on, put together as `Sample` does, are that byte of the frame. -/
theorem byteOfBits_frameBits (f : Frame) {k : Nat} (hk : k ≤ 16) :
    byteOfBits (((frameBits f).drop k).take 8) = f.extractLsb' (16 - k) 8 := by
  have hlen : (((frameBits f).drop k).take 8).length = 8 := by simp [frameBits]; omega
  apply BitVec.eq_of_getLsbD_eq
  intro i hi
  have hbit : k + (7 - i) < 24 := by omega
  have hpos : 24 - 1 - (k + (7 - i)) = 16 - k + i := by omega
  rw [byteOfBits, getLsbD_foldl _ _ _ hi, hlen, if_pos hi, BitVec.getLsbD_extractLsb']
  simp [frameBits, List.getD_eq_getElem?_getD, BitVec.getMsbD, hi, hbit, hpos, show 7 - i < 8 by omega]

/-- R78: inverting twice gives the logical word back. -/
theorem wire_xor_invertMask (cfg : Config) (w : Word) : cfg.wire w ^^^ cfg.invertMask = w := by
  rw [Config.wire, BitVec.xor_assoc, BitVec.xor_self, BitVec.xor_zero]

/-- Settles O6, byte by byte: the three bytes read are the frame's, which is the bus value before the wire word. -/
theorem frameReadsBack : Obligations.FrameReadsBack := by
  intro cfg w b
  have hlast : byteOfBits ((frameBits (cfg.frame w b)).drop 16) = (cfg.wire w).extractLsb' 0 8 :=
    (byteOfBits_frameBits _ (Nat.le_refl 16)).trans (BitVec.extractLsb'_append_eq_of_add_le (by decide))
  have hmid : byteOfBits (((frameBits (cfg.frame w b)).drop 8).take 8) = (cfg.wire w).extractLsb' 8 8 :=
    (byteOfBits_frameBits _ (by decide)).trans (BitVec.extractLsb'_append_eq_of_add_le (by decide))
  constructor
  · exact (byteOfBits_frameBits _ (Nat.zero_le 16)).trans BitVec.extractLsb'_append_eq_left
  · rw [hmid, hlast, BitVec.extractLsb'_append_extractLsb']
    exact wire_xor_invertMask cfg w

/-! ### A whole call -/

/-- A statement that puts line operations before the rest of the call, and then those, one a turn, come to their fold. -/
theorem run_pushed {s : State} {op : Op} (l ops : List Op) (n : Nat) (after : List Move) (h : s.undisturbed)
    (hl : l.all Op.onLines = true)
    (hp : perform op (s.poised ops (l.length + n) after) = .next ((s.poised ops (l.length + n) after).push l)) :
    Host.Core.run Sys2Proof.core (l.length + 1) (s.poised (op :: ops) (l.length + n + 1) after)
      = .next ((l.foldl lineStep s).poised ops n after) :=
  run_step (step_poised h hp) (run_onLines l ops n after h hl)

/-- R155: a `Drive` from rest takes 125 turns of the core. -/
theorem run_drive {s : State} (cw : Word) (bus : Byte) (ops : List Op) (n : Nat) (after : List Move) (h : s.undisturbed)
    (hr : s.lines.atRest s.cfg) :
    Host.Core.run Sys2Proof.core 125 (s.poised (.drive cw bus :: ops) (125 + n) after)
      = .next ((afterDrive cw bus s).poised ops n after) := by
  have hrun := run_pushed (op := .drive cw bus) (driveOps s.cfg cw bus) ops n after h (onLines_drive _ cw bus)
    (startBusCall_main hr.1)
  rw [foldl_drive s cw bus h.2.2 hr, driveOps_length, show 124 + n + 1 = 125 + n by omega] at hrun
  exact hrun

/-- R152: a two-byte `Sample` from rest takes 89 turns of the core, and leaves the presented bytes in its locals. -/
theorem run_sampleTwo {s : State} (ops : List Op) (n : Nat) (after : List Move) (h : s.undisturbed)
    (hr : s.lines.atRest s.cfg) (hb : s.cfg.readBeforePulse = true) :
    ∃ t, Host.Core.run Sys2Proof.core 89 (s.poised (.sample .two :: ops) (89 + n) after) = .next (t.poised ops n after)
      ∧ Quiet s t ∧ t.lines = s.lines
      ∧ t.locals.out0 = (presented s).opcode ∧ t.locals.out1 = (presented s).flags := by
  obtain ⟨t, hfold, hquiet, hlines, hout0, hout1⟩ := foldl_sample .two hb h.2.2 hr
  have hrun := run_pushed (op := .sample .two) (sampleOps s.cfg .two) ops n after h (onLines_sample _ .two)
    (startBusCall_main hr.1)
  rw [hfold, sampleOps_length2, show 88 + n + 1 = 89 + n by omega] at hrun
  exact ⟨t, hrun, hquiet, hlines, hout0, hout1 rfl⟩

/-- Settles O26: the turns of the core are the call's and its statements'. -/
theorem driveLatchesItsFrame : Obligations.DriveLatchesItsFrame := by
  intro s cw bus ops moves h hr htodo hturns
  have hrun := run_drive cw bus ops 0 moves h hr
  rw [Nat.add_zero, State.poised_self htodo hturns] at hrun
  exact ⟨_, hrun, rfl, rfl, afterDrive_rest cw bus hr, rfl⟩

/-- Settles O27, likewise. -/
theorem sampleReturnsPresentedBytes : Obligations.SampleReturnsPresentedBytes := by
  intro s ops moves h hr hb htodo hturns
  obtain ⟨t, hrun, ⟨hframe, hvis⟩, hlines, hout0, hout1⟩ := run_sampleTwo ops 0 moves h hr hb
  rw [Nat.add_zero, State.poised_self htodo hturns] at hrun
  refine ⟨_, hrun, hout0, hout1, hvis, ?_, congrArg (fun u : State => u.poised ops 0 moves) hframe⟩
  exact hlines.symm ▸ hr

end Sys2Proof.Machine
end

section
/-! Where CLK_IN is a line of its own, `Main`'s statements but the two read-and-clears commute with any change of the clock line's
state (41_bus_protocol.md R162). -/

namespace Sys2Proof.Machine

/-- The outcome with this clock line's state, where the step goes ahead. -/
def withEdges (e : Edges) : Host.Outcome State Fault Refusal → Host.Outcome State Fault Refusal
  | .next t => .next (t.setEdges e)
  | .fault f => .fault f
  | .refused r => .refused r

/-- A call of the bus protocol reads DATA's direction only. -/
theorem startBusCall_setEdges (a : Agent) (call : BusCall) (ops : List Op) (s : State) (e : Edges) :
    startBusCall a call ops (s.setEdges e) = withEdges e (startBusCall a call ops s) := by
  unfold startBusCall
  split
  · rfl
  · cases h : s.lines.dataDir <;> simp only [State.setEdges_lines, h] <;> rfl

/-- A micro-step reads the ROM, the flags and the step counter only. -/
theorem microStep_setEdges (op : Byte) (s : State) (e : Edges) :
    microStep op (s.setEdges e) = withEdges e (microStep op s) := by
  have hw : lookupWord op (s.setEdges e).instructionStep (s.setEdges e) = lookupWord op s.instructionStep s := rfl
  unfold microStep
  rw [hw]
  cases lookupWord op s.instructionStep s <;> rfl

theorem storeResetWord_setEdges (s : State) (e : Edges) :
    storeResetWord (s.setEdges e) = withEdges e (storeResetWord s) := by
  have hw : lookupWord (s.setEdges e).instruction 0 (s.setEdges e) = lookupWord s.instruction 0 s := rfl
  unfold storeResetWord
  rw [hw]
  cases h : s.cfg.resetStore <;> simp only [State.setEdges_cfg, h]
  · rfl
  · cases lookupWord s.instruction 0 s <;> rfl

/-- A line operation has nothing to do with the clock line's state where CLK_IN is a line of its own. -/
theorem lineChanged_setEdges {s t : State} {e : Edges} (ht : t = s.setEdges e) (hs : s.cfg.clkSharesData = false) :
    lineChanged t = (lineChanged s).setEdges e := by
  subst ht
  rw [lineChanged_of_separate s hs]
  exact lineChanged_of_separate (s.setEdges e) hs

/-- There the level on DATA has nothing to do with it either. -/
theorem dataLine_setEdges {s : State} (hs : s.cfg.clkSharesData = false) (e : Edges) :
    dataLine (s.setEdges e) = dataLine s := by
  simp [dataLine, hs]

theorem setPin_setEdges {s : State} (hs : s.cfg.clkSharesData = false) (p : Pin) (l : Bool) (e : Edges) :
    setPin p l (s.setEdges e) = (setPin p l s).setEdges e := by
  cases p with
  | sclk =>
    have hshift : shiftChains (s.setEdges e) = shiftChains s := by simp [shiftChains, dataLine_setEdges hs]
    simp only [setPin, setSclk, hshift]
    exact lineChanged_setEdges rfl (by exact hs)
  | inLatch => exact lineChanged_setEdges rfl (by exact hs)
  | outLatch => exact lineChanged_setEdges rfl (by exact hs)

/-- R162: a statement but the two read-and-clears commutes with any change of the clock line's state. -/
theorem perform_setEdges {op : Op} {s : State} (hs : s.cfg.clkSharesData = false) (hf : op ≠ .pollFalling)
    (hr : op ≠ .pollRising) (e : Edges) : perform op (s.setEdges e) = withEdges e (perform op s) := by
  cases op with
  | pollFalling => exact absurd rfl hf
  | pollRising => exact absurd rfl hr
  | sample n => exact startBusCall_setEdges .main .sample (sampleOps s.cfg n) s e
  | drive cw bus => exact startBusCall_setEdges .main .drive (driveOps s.cfg cw bus) s e
  | dispatch => exact (exec_eq _ _).trans ((microStep_setEdges _ s e).trans (congrArg _ (exec_eq _ s).symm))
  | storeResetWord => exact storeResetWord_setEdges s e
  | dir d => exact congrArg Host.Outcome.next (lineChanged_setEdges rfl (by exact hs))
  | data l => exact congrArg Host.Outcome.next (lineChanged_setEdges rfl (by exact hs))
  | pin p l => exact congrArg Host.Outcome.next (setPin_setEdges hs p l e)
  | readBit => simp only [perform, readBit, dataLine_setEdges hs]; rfl
  | wrapStep =>
    have hwrap : wrapStep (s.setEdges e) = (wrapStep s).setEdges e := 
      (apply_ite (State.setEdges · e) (maxStep < s.instructionStep) (s.setStep 0) s).symm
    exact congrArg Host.Outcome.next hwrap
  | onFalling => simp only [perform, onFalling, State.setEdges_mode]; split <;> rfl
  | onRising => simp only [perform, onRising, State.setEdges_mode]; split <;> rfl
  | _ => rfl

/-- R162: so such a statement leaves the clock line's state as it was. -/
theorem perform_edges {op : Op} {s t : State} (hs : s.cfg.clkSharesData = false) (hf : op ≠ .pollFalling)
    (hr : op ≠ .pollRising) (h : perform op s = .next t) : t.edges = s.edges := by
  have hsame : perform op s = withEdges s.edges (perform op s) := perform_setEdges hs hf hr s.edges
  rw [h] at hsame
  injection hsame with ht
  exact (congrArg State.edges ht).trans rfl

/-- Settles O31, by the outcome of the statement. -/
theorem statementsIgnoreTheInterrupt : Obligations.StatementsIgnoreTheInterrupt := by
  intro s e op hs hf hr
  have hcomm : perform op { s with edges := e } = withEdges e (perform op s) := perform_setEdges hs hf hr e
  rw [hcomm]
  cases h : perform op s with
  | next t => exact ⟨perform_edges hs hf hr h, rfl⟩
  | fault f => rfl
  | refused r => rfl

end Sys2Proof.Machine
end

section
/-! What the invariant says of the bus protocol (41_bus_protocol.md R159, 60_exceptions.md R305): between calls the lines are at
rest, so no call finds DATA an output, and M1 is the only fault a step can raise. -/

namespace Sys2Proof.Machine

/-- R159: where `Main` has nothing left to run, the lines are at rest. -/
theorem State.Inv.atRest {s : State} (h : s.Inv) (h2 : s.todo = []) : s.lines.atRest s.cfg := by
  have hflow := h.flow
  rw [h2] at hflow
  exact Shape.resting_iff.1 hflow

/-- Settles O54: the step keeps the invariant, which says it. -/
theorem linesRestBetweenCalls : Obligations.LinesRestBetweenCalls := by
  intro s t h hst htodo
  exact (stepKeepsInvariant s t h hst).atRest htodo

/-- R101, R307: the lookup of `Main` faults only at the decode of the flags. -/
theorem lookupWord_fault {op : Byte} {k : Nat} {s : State} {f : Fault} (h : lookupWord op k s = .fault f) :
    f = .flagsOutOfRange s.flags := by
  unfold lookupWord at h
  split at h
  · cases h; rfl
  · simp only [readRom] at h
    split at h
    · contradiction
    · split at h <;> cases h

/-- R305: a micro-step faults only where its lookup does. -/
theorem microStep_fault {op : Byte} {s : State} {f : Fault} (h : microStep op s = .fault f) :
    f = .flagsOutOfRange s.flags := by
  unfold microStep at h
  split at h
  · cases h
  · cases h; exact lookupWord_fault (by assumption)
  · cases h

theorem storeResetWord_fault {s : State} {f : Fault} (h : storeResetWord s = .fault f) :
    f = .flagsOutOfRange s.flags := by
  unfold storeResetWord at h
  split at h
  · cases h
  · split at h
    · cases h
    · cases h; exact lookupWord_fault (by assumption)
    · cases h

/-- A call of `Main` that the invariant lets run finds DATA an input, so it does not fault. -/
theorem startBusCall_ne_fault {call : BusCall} {ops : List Op} {s : State} {f : Fault}
    (h : s.shape.resting s.cfg = true) : startBusCall .main call ops s ≠ .fault f := by
  rw [startBusCall_main (Shape.resting_iff.1 h).1]
  exact nofun

/-- R305: a statement that runs from the state's shape raises no fault but M1. -/
theorem perform_fault {op : Op} {s : State} {a : Shape} {f : Fault} (ha : op.flow s.cfg s.shape = some a)
    (h : perform op s = .fault f) : f = .flagsOutOfRange s.flags := by
  cases op with
  | sample n =>
    simp only [Op.flow, Option.ite_none_right_eq_some] at ha
    exact absurd h (startBusCall_ne_fault ha.1)
  | drive cw bus =>
    simp only [Op.flow, Option.ite_none_right_eq_some] at ha
    exact absurd h (startBusCall_ne_fault ha.1)
  | dispatch => exact microStep_fault ((exec_eq _ _).symm.trans h)
  | storeResetWord => exact storeResetWord_fault h
  | _ => cases h

/-- No host call marks a fault as it starts. -/
theorem hostCall_faulted {c : HostCall} {s t : State} (h : hostCall c s = .next t) : t.faulted = s.faulted := by
  cases hi : s.initialized with
  | true => exact (hostCall_kept hi h).faulted
  | false =>
    obtain ⟨-, rfl⟩ := hostCall_before hi h
    simp [startUp]

/-- R305: from a state that meets the invariant a step raises no fault but M1. -/
theorem step_faulted {s t : State} (h : s.Inv) (hst : step s = .next t) :
    t.faulted = none ∨ t.faulted = some (.flagsOutOfRange s.flags) := by
  obtain ⟨hf, -, k, hk⟩ := step_cases hst
  cases hk with
  | clock level _ ht => rw [envClock_eq] at ht; subst ht; exact .inl hf
  | present opcode flags ht => subst ht; exact .inl hf
  | serial level ht => subst ht; exact .inl hf
  | producer _ ht => subst ht; exact .inl hf
  | idle _ _ ht => subst ht; exact .inl hf
  | run op ops _ _ ht => exact .inl ((perform_kept ht).faulted.trans hf)
  | stop op ops _ h2 ht =>
    rcases ht with ⟨f, hp, rfl⟩ | ⟨r, -, rfl⟩
    · obtain ⟨a, ha, -⟩ := flowsToRest_cons (h2 ▸ h.flow)
      exact .inr (congrArg some (perform_fault (s := (s.setSched k).setTodo ops) ha hp))
    · exact .inl hf
  | call c _ _ ht => exact .inl ((hostCall_faulted ht).trans hf)
  | refusedCall c r _ _ _ ht => subst ht; exact .inl hf

/-- Settles O55: the one fault a step can raise is M1. -/
theorem busFaultsAreUnreachable : Obligations.BusFaultsAreUnreachable := by
  intro s t c o h _ hst
  rcases step_faulted h hst with hf | hf <;> rw [hf] <;> exact ⟨nofun, nofun⟩

end Sys2Proof.Machine
end

section
/-! The clock-edge detector (42_edge_detector.md R180 to R188): a transition of CLK_IN requests the `Producer`, which comes before
`Main` and records the line's level, and the poll reads and clears what it recorded. -/

namespace Sys2Proof.Machine

/-! ### The Producer -/

/-- Settles O33, by which agent moved: a statement of `Main` and a host call find no request. -/
theorem producerHasPriority : Obligations.ProducerHasPriority := by
  intro s t h hirq
  obtain ⟨-, -, k, hk⟩ := step_cases h
  cases hk with
  | clock level _ ht => rw [envClock_eq] at ht; subst ht; rfl
  | present opcode flags ht => subst ht; rfl
  | serial level ht => subst ht; rfl
  | producer _ ht => subst ht; rfl
  | idle hn _ _ => cases hn.symm.trans hirq
  | run op ops hn _ _ => cases hn.symm.trans hirq
  | stop op ops hn _ _ => cases hn.symm.trans hirq
  | call c hn _ _ => cases hn.symm.trans hirq
  | refusedCall c r hn _ _ _ => cases hn.symm.trans hirq

/-- R180: the flag that the `Producer` sets is the one of the level CLK_IN has. -/
theorem producerStep_eq (s : State) :
    producerStep s = s.setEdges { s.edges with
      irqPending := false
      fallingPending := if s.edges.clkLevel then s.edges.fallingPending else true
      risingPending := if s.edges.clkLevel then true else s.edges.risingPending } := by
  unfold producerStep
  cases s.edges.clkLevel <;> simp

/-- R182: a turn of the core is the `Producer`'s while the interrupt is requested. -/
theorem takeMove_core_of_irqPending {s : State} (h : s.edges.irqPending = true) :
    takeMove .core s = .next (producerStep (consumeMove s)) := by
  have hc : (consumeMove s).edges.irqPending = true := by rw [consumeMove_eq]; exact h
  simp only [takeMove, coreStep, hc, if_true]

/-- Settles O32: the core's turn is the `Producer`'s, whose step says the rest. -/
theorem producerRecordsCurrentLevel : Obligations.ProducerRecordsCurrentLevel := by
  intro s moves hlive hirq hscript
  obtain ⟨hf, hr⟩ := hlive
  have hmove : nextMove s = .core := by simp only [nextMove, hscript]
  have hconsumed : consumeMove s = s.setSched { s.sched with script := moves } := by simp only [consumeMove, hscript]
  rw [step_live hf hr, hmove, takeMove_core_of_irqPending hirq, hconsumed, producerStep_eq]
  rfl

/-! ### A transition of CLK_IN -/

/-- R181: where CLK_IN is not at the level last seen, that is a transition. -/
theorem observeClock_of_moved {s : State} (h : clkLine s ≠ s.edges.clkLevel) :
    observeClock s = s.setEdges { s.edges with
      clkLevel := clkLine s
      irqPending := s.edges.irqPending || s.edges.producerEnabled } :=
  if_neg h

/-- R181, D33: a running clock set to its other level moves, and CLK_IN is observed. -/
theorem envClock_of_moved {s : State} {level : Bool} (h : s.edges.attachedClk ≠ level)
    (hruns : (s.board.fitted && s.board.cpu.halted) = false) :
    envClock level s =
      observeClock ((s.setBoard (clockedBoard level s)).setEdges { s.edges with attachedClk := level }) := by
  unfold envClock
  rw [if_neg h.symm, if_neg (Bool.eq_false_iff.1 hruns)]

/-- Settles O34: CLK_IN shows the attached clock, whose new level is not the one last seen. -/
theorem transitionRequestsInterrupt : Obligations.TransitionRequestsInterrupt := by
  intro s level hinv hsep hne hruns
  have hline : clkLine ((s.setBoard (clockedBoard level s)).setEdges { s.edges with attachedClk := level }) = level :=
    clkLine_separate hsep
  have hseen : level ≠ s.edges.clkLevel := hinv.level hsep ▸ hne.symm
  rw [envClock_of_moved hne hruns, observeClock_of_moved (by rw [hline]; exact hseen), hline]
  rfl

/-! ### The poll -/

/-- R184: the read-and-clear of the falling flag serves it once where it was set. -/
theorem pollFalling_eq (s : State) :
    pollFalling s = (s.setEdges { s.edges with fallingPending := false }).setTodo
      (if s.edges.fallingPending then .onFalling :: s.todo else s.todo) := by
  unfold pollFalling
  cases s.edges.fallingPending <;> rfl

/-- R184: so does the read-and-clear of the rising flag. -/
theorem pollRising_eq (s : State) :
    pollRising s = (s.setEdges { s.edges with risingPending := false }).setTodo
      (if s.edges.risingPending then .onRising :: s.todo else s.todo) := by
  unfold pollRising
  cases s.edges.risingPending <;> rfl

/-- Settles O35, by what the call and each of the two read-and-clears leave to run. -/
theorem pollServesEachFlagOnce : Obligations.PollServesEachFlagOnce := by
  intro s hi
  refine ⟨?_, congrArg Host.Outcome.next (pollFalling_eq s), congrArg Host.Outcome.next (pollRising_eq s)⟩
  exact whenInitialized_next (pollOnce s) hi

end Sys2Proof.Machine
end

section
/-! The mode state machine (43_mode_fsm.md R200 to R216): `Main`'s statements run one a turn of the core, from the handler of an
edge or the start of a request to its end. -/

namespace Sys2Proof.Machine

/-- Settles O24: a micro-step stores its word and puts the word's drive before the rest of the call. -/
theorem instructionFrame : Obligations.InstructionFrame := by
  intro s t i h
  obtain ⟨w, -, rfl⟩ := microStep_next ((exec_eq i s).symm.trans h)
  exact ⟨rfl, rfl, rfl, rfl, rfl, rfl, rfl, rfl, rfl, rfl, rfl, fun _ => rfl⟩

/-! ### The edge handlers, by the mode -/

theorem onFalling_idle {s : State} (h : s.mode = .idle) : onFalling s = s := by simp only [onFalling, h]

theorem onFalling_execute {s : State} (h : s.mode = .execute) : onFalling s = s.push executeOps := by
  simp only [onFalling, h]

theorem onRising_execute {s : State} (h : s.mode = .execute) :
    onRising s = s.push [.drive (s.controlWord ||| s.cfg.ready) 0#8] := by simp only [onRising, h]

theorem onRising_outside {s : State} (h : s.mode = .idle ∨ s.mode = .loadCode) : onRising s = s := by
  rcases h with h | h <;> simp only [onRising, h]

/-- Settles O38, handler by handler. -/
theorem edgesOutsideTheirModeAreLost : Obligations.EdgesOutsideTheirModeAreLost := by
  intro s
  refine ⟨fun h => congrArg Host.Outcome.next (onFalling_idle h), fun h => ?_,
    fun h => congrArg Host.Outcome.next (onRising_outside h)⟩
  have hpoll := pollFalling_eq s
  rw [if_pos h] at hpoll
  exact congrArg Host.Outcome.next hpoll

/-! ### A request of the host -/

/-- R205: the guard rejects the two direct ways between `Execute` and `LoadCode`, and nothing else. -/
theorem rejectsMode_iff {m target : Mode} :
    rejectsMode m target = true ↔ m = .execute ∧ target = .loadCode ∨ m = .loadCode ∧ target = .execute := by
  cases m <;> cases target <;> decide

/-- R262: a host call whose turn it is starts where the core has nothing to do. -/
theorem step_call {s : State} {c : HostCall} {moves : List Move} (h : s.live) (hb : busy s = false)
    (hscript : s.sched.script = .call c :: moves) :
    step s = recordStop (s.setSched { s.sched with script := moves })
      (hostCall c (s.setSched { s.sched with script := moves })) := by
  obtain ⟨hf, hr⟩ := h
  have hmove : nextMove s = .call c := by simp only [nextMove, hscript]
  have hconsumed : consumeMove s = s.setSched { s.sched with script := moves } := by simp only [consumeMove, hscript]
  rw [step_live hf hr, hmove]
  simp only [takeMove, hb, hconsumed]
  rfl

/-- R208: a rejected request only writes its reply. -/
theorem requestMode_rejected {s : State} {target : Mode} (h : rejectsMode s.mode target = true) :
    requestMode target s = s.setReply (some (.accepted false)) := by
  rw [requestMode, h]
  rfl

/-- R205: every other request starts `reset()` and then commits its target. -/
theorem requestMode_accepted {s : State} {target : Mode} (h : rejectsMode s.mode target = false) :
    requestMode target s = (s.setReply none).push (resetOps s.cfg ++ [.commitMode target, .ret (.accepted true)]) := by
  rw [requestMode, h]
  rfl

/-- Settles O39: the guard rejects the request, and the call only writes its reply. -/
theorem rejectedModeRequestChangesNothing : Obligations.RejectedModeRequestChangesNothing := by
  intro s target moves h hi hb hscript hguard
  rw [step_call h hb hscript, hostCall, whenInitialized_next _ (by exact hi),
    requestMode_rejected (by exact rejectsMode_iff.2 hguard)]
  rfl

/-! ### Several turns of `Main` -/

/-- In `k` turns of the core `Main` gets from the statements `ops` in `s` to the statements `ops'` in `t`, whatever moves
follow these turns. -/
def State.runsMain (s : State) (ops : List Op) (k : Nat) (t : State) (ops' : List Op) : Prop :=
  ∀ n after, Host.Core.run Sys2Proof.core k (s.poised ops (k + n) after) = .next (t.poised ops' n after)

theorem State.runsMain.trans {s t u : State} {ops ops' ops'' : List Op} {k m : Nat} (h : s.runsMain ops k t ops')
    (h' : t.runsMain ops' m u ops'') : s.runsMain ops (k + m) u ops'' := by
  intro n after
  rw [Nat.add_assoc]
  exact run_trans k (h (m + n) after) (h' n after)

/-- A run of just these turns, from a state that stands at these statements. -/
theorem State.runsMain.run {s t : State} {ops ops' : List Op} {k : Nat} {after : List Move} (h : s.runsMain ops k t ops')
    (htodo : s.todo = ops) (hturns : s.coreTurns k after) :
    Host.Core.run Sys2Proof.core k s = .next (t.poised ops' 0 after) := by
  have hrun := h 0 after
  rwa [Nat.add_zero, State.poised_self htodo hturns] at hrun

/-- One statement takes one turn. -/
theorem runsMain_statement {s t : State} {op : Op} {ops ops' : List Op} (h : s.undisturbed)
    (hp : ∀ n after, perform op (s.poised ops n after) = .next (t.poised ops' n after)) :
    s.runsMain (op :: ops) 1 t ops' := by
  intro n after
  rw [Nat.add_comm]
  exact run_step (step_poised h (hp n after)) rfl

/-- R155, R157, R159: a `Drive` from rest writes the lines, which come back to rest, and the chains, whose outputs show its
frame. -/
theorem runsMain_drive {s : State} (cw : Word) (bus : Byte) (ops : List Op) (h : s.undisturbed)
    (hr : s.lines.atRest s.cfg) :
    ∃ l c, s.runsMain (.drive cw bus :: ops) 125 ((s.setLines l).setChains c) ops
      ∧ l.atRest s.cfg ∧ c.outVisible = bus ++ (cw ^^^ s.cfg.invertMask) :=
  ⟨(afterDrive cw bus s).lines, (afterDrive cw bus s).chains, fun n after => run_drive cw bus ops n after h hr,
    afterDrive_rest cw bus hr, rfl⟩

/-- R152: a `Sample` from rest writes the chains and its locals, where it leaves the presented bytes. -/
theorem runsMain_sample {s : State} (size : SampleSize) (ops : List Op) (h : s.undisturbed) (hr : s.lines.atRest s.cfg)
    (hb : s.cfg.readBeforePulse = true) :
    ∃ c v, s.runsMain (.sample size :: ops) ((sampleOps s.cfg size).length + 1) ((s.setChains c).setLocals v) ops
      ∧ v.out0 = (presented s).opcode ∧ (size = .two → v.out1 = (presented s).flags) := by
  obtain ⟨t, hfold, ⟨hframe, -⟩, hlines, hout0, hout1⟩ := foldl_sample size hb h.2.2 hr
  rw [hlines] at hframe
  refine ⟨t.chains, t.locals, fun n after => ?_, hout0, hout1⟩
  have hrun := run_pushed (op := .sample size) (sampleOps s.cfg size) ops n after h (onLines_sample _ size)
    (startBusCall_main hr.1)
  rw [hfold, Nat.add_right_comm] at hrun
  exact hrun.trans (congrArg (fun u : State => Host.Outcome.next (u.poised ops n after)) hframe)

/-! ### The falling edge in `Execute` -/

/-- R210: the wrap check, as a write of the step counter. -/
theorem wrapStep_eq (s : State) :
    wrapStep s = s.setStep (if maxStep < s.instructionStep then 0 else s.instructionStep) := by
  unfold wrapStep
  split <;> rfl

/-- R82, R210: the dispatch is the micro-step of the sampled opcode byte. -/
theorem perform_dispatch {s : State} {f : FlagState} {w : Word} (hflags : decodeFlags s.cfg s.flags = some f)
    (hword : s.rom.lookup f s.instruction s.instructionStep = .word w) :
    perform .dispatch s = .next ((s.setWord w).push [.drive w 0#8, .incStep]) := by
  have hop : s.cfg.opcodeOf (fetchInstr s) = s.instruction := encode_decodeOpcode s.cfg s.instruction
  rw [perform, exec_eq, hop]
  exact microStep_word hflags hword

/-- R210: from the sampled bytes on, the word is looked up, stored and driven, and the step counter advances. -/
theorem runsMain_dispatch {s : State} {f : FlagState} {w : Word} (ops : List Op) (h : s.undisturbed)
    (hr : s.lines.atRest s.cfg) (hflags : decodeFlags s.cfg s.flags = some f)
    (hword : s.rom.lookup f s.instruction s.instructionStep = .word w) :
    ∃ l c, s.runsMain (.dispatch :: ops) 127
        { s with controlWord := w, instructionStep := s.instructionStep + 1, lines := l, chains := c } ops
      ∧ l.atRest s.cfg ∧ c.outVisible = 0#8 ++ (w ^^^ s.cfg.invertMask) := by
  obtain ⟨l, c, hdrive, hrest, hvis⟩ := runsMain_drive (s := s.setWord w) w 0#8 (.incStep :: ops) h hr
  have hlook : s.runsMain (.dispatch :: ops) 1 (s.setWord w) (.drive w 0#8 :: .incStep :: ops) :=
    runsMain_statement h fun _ _ => perform_dispatch hflags hword
  have hinc : (((s.setWord w).setLines l).setChains c).runsMain (.incStep :: ops) 1
      ((((s.setWord w).setLines l).setChains c).setStep (s.instructionStep + 1)) ops :=
    runsMain_statement h fun _ _ => rfl
  exact ⟨l, c, (hlook.trans hdrive).trans hinc, hrest, hvis⟩

/-- R152, R210: from the two-byte sample on, its bytes are stored. -/
theorem runsMain_sampleOpcodeAndFlags {s : State} (ops : List Op) (h : s.undisturbed) (hr : s.lines.atRest s.cfg)
    (hb : s.cfg.readBeforePulse = true) :
    ∃ c v, s.runsMain (.sample .two :: .takeOpcode :: .takeFlags :: ops) 91
      { s with instruction := (presented s).opcode, flags := (presented s).flags, chains := c, locals := v } ops := by
  obtain ⟨c, v, hsample, hout0, hout1⟩ := runsMain_sample .two (.takeOpcode :: .takeFlags :: ops) h hr hb
  rw [sampleOps_length2] at hsample
  have hop : ((s.setChains c).setLocals v).runsMain (.takeOpcode :: .takeFlags :: ops) 1
      (((s.setChains c).setLocals v).setInstruction v.out0) (.takeFlags :: ops) :=
    runsMain_statement h fun _ _ => rfl
  have hfl : (((s.setChains c).setLocals v).setInstruction v.out0).runsMain (.takeFlags :: ops) 1
      ((((s.setChains c).setLocals v).setInstruction v.out0).setFlags v.out1) ops :=
    runsMain_statement h fun _ _ => rfl
  rw [← hout0, ← hout1 rfl]
  exact ⟨c, v, (hsample.trans hop).trans hfl⟩

/-- R210: the handler's first two turns wrap the step. -/
theorem runsMain_onFalling_execute {s : State} (ops : List Op) (h : s.undisturbed) (hm : s.mode = .execute) :
    s.runsMain (.onFalling :: ops) 2 (s.setStep (if maxStep < s.instructionStep then 0 else s.instructionStep))
      (.sample .two :: .takeOpcode :: .takeFlags :: .dispatch :: ops) := by
  have hstart : s.runsMain (.onFalling :: ops) 1 s (executeOps ++ ops) :=
    runsMain_statement h fun _ _ => congrArg Host.Outcome.next (onFalling_execute hm)
  exact hstart.trans (runsMain_statement h fun _ _ => congrArg Host.Outcome.next (wrapStep_eq _))

/-- Settles O36: two turns to the sample, 91 to sample and store its bytes, and 127 from the dispatch on. -/
theorem fallingEdgeInExecute : Obligations.FallingEdgeInExecute := by
  intro s f w k ops moves h hr hb hm htodo hturns hk hflags hword
  have hstart : s.runsMain (.onFalling :: ops) 2 (s.setStep k)
      (.sample .two :: .takeOpcode :: .takeFlags :: .dispatch :: ops) :=
    hk ▸ runsMain_onFalling_execute ops h hm
  obtain ⟨c, v, htake⟩ := runsMain_sampleOpcodeAndFlags (s := s.setStep k) (.dispatch :: ops) h hr hb
  obtain ⟨l, c', hdispatch, hrest, hvis⟩ := runsMain_dispatch ops
    (s := { s with instruction := (presented s).opcode, flags := (presented s).flags, instructionStep := k
                   chains := c, locals := v })
    h hr hflags hword
  exact ⟨_, ((hstart.trans htake).trans hdispatch).run htodo hturns, hvis, hrest, rfl⟩

/-- Settles O37: one turn for the handler and 125 for its drive. -/
theorem risingEdgeInExecute : Obligations.RisingEdgeInExecute := by
  intro s ops moves h hr hm htodo hturns
  have hstart : s.runsMain (.onRising :: ops) 1 s (.drive (s.controlWord ||| s.cfg.ready) 0#8 :: ops) :=
    runsMain_statement h fun _ _ => congrArg Host.Outcome.next (onRising_execute hm)
  obtain ⟨l, c, hdrive, hrest, hvis⟩ := runsMain_drive (s.controlWord ||| s.cfg.ready) 0#8 ops h hr
  exact ⟨_, (hstart.trans hdrive).run htodo hturns, hvis, hrest, rfl⟩

/-! ### reset() -/

/-- R200 under the default reset parameters: `reset()`'s statements. -/
theorem resetOps_default {cfg : Config} (hsize : cfg.resetSample = .one) (hclears : cfg.resetClearsLoader = false) :
    resetOps cfg = [.sample .one, .takeOpcode, .zeroStep, .storeResetWord, .drive 0#16 0#8] := by
  simp [resetOps, hsize, hclears]

/-- R200 under `RESET_CW_STORE = Zero`: the zero word is stored. -/
theorem storeResetWord_zero {s : State} (h : s.cfg.resetStore = .zero) : storeResetWord s = .next (s.setWord 0#16) := by
  simp only [storeResetWord, h, touchModeMachine_main]

/-- R200: the fields `reset()` writes under the default parameters, and the lines, chains and locals its bus calls leave. -/
def afterReset (l : Lines) (c : Chains) (v : Locals) (s : State) : State :=
  { s with instruction := (presented s).opcode, instructionStep := 0, controlWord := 0#16
           lines := l, chains := c, locals := v }

/-- R152, R200: from the one-byte sample on, its byte is stored. -/
theorem runsMain_sampleOpcode {s : State} (ops : List Op) (h : s.undisturbed) (hr : s.lines.atRest s.cfg)
    (hb : s.cfg.readBeforePulse = true) :
    ∃ c v, s.runsMain (.sample .one :: .takeOpcode :: ops) 48
      { s with instruction := (presented s).opcode, chains := c, locals := v } ops := by
  obtain ⟨c, v, hsample, hout0, -⟩ := runsMain_sample .one (.takeOpcode :: ops) h hr hb
  rw [sampleOps_length1] at hsample
  have htake : ((s.setChains c).setLocals v).runsMain (.takeOpcode :: ops) 1
      (((s.setChains c).setLocals v).setInstruction v.out0) ops := runsMain_statement h fun _ _ => rfl
  rw [← hout0]
  exact ⟨c, v, hsample.trans htake⟩

/-- R200 under `RESET_CW_STORE = Zero`: the step counter and the stored word are cleared. -/
theorem runsMain_clearFields {s : State} (ops : List Op) (h : s.undisturbed) (hstore : s.cfg.resetStore = .zero) :
    s.runsMain (.zeroStep :: .storeResetWord :: ops) 2 { s with instructionStep := 0, controlWord := 0#16 } ops := by
  have hzero : s.runsMain (.zeroStep :: .storeResetWord :: ops) 1 (s.setStep 0) (.storeResetWord :: ops) :=
    runsMain_statement h fun _ _ => rfl
  have hword : (s.setStep 0).runsMain (.storeResetWord :: ops) 1 ((s.setStep 0).setWord 0#16) ops :=
    runsMain_statement h fun _ _ => storeResetWord_zero hstore
  exact hzero.trans hword

/-- R200, R201: `reset()` from rest takes 48 turns to sample the opcode, two for the fields, and 125 for its drive. -/
theorem runsMain_reset {s : State} (ops : List Op) (h : s.undisturbed) (hr : s.lines.atRest s.cfg)
    (hb : s.cfg.readBeforePulse = true) (hsize : s.cfg.resetSample = .one) (hstore : s.cfg.resetStore = .zero)
    (hclears : s.cfg.resetClearsLoader = false) :
    ∃ l c v, s.runsMain (resetOps s.cfg ++ ops) 175 (afterReset l c v s) ops
      ∧ l.atRest s.cfg ∧ c.outVisible = 0#8 ++ s.cfg.invertMask := by
  obtain ⟨c, v, hsample⟩ := runsMain_sampleOpcode (.zeroStep :: .storeResetWord :: .drive 0#16 0#8 :: ops) h hr hb
  have hclear := runsMain_clearFields (s := { s with instruction := (presented s).opcode, chains := c, locals := v })
    (.drive 0#16 0#8 :: ops) h hstore
  obtain ⟨l, c', hdrive, hrest, hvis⟩ := runsMain_drive (s := afterReset s.lines c v s) 0#16 0#8 ops h hr
  rw [resetOps_default hsize hclears]
  exact ⟨l, c', v, (hsample.trans hclear).trans hdrive, hrest, hvis.trans (congrArg (0#8 ++ ·) BitVec.zero_xor)⟩

/-- R262: a call that starts with the core idle and leaves statements to run, and the turns that run them. -/
theorem run_call {s t : State} {c : HostCall} {ops : List Op} {n : Nat} {moves : List Move} (h : s.undisturbed)
    (htodo : s.todo = []) (hscript : s.sched.script = .call c :: (List.replicate n Move.core ++ moves))
    (hcall : ∀ k, hostCall c (s.setSched k) = .next (((s.setSched k).setReply none).push ops))
    (hrun : (s.setReply none).runsMain ops n t []) :
    Host.Core.run Sys2Proof.core (n + 1) s = .next (t.poised [] 0 moves) := by
  obtain ⟨hlive, hirq, -⟩ := h
  have hbusy : busy s = false := by simp [busy, htodo, hirq]
  have hstart := step_call hlive hbusy hscript
  rw [hcall, State.push, State.setReply_todo, State.setSched_todo, htodo, List.append_nil] at hstart
  exact run_step hstart (hrun 0 moves)

/-- Settles O40: the call's step, the 175 turns of `reset()`, and the one or two statements after it. -/
theorem acceptedRequestsReset : Obligations.AcceptedRequestsReset := by
  intro s call n mode reply moves h hr hi htodo hscript hb hsize hstore hclears hcase
  have hreset := fun ops => runsMain_reset (s := s.setReply none) ops h hr hb hsize hstore hclears
  rcases hcase with ⟨rfl, hne, hnl, rfl, rfl⟩ | ⟨rfl, rfl, rfl, rfl⟩
  · obtain ⟨l, c, v, hrun, hrest, hvis⟩ := hreset [.commitMode mode, .ret (.accepted true)]
    have hcommit : (afterReset l c v (s.setReply none)).runsMain [.commitMode mode, .ret (.accepted true)] 1
        ((afterReset l c v (s.setReply none)).setMode mode) [.ret (.accepted true)] :=
      runsMain_statement h fun _ _ => rfl
    have hret : ((afterReset l c v (s.setReply none)).setMode mode).runsMain [.ret (.accepted true)] 1
        (((afterReset l c v (s.setReply none)).setMode mode).setReply (some (.accepted true))) [] :=
      runsMain_statement h fun _ _ => rfl
    have hguard : rejectsMode s.mode mode = false := by
      rw [← Bool.not_eq_true, rejectsMode_iff]
      exact fun hc => hc.elim hne hnl
    have hcall (k : Sched) : hostCall (.requestMode mode) (s.setSched k) = .next (((s.setSched k).setReply none).push
        (resetOps s.cfg ++ [.commitMode mode, .ret (.accepted true)])) :=
      (whenInitialized_next _ hi).trans (congrArg Host.Outcome.next (requestMode_accepted hguard))
    exact ⟨_, run_call h htodo hscript hcall ((hrun.trans hcommit).trans hret), hvis, hrest, by rw [htodo]; rfl⟩
  · obtain ⟨l, c, v, hrun, hrest, hvis⟩ := hreset [.ret .done]
    have hret : (afterReset l c v (s.setReply none)).runsMain [.ret .done] 1
        ((afterReset l c v (s.setReply none)).setReply (some .done)) [] :=
      runsMain_statement h fun _ _ => rfl
    have hcall (k : Sched) : hostCall .requestReset (s.setSched k) =
        .next (((s.setSched k).setReply none).push (resetOps s.cfg ++ [.ret .done])) := whenInitialized_next _ hi
    exact ⟨_, run_call h htodo hscript hcall (hrun.trans hret), hvis, hrest, by rw [htodo]; rfl⟩

end Sys2Proof.Machine
end

section
/-! The code loader (44_code_loader.md R240 to R251): a falling edge served in `LoadCode`, turn by turn of the core, and the
request that replaces the load buffer. -/

namespace Sys2Proof.Machine

/-! ### The loader's step -/

theorem loaderOps_done {s : State} (h : s.loader.codeSize ≤ s.loader.codeLoaded) : loaderOps s = [.drive 0#16 0#8] :=
  if_pos h

theorem loaderOps_phaseA {s : State} (h : s.loader.codeLoaded < s.loader.codeSize) (ha : s.loader.addressSetup = false) :
    loaderOps s = phaseAOps s := by
  rw [loaderOps, if_neg (Nat.not_le.2 h), ha, if_neg Bool.false_ne_true]

theorem loaderOps_phaseB {s : State} (h : s.loader.codeLoaded < s.loader.codeSize) (ha : s.loader.addressSetup = true) :
    loaderOps s = phaseBOps s := by
  rw [loaderOps, if_neg (Nat.not_le.2 h), if_pos ha]

theorem onFalling_loadCode {s : State} (h : s.mode = .loadCode) : onFalling s = s.push (loaderOps s) := by
  simp only [onFalling, h]

/-- R243: the handler's first turn puts the loader's step before the rest of the call. -/
theorem runsMain_onFalling_loadCode {s : State} (ops : List Op) (h : s.undisturbed) (hm : s.mode = .loadCode) :
    s.runsMain (.onFalling :: ops) 1 s (loaderOps s ++ ops) :=
  runsMain_statement h fun _ _ => congrArg Host.Outcome.next (onFalling_loadCode hm)

/-- R240: phase A takes a turn to stage the byte, 125 for the drive of the address, and one to end the phase. -/
theorem runsMain_phaseA {s : State} (ops : List Op) (h : s.undisturbed) (hr : s.lines.atRest s.cfg) :
    ∃ l c, s.runsMain (phaseAOps s ++ ops) 127
        (((s.setLoader { s.loader with
          codeToLoad := s.loader.code.getD s.loader.codeLoaded 0#8, addressSetup := true }).setLines l).setChains c) ops
      ∧ l.atRest s.cfg
      ∧ c.outVisible = BitVec.ofNat 8 s.loader.codeLoaded ++ (s.cfg.loadAddr ^^^ s.cfg.invertMask) := by
  obtain ⟨l, c, hdrive, hrest, hvis⟩ := runsMain_drive (s := stageByte s) s.cfg.loadAddr
    (BitVec.ofNat 8 s.loader.codeLoaded) (.finishPhaseA :: ops) h hr
  have hstage : s.runsMain (phaseAOps s ++ ops) 1 (stageByte s)
      (.drive s.cfg.loadAddr (BitVec.ofNat 8 s.loader.codeLoaded) :: .finishPhaseA :: ops) :=
    runsMain_statement h fun _ _ => rfl
  have hfinish : (((stageByte s).setLines l).setChains c).runsMain (.finishPhaseA :: ops) 1
      (finishPhaseA (((stageByte s).setLines l).setChains c)) ops :=
    runsMain_statement h fun _ _ => rfl
  exact ⟨l, c, (hstage.trans hdrive).trans hfinish, hrest, hvis⟩

/-- Settles O43: a turn for the handler and 127 for the phase. -/
theorem loaderPhaseA : Obligations.LoaderPhaseA := by
  intro s ops moves h hr hm htodo hturns hleft hphase
  have hstart := runsMain_onFalling_loadCode ops h hm
  rw [loaderOps_phaseA hleft hphase] at hstart
  obtain ⟨l, c, hrun, hrest, hvis⟩ := runsMain_phaseA ops h hr
  exact ⟨_, (hstart.trans hrun).run htodo hturns, hvis, hrest, rfl⟩

/-- Settles O44: a turn for the handler, 125 for the drive of the staged byte, and one to advance the cursor. -/
theorem loaderPhaseB : Obligations.LoaderPhaseB := by
  intro s ops moves h hr hm htodo hturns hleft hphase
  have hstart := runsMain_onFalling_loadCode ops h hm
  rw [loaderOps_phaseB hleft hphase] at hstart
  obtain ⟨l, c, hdrive, hrest, hvis⟩ := runsMain_drive s.cfg.loadData s.loader.codeToLoad (.finishPhaseB :: ops) h hr
  have hfinish : ((s.setLines l).setChains c).runsMain (.finishPhaseB :: ops) 1
      (finishPhaseB ((s.setLines l).setChains c)) ops :=
    runsMain_statement h fun _ _ => rfl
  exact ⟨_, ((hstart.trans hdrive).trans hfinish).run htodo hturns, hvis, hrest, rfl⟩

/-- Settles O45: a turn for the handler and 125 for its drive of the zero word, whose wire value is the inversion mask. -/
theorem loaderWithNothingLeftDrivesAllOff : Obligations.LoaderWithNothingLeftDrivesAllOff := by
  intro s ops moves h hr hm htodo hturns hdone
  have hstart := runsMain_onFalling_loadCode ops h hm
  rw [loaderOps_done hdone] at hstart
  obtain ⟨l, c, hdrive, hrest, hvis⟩ := runsMain_drive 0#16 0#8 ops h hr
  exact ⟨_, (hstart.trans hdrive).run htodo hturns, hvis.trans (congrArg (0#8 ++ ·) BitVec.zero_xor), hrest, rfl⟩

/-! ### A load request -/

/-- R248: in `LoadCode` the request replaces the buffer. -/
theorem requestLoadCode_loadCode {s : State} (bytes : List Byte) (h : s.mode = .loadCode) :
    requestLoadCode bytes s = (s.setLoader (loadBuffer bytes s.loader)).setReply (some (.accepted true)) := by
  simp only [requestLoadCode, h]

/-- R250: in the other modes it only writes its reply. -/
theorem requestLoadCode_outside {s : State} (bytes : List Byte) (h : s.mode ≠ .loadCode) :
    requestLoadCode bytes s = s.setReply (some (.accepted false)) := by
  cases hm : s.mode with
  | loadCode => exact absurd hm h
  | idle | execute => simp only [requestLoadCode, hm]

/-- Settles O46, in `LoadCode` and outside it. -/
theorem loadRequestReplacesBuffer : Obligations.LoadRequestReplacesBuffer := by
  intro s bytes hi
  rw [hostCall, whenInitialized_next _ hi]
  split
  next hm => exact congrArg Host.Outcome.next (requestLoadCode_loadCode bytes hm)
  next hm => exact congrArg Host.Outcome.next (requestLoadCode_outside bytes hm)

end Sys2Proof.Machine
end

section
/-! The attached CPU's RAM at a rising edge of its clock (92_eei_decisions.md D33), and what the loader's two words program there
under REF (44_code_loader.md R249). -/

namespace Sys2Proof.Machine

/-- R10: a load after a store, at any two addresses. -/
theorem memRead_memWrite (m : Memory) (a b v : Byte) :
    memRead (memWrite m a v) b = if b = a then v else memRead m b := by
  split
  next h => rw [h, memRead_memWrite_same]
  next h => exact memRead_memWrite_other m a b v h

/-- D33: under RI the RAM takes the bus at the address in MAR. -/
theorem ramTick_ri {cfg : Config} {w : Word} (h : cfg.lineBits.asserts w .ri = true) (x : Byte) (b : Board) :
    ramTick cfg w x b = memWrite b.ram b.cpu.mar (cpuBus cfg w x b) := if_pos h

/-- D33: without RI the RAM is kept. -/
theorem ramTick_of_not_ri {cfg : Config} {w : Word} (h : ¬ cfg.lineBits.asserts w .ri = true) (x : Byte) (b : Board) :
    ramTick cfg w x b = b.ram := if_neg h

/-- Settles O58: under RI by the load after the store, and without it nothing is stored. -/
theorem ramTakesTheBusOnlyUnderRi : Obligations.RamTakesTheBusOnlyUnderRi := by
  intro cfg w x a b
  by_cases hri : cfg.lineBits.asserts w .ri = true
  · simp only [ramTick_ri hri, memRead_memWrite, hri, true_and]
  · rw [ramTick_of_not_ri hri, if_neg fun h => hri h.1]

/-- D33: under a word that asserts EPO and no other source, the bus carries the external value. -/
theorem cpuBus_external {cfg : Config} {w : Word} (h : cfg.sourceIs w .epo = true) (x : Byte) (b : Board) :
    cpuBus cfg w x b = x := by
  have hline : ∀ y ∈ busSources, cfg.lineBits.asserts w y = (y == .epo) := by simpa [Config.sourceIs] using h
  have hco : cfg.lineBits.asserts w .co = false := hline .co (by decide)
  have hro : cfg.lineBits.asserts w .ro = false := hline .ro (by decide)
  have hao : cfg.lineBits.asserts w .ao = false := hline .ao (by decide)
  have heo : cfg.lineBits.asserts w .eo = false := hline .eo (by decide)
  have hepo : cfg.lineBits.asserts w .epo = true := hline .epo (by decide)
  simp [cpuBus, gate, hco, hro, hao, heo, hepo]

/-- R77: REF's LOAD_ADDR is MI|EPO|RDY. -/
theorem ref_loadAddr_lines (l : Line) :
    Config.ref.lineBits.asserts Config.ref.loadAddr l = [Line.mi, .epo, .rdy].contains l := by
  cases l <;> rfl

/-- R77: REF's LOAD_DATA is RI|EPO|RDY. -/
theorem ref_loadData_lines (l : Line) :
    Config.ref.lineBits.asserts Config.ref.loadData l = [Line.ri, .epo, .rdy].contains l := by
  cases l <;> rfl

/-- R249: under LOAD_ADDR the external value reaches MAR, and RI is off. -/
theorem boardTick_loadAddr (x : Byte) (b : Board) :
    boardTick Config.ref Config.ref.loadAddr x b = { b with cpu := { b.cpu with mar := x } } := by
  have hbus : cpuBus Config.ref Config.ref.loadAddr x b = x := cpuBus_external (by decide) x b
  have hram : ramTick Config.ref Config.ref.loadAddr x b = b.ram := ramTick_of_not_ri (by decide) x b
  simp [boardTick, cpuTick, hbus, hram, ref_loadAddr_lines]

/-- R249: under LOAD_DATA the external value reaches the RAM, and no register takes the bus. -/
theorem boardTick_loadData (x : Byte) (b : Board) :
    boardTick Config.ref Config.ref.loadData x b = { b with ram := memWrite b.ram b.cpu.mar x } := by
  have hbus : cpuBus Config.ref Config.ref.loadData x b = x := cpuBus_external (by decide) x b
  have hram : ramTick Config.ref Config.ref.loadData x b = memWrite b.ram b.cpu.mar x := by
    rw [ramTick_ri (by decide), hbus]
  simp [boardTick, cpuTick, hram, ref_loadData_lines]

/-- Settles O60, word by word. -/
theorem loaderWordsProgramTheRam : Obligations.LoaderWordsProgramTheRam :=
  fun x b => ⟨boardTick_loadAddr x b, boardTick_loadData x b⟩

end Sys2Proof.Machine
end

section
/-! The host's calls (45_host_interface.md R260 to R270): when a call is refused, what the set-up call leaves, what the status
read answers, and how a call waits for the core. -/

namespace Sys2Proof.Machine

/-! ### A waiting call -/

/-- R10: a turn of `Main` leaves the schedule as it was, also where its statement stops the machine. -/
theorem mainStep_sched {s t : State} (h : mainStep s = .next t) : t.sched = s.sched := by
  unfold mainStep at h
  split at h
  next =>
    cases h
    rfl
  next op ops _ =>
    cases hp : perform op (s.setTodo ops) with
    | next u =>
      rw [hp] at h
      cases h
      exact (perform_kept hp).sched
    | fault f =>
      rw [hp] at h
      cases h
      rfl
    | refused r =>
      rw [hp] at h
      cases h
      rfl

/-- R182: so does a step of the core, whether the `Producer` or `Main` takes it. -/
theorem coreStep_sched {s t : State} (h : coreStep s = .next t) : t.sched = s.sched := by
  unfold coreStep at h
  split at h
  next =>
    cases h
    rfl
  next => exact mainStep_sched h

/-- R262: a host call whose turn it is leaves the step to a busy core. -/
theorem step_call_of_busy {s : State} {c : HostCall} {moves : List Move} (h : s.live) (hb : busy s = true)
    (hscript : s.sched.script = .call c :: moves) : step s = coreStep s := by
  obtain ⟨hf, hr⟩ := h
  rw [step_live hf hr, nextMove_of_script hscript]
  exact if_pos hb

/-- Settles O50: the busy core takes the step, and the core makes no move of the schedule. -/
theorem hostCallWaitsForMain : Obligations.HostCallWaitsForMain := by
  intro s t c moves h hscript hb
  have hstep : step s = coreStep s := step_call_of_busy h hb hscript
  exact ⟨hstep, fun ht => coreStep_sched (hstep ▸ ht)⟩

/-! ### The status read -/

/-- Settles O47: after the set-up call it goes ahead, and writes its reply alone. -/
theorem statusReadHasNoSideEffect : Obligations.StatusReadHasNoSideEffect := by
  intro s hi
  exact whenInitialized_next (statusRead s) hi

/-! ### The set-up call -/

/-- R261: before it has run, the set-up call goes ahead. -/
theorem hostCall_startUp_first {s : State} (hi : s.initialized = false) : hostCall .startUp s = .next (startUp s) :=
  if_neg (Bool.eq_false_iff.1 hi)

/-- R306 X3: once it has run, it is refused. -/
theorem hostCall_startUp_again {s : State} (hi : s.initialized = true) : hostCall .startUp s = .refused .doubleInitialize :=
  if_pos hi

/-- R261: the set-up call builds the ROM from the parameters. -/
@[simp] theorem startUp_rom (s : State) : (startUp s).rom = buildRom s.cfg := by simp [startUp]

/-- R35: the set-up call puts each line to its rest level, DATA's output level to 0. -/
@[simp] theorem startUp_lines (s : State) : (startUp s).lines = Lines.rest s.cfg := by simp [startUp, Lines.rest]

/-- R154: the capture of the two presented bytes leaves the output chain alone. -/
@[simp] theorem captureInputs_outVisible (s : State) : (captureInputs s).outVisible = s.chains.outVisible := rfl

/-- R341, D16: with the output latch high already, no line the set-up call moves latches the 24 outputs. -/
theorem startUp_outVisible {s : State} (h : s.lines.outLatch = true) :
    (startUp s).chains.outVisible = s.chains.outVisible := by
  simp [startUp, h, apply_ite Chains.outVisible]

/-- Settles O48: the ROM and the lines by what the set-up call makes of them, the outputs since the output latch does not rise,
and the other fields by the values it stores. -/
theorem startUpLeavesFirstValues : Obligations.StartUpLeavesFirstValues := by
  intro s hi hlatch
  exact ⟨startUp s, hostCall_startUp_first hi, startUp_rom s, rfl, rfl, rfl, rfl, rfl, rfl, rfl, rfl, rfl, rfl, rfl,
    startUp_lines s, startUp_outVisible hlatch, startUp_board s⟩

/-! ### Calls out of order -/

/-- R260, R306 X2: before the set-up call a call is refused by name, whatever it would have done. -/
theorem whenInitialized_refused {c : HostCall} {s : State} (t : State) (hi : s.initialized = false) :
    whenInitialized c s t = .refused (.notInitialized c) := if_neg (Bool.eq_false_iff.1 hi)

/-- R260: the set-up call is the only one that does not need the set-up. -/
theorem hostCall_refused_of_not_initialized {c : HostCall} {s : State} (hi : s.initialized = false) (hc : c ≠ .startUp) :
    hostCall c s = .refused (.notInitialized c) := by
  cases c with
  | startUp => exact absurd rfl hc
  | pollOnce | requestReset | requestMode _ | requestLoadCode _ | statusRead => exact whenInitialized_refused _ hi

/-- Settles O49: before the set-up call and after it. -/
theorem callsOutOfOrderAreRefused : Obligations.CallsOutOfOrderAreRefused :=
  fun _ _ => ⟨hostCall_refused_of_not_initialized, hostCall_startUp_again⟩

end Sys2Proof.Machine
end

section
/-! Faults and refusals (60_exceptions.md R305 to R307): the flags byte without a meaning and the body left unchosen, which stop a
micro-step, the bus call that finds DATA an output, and how a stop stands in the state and in every later step. -/

namespace Sys2Proof.Machine

/-! ### Flags without a meaning -/

/-- R307: the decode of the flags comes before the lookup, so a micro-step faults there whatever its opcode. -/
theorem microStep_of_unknown_flags {s : State} (h : decodeFlags s.cfg s.flags = none) (op : Byte) :
    microStep op s = .fault (.flagsOutOfRange s.flags) := by
  simp only [microStep, lookupWord, h]

/-- Settles O23: every instruction's meaning is a micro-step. -/
theorem unknownFlagsFaultBeforeLookup : Obligations.UnknownFlagsFaultBeforeLookup :=
  fun s i h => (exec_eq i s).trans (microStep_of_unknown_flags h _)

/-! ### An unchosen body -/

/-- R306 X1: an override leaves an unchosen entry unchosen, also at the step it is made at. -/
theorem overridden_unchosen {r : RomRow} {k : Nat} (hr : r.entries[k]? = some .unchosen) (j : Nat) (w : Word) (p : Prop)
    [Decidable p] :
    (if p then { r with entries := r.entries.modify j (RomEntry.override w) } else r).entries[k]? = some .unchosen := by
  split
  · simp [List.getElem?_modify, hr, RomEntry.override]
  · exact hr

/-- R306 X1: so the overrides of every FlagState do. -/
theorem patches_unchosen {r : RomRow} {k : Nat} (hr : r.entries[k]? = some .unchosen) (cfg : Config) (f : FlagState) (b : Byte) :
    (patches cfg f b r).entry k = .unchosen := by
  have hpatched : (patches cfg f b r).entries[k]? = some .unchosen :=
    overridden_unchosen (overridden_unchosen (overridden_unchosen hr _ _ _) _ _ _) _ _ _
  rw [RomRow.entry, List.getD_eq_getElem?_getD, hpatched, Option.getD_some]

/-- R111: the base row of an unchosen body leaves steps 2 to 6 unchosen. -/
theorem baseRow_unchosen {cfg : Config} {i : Instr} (hb : cfg.bodyOf i = none) {k : Nat} (h2 : 2 ≤ k) (h6 : k ≤ maxStep) :
    (baseRow cfg i).entries[k]? = some .unchosen := by
  obtain ⟨j, rfl⟩ : ∃ j, k = j + 2 := ⟨k - 2, by omega⟩
  have hj : j < 5 := by
    simp only [maxStep] at h6
    omega
  simp only [baseRow, hb]
  exact List.getElem?_replicate_of_lt hj

/-- R111: a lookup in an unchosen body finds no word, under any FlagState. -/
theorem lookup_unchosen {cfg : Config} (h : cfg.wf = true) {i : Instr} (hi : i ∈ cfg.definedInstrs)
    (hb : cfg.bodyOf i = none) (f : FlagState) {k : Nat} (h2 : 2 ≤ k) (h6 : k ≤ maxStep) :
    (buildRom cfg).lookup f (cfg.opcodeOf i) k = .unchosen := by
  rw [lookup_defined h hi, if_pos h6, patches_unchosen (baseRow_unchosen hb h2 h6)]

/-- R103: at the fetch steps a lookup finds the word every row has there, whatever the body. -/
theorem lookup_fetch {cfg : Config} (h : cfg.wf = true) {i : Instr} (hi : i ∈ cfg.definedInstrs) (f : FlagState) {k : Nat}
    (hk : k ≤ 1) : (buildRom cfg).lookup f (cfg.opcodeOf i) k = .word (cfg.rowWord [] k) := by
  obtain ⟨hfetch0, hfetch1⟩ := universalFetchRows cfg i f h hi
  match k with
  | 0 => exact hfetch0
  | 1 => exact hfetch1

/-- R306 X1: where the lookup finds no word, the micro-step is refused. -/
theorem microStep_unchosen {s : State} {f : FlagState} {op : Byte} (hd : decodeFlags s.cfg s.flags = some f)
    (hl : s.rom.lookup f op s.instructionStep = .unchosen) :
    microStep op s = .refused (.bodyNotChosen op s.instructionStep) := by
  simp [microStep, lookupWord, hd, readRom, hl]

/-- Settles O22: the fetch words stand in every row, and behind them an unchosen body has no word that an override could make. -/
theorem unchosenBodyIsRefusedAfterFetch : Obligations.UnchosenBodyIsRefusedAfterFetch := by
  intro s f i hs hi hb
  refine ⟨fun hk => exec_of_lookup hs (lookup_fetch hs.1 hi f hk), fun h2 h6 => ?_⟩
  obtain ⟨hwf, hrom, hflags⟩ := hs
  rw [exec_eq]
  exact microStep_unchosen hflags (hrom ▸ lookup_unchosen hwf hi hb f h2 h6)

/-! ### A bus call against the direction of DATA -/

/-- R305 M2: a call of the bus protocol that finds DATA an output faults. -/
theorem startBusCall_of_output {s : State} (h : s.lines.dataDir = .output) (call : BusCall) (ops : List Op) :
    startBusCall .main call ops s = .fault (.dataPinWrongDirection call) := by
  simp [startBusCall, h]

/-- Settles O28: both statements begin a call of the bus protocol. -/
theorem wrongDirectionFaults : Obligations.WrongDirectionFaults :=
  fun _ _ _ _ h => ⟨startBusCall_of_output h .sample _, startBusCall_of_output h .drive _⟩

/-! ### A recorded stop -/

/-- R10: the core's turn runs `Main`'s next statement, a stop of it being recorded in the state it stood in. -/
theorem step_statement {s : State} {op : Op} {ops : List Op} {moves : List Move} (h : s.live)
    (hi : s.edges.irqPending = false) (hscript : s.sched.script = .core :: moves) (htodo : s.todo = op :: ops) :
    step s = recordStop { s with sched := { s.sched with script := moves } }
      (perform op { s with todo := ops, sched := { s.sched with script := moves } }) := by
  obtain ⟨hf, hr⟩ := h
  rw [step_live hf hr, nextMove_of_script hscript, takeMove_core hi htodo, consumeMove_of_script hscript]
  rfl

/-- R305: a fault that has been recorded is what every later step answers. -/
theorem step_of_faulted {s : State} {f : Fault} (h : s.faulted = some f) : step s = .fault f := by
  simp only [step, h]

/-- R306: so is a refusal. -/
theorem step_of_refused {s : State} {r : Refusal} (hf : s.faulted = none) (h : s.refused = some r) : step s = .refused r := by
  simp only [step, hf, h]

/-- Settles O51: the core's turn records what its statement raised, and the step reads the marks before the move. -/
theorem stopsAreRecordedAndFinal : Obligations.StopsAreRecordedAndFinal := by
  intro s op ops moves f r
  refine ⟨fun hlive hi hscript htodo => ?_, step_of_faulted, step_of_refused⟩
  rw [step_statement hlive hi hscript htodo]
  exact ⟨fun hp => by rw [hp]; rfl, fun hp => by rw [hp]; rfl⟩

end Sys2Proof.Machine
end

section
/-! Reset and hazards (70_reset_and_hazards.md R340, R341, R370): the machine at power-on, and the pulses of SCLK that the bus
calls make. -/

namespace Sys2Proof.Machine

/-! ### The pulses of SCLK -/

theorem pulsesIn_append (l m : List Op) : pulsesIn (l ++ m) = pulsesIn l + pulsesIn m := List.countP_append

theorem pulsesIn_cons (op : Op) (l : List Op) : pulsesIn (op :: l) = pulsesIn [op] + pulsesIn l := pulsesIn_append [op] l

theorem pulsesIn_flatMap {α : Type} {f : α → List Op} {n : Nat} (h : ∀ x, pulsesIn (f x) = n) (l : List α) :
    pulsesIn (l.flatMap f) = l.length * n := by
  have hsum : pulsesIn (l.flatMap f) = (l.map fun x => pulsesIn (f x)).sum := List.countP_flatMap
  simp [hsum, h]

/-- R152: whether the bit is read before or after it, a bit takes one pulse. -/
theorem pulsesIn_readBitOps (cfg : Config) : pulsesIn (readBitOps cfg) = 1 := by
  unfold readBitOps
  split <;> rfl

/-- R152: a byte takes eight, where its last statement makes none. -/
theorem pulsesIn_readByteOps (cfg : Config) {store : Op} (h : pulsesIn [store] = 0) :
    pulsesIn (readByteOps cfg store) = 8 := by
  have hbits : pulsesIn (List.replicate 8 (readBitOps cfg)).flatten = 8 :=
    pulsesIn_flatMap (fun _ : Unit => pulsesIn_readBitOps cfg) (List.replicate 8 ())
  rw [readByteOps, pulsesIn_append, pulsesIn_cons, hbits, h]
  rfl

/-- R155: a bit that is sent takes one. -/
theorem pulsesIn_sendBitOps (cfg : Config) (b : Bool) : pulsesIn (sendBitOps cfg b) = 1 := rfl

theorem pulsesIn_sampleOne (cfg : Config) : pulsesIn (sampleOps cfg .one) = 8 := by
  rw [sampleOps, pulsesIn_append, pulsesIn_append, pulsesIn_append, pulsesIn_readByteOps cfg rfl]
  rfl

theorem pulsesIn_sampleTwo (cfg : Config) : pulsesIn (sampleOps cfg .two) = 16 := by
  rw [sampleOps, pulsesIn_append, pulsesIn_append, pulsesIn_append, pulsesIn_readByteOps cfg rfl,
    pulsesIn_readByteOps cfg rfl]
  rfl

theorem pulsesIn_driveOps (cfg : Config) (cw : Word) (bus : Byte) : pulsesIn (driveOps cfg cw bus) = 24 := by
  rw [driveOps, pulsesIn_append, pulsesIn_append, pulsesIn_flatMap (pulsesIn_sendBitOps cfg)]
  rfl

/-- Settles O29: one pulse a bit, for the 8, 16 or 24 bits of the call; the latches and DATA move without one. -/
theorem pulseCounts : Obligations.PulseCounts :=
  fun cfg cw bus => ⟨pulsesIn_sampleOne cfg, pulsesIn_sampleTwo cfg, pulsesIn_driveOps cfg cw bus⟩

/-! ### Power-on -/

/-- R35, R340: at power-on the lines are at rest. -/
theorem powerOn_shape_resting (cfg : Config) : (State.powerOn cfg).shape.resting cfg = true :=
  Shape.resting_iff.2 ⟨rfl, rfl, rfl, rfl⟩

/-- R73, R340: at power-on the stored word is zero, and no word is about to be driven. -/
theorem powerOn_computesLines (cfg : Config) : (State.powerOn cfg).computesLines :=
  ⟨LineBits.isLines_zero _, rfl⟩

/-- R340: the machine at power-on meets the invariant. -/
theorem powerOn_inv (cfg : Config) : (State.powerOn cfg).Inv where
  flow := powerOn_shape_resting cfg
  step := Nat.zero_le _
  loader := Loader.empty_inv
  rom := rfl
  words _ := powerOn_computesLines cfg
  enabled := rfl
  calls _ := rfl
  edges := ⟨nofun, fun _ => rfl⟩
  ram := powerOn_ram_wf cfg

/-- Settles O52: `State.reset` is the machine at power-on under REF. -/
theorem powerOnMeetsInvariant : Obligations.PowerOnMeetsInvariant := ⟨powerOn_inv, powerOn_inv Config.ref⟩

end Sys2Proof.Machine
end
